-- ==== Sys2Proof/Word.lean ====
section
/-! DEFINITION. The word types of huffman_tree_builder and nothing else. -/

namespace Sys2Proof

/-- A command word: 16 bits, bit 0 least significant (30_encoding.md R91, 00_scope.md R12). -/
abbrev CmdWord := BitVec 16

/-- A symbol: "a byte value in [0,255]" (00_scope.md R7). -/
abbrev Symbol := BitVec 8

/-- A node id: 9 bits, 0..510 name slots, 511 names nothing (10_state.md R27). -/
abbrev NodeId := BitVec 9

/-- The 32-bit auxiliary response field (30_encoding.md R100). -/
abbrev Aux := BitVec 32

/-- One packed byte (20_memory.md R64). -/
abbrev Byte := BitVec 8

end Sys2Proof
end

