-- ==== Sys2Proof/Syntax.lean ====
section
/-! DEFINITION. The eleven commands of HUFCMD version 1, one constructor per row of spec/opcode_table.json
(30_encoding.md R92), and the pseudo-commands of R109. -/

namespace Sys2Proof

/-- The eleven host commands (30_encoding.md R92). A symbol operand is the 8-bit `opd[7:0]`; a node-id operand
is the 9-bit `opd[8:0]` (R93). -/
inductive Instr where
  | clr
  | cnt    (s : Symbol)
  | build
  | assign
  | estart
  | enc    (s : Symbol)
  | elen
  | qfreq  (s : Symbol)
  | qnode  (i : NodeId)
  | qcode  (s : Symbol)
  | qstat
deriving DecidableEq, Repr

/-- The pseudo-commands of 30_encoding.md R109; a string is its list of bytes. -/
inductive Pseudo where
  | cnts (bytes : List Symbol)
  | encs (bytes : List Symbol)
  | make
deriving DecidableEq, Repr

end Sys2Proof
end

