-- ==== Sys2Proof/WellFormed.lean ====
section
/-! DEFINITION. Which commands have a legal word (30_encoding.md R93, R105). -/

namespace Sys2Proof

/-- The one operand range the types do not carry: a node id is at most 510; id 511 names nothing
(30_encoding.md R93, R105). A symbol operand is any byte. -/
def Instr.wellFormed : Instr → Bool
  | .qnode i => i != 511#9
  | .clr | .cnt _ | .build | .assign | .estart | .enc _ | .elen | .qfreq _ | .qcode _ | .qstat => true

end Sys2Proof
end

