-- ==== Sys2Proof/Decode.lean ====
section
/-! DEFINITION. The command word: its fields, the decoder (total on all 65536 words, rejecting by name), the
encoder, the opcode table as rows, and the expansion of the pseudo-commands. -/

namespace Sys2Proof

/-- `op`, bits 15:12 (30_encoding.md R91). -/
def fieldOp (w : CmdWord) : BitVec 4 := w.extractLsb' 12 4

/-- `rsv`, bits 11:9, must be zero (R91). -/
def fieldRsv (w : CmdWord) : BitVec 3 := w.extractLsb' 9 3

/-- `opd`, bits 8:0, unsigned (R91, R93). -/
def fieldOpd (w : CmdWord) : BitVec 9 := w.extractLsb' 0 9

/-- Why a word is illegal (R104, R105). Every one of these answers `ERR_ILLEGAL`. -/
inductive Illegal where
  /-- `op` is `0x0` or `0xC` to `0xF` (R104). -/
  | reservedOpcode
  /-- `rsv != 0` (R105). -/
  | reservedBits
  /-- The command takes no operand and `opd != 0` (R105). -/
  | strayOperand
  /-- The command takes a symbol and `opd[8] = 1` (R105). -/
  | symbolRange
  /-- The command is `QNODE` and `opd = 511` (R105). -/
  | nodeRange
deriving DecidableEq, Repr

/-- What a word is: a command, or illegal for a named reason. -/
inductive Decoded where
  | instr   (i : Instr)
  | illegal (why : Illegal)
deriving DecidableEq, Repr

/-- The command of a decoded word, if it is one. -/
def Decoded.toOption : Decoded → Option Instr
  | .instr i => some i
  | .illegal _ => none

/-- The operand check of a command without operand: `opd` must be 0 (R93, R105). -/
def noOperand (opd : BitVec 9) (i : Instr) : Decoded :=
  if opd = 0#9 then .instr i else .illegal .strayOperand

/-- The operand check of a symbol command: `s = opd[7:0]` and `opd[8]` must be 0 (R93, R105). -/
def symbolOperand (opd : BitVec 9) (mk : Symbol → Instr) : Decoded :=
  if opd.extractLsb' 8 1 = 0#1 then .instr (mk (opd.extractLsb' 0 8)) else .illegal .symbolRange

/-- The operand check of `QNODE`: `i = opd[8:0]`, at most 510 (R93, R105). -/
def nodeOperand (opd : BitVec 9) (mk : NodeId → Instr) : Decoded :=
  if opd = 511#9 then .illegal .nodeRange else .instr (mk opd)

/-- What a defined opcode asks of its operand; `none` for the reserved opcodes (R92, R104). -/
def decodeOp (op : BitVec 4) (opd : BitVec 9) : Option Decoded :=
  match op.toNat with
  | 0x1 => some (noOperand opd .clr)
  | 0x2 => some (symbolOperand opd .cnt)
  | 0x3 => some (noOperand opd .build)
  | 0x4 => some (noOperand opd .assign)
  | 0x5 => some (noOperand opd .estart)
  | 0x6 => some (symbolOperand opd .enc)
  | 0x7 => some (noOperand opd .elen)
  | 0x8 => some (symbolOperand opd .qfreq)
  | 0x9 => some (nodeOperand opd .qnode)
  | 0xA => some (symbolOperand opd .qcode)
  | 0xB => some (noOperand opd .qstat)
  | _   => none

/-- The decoder, with its checks in the order of 60_exceptions.md R263: opcode, then `rsv`, then the operand. -/
def decodeWord (w : CmdWord) : Decoded :=
  match decodeOp (fieldOp w) (fieldOpd w) with
  | none => .illegal .reservedOpcode
  | some d => if fieldRsv w = 0#3 then d else .illegal .reservedBits

/-- The opcode numbers of 30_encoding.md R92. -/
def opcodeOf : Instr → BitVec 4
  | .clr     => 0x1#4
  | .cnt _   => 0x2#4
  | .build   => 0x3#4
  | .assign  => 0x4#4
  | .estart  => 0x5#4
  | .enc _   => 0x6#4
  | .elen    => 0x7#4
  | .qfreq _ => 0x8#4
  | .qnode _ => 0x9#4
  | .qcode _ => 0xA#4
  | .qstat   => 0xB#4

/-- The operand field of a command: a symbol zero-extended, a node id as it is, 0 where there is none (R93). -/
def operandOf : Instr → BitVec 9
  | .cnt s | .enc s | .qfreq s | .qcode s => s.zeroExtend 9
  | .qnode i => i
  | .clr | .build | .assign | .estart | .elen | .qstat => 0#9

/-- The word of a command: `op` in 15:12, `rsv` = 0 in 11:9, `opd` in 8:0 (R91). -/
def encode (i : Instr) : CmdWord := opcodeOf i ++ 0#3 ++ operandOf i

/-- The mnemonics of R92, as spec/opcode_table.json spells them. -/
def Instr.mnemonic : Instr → String
  | .clr     => "CLR"
  | .cnt _   => "CNT"
  | .build   => "BUILD"
  | .assign  => "ASSIGN"
  | .estart  => "ESTART"
  | .enc _   => "ENC"
  | .elen    => "ELEN"
  | .qfreq _ => "QFREQ"
  | .qnode _ => "QNODE"
  | .qcode _ => "QCODE"
  | .qstat   => "QSTAT"

/-- One row of spec/opcode_table.json: a word is the row's when `(word & mask) = match`, and for `QNODE` the word
is not `0x91FF` (R91). -/
structure OpcodeRow where
  mnemonic : String
  pattern  : CmdWord
  mask     : CmdWord
  excluded : Option CmdWord
deriving DecidableEq, Repr

/-- The eleven rows of spec/opcode_table.json, in its order. -/
def opcodeTable : List OpcodeRow :=
  [ ⟨"CLR",    0x1000#16, 0xFFFF#16, none⟩,
    ⟨"CNT",    0x2000#16, 0xFF00#16, none⟩,
    ⟨"BUILD",  0x3000#16, 0xFFFF#16, none⟩,
    ⟨"ASSIGN", 0x4000#16, 0xFFFF#16, none⟩,
    ⟨"ESTART", 0x5000#16, 0xFFFF#16, none⟩,
    ⟨"ENC",    0x6000#16, 0xFF00#16, none⟩,
    ⟨"ELEN",   0x7000#16, 0xFFFF#16, none⟩,
    ⟨"QFREQ",  0x8000#16, 0xFF00#16, none⟩,
    ⟨"QNODE",  0x9000#16, 0xFE00#16, some 0x91FF#16⟩,
    ⟨"QCODE",  0xA000#16, 0xFF00#16, none⟩,
    ⟨"QSTAT",  0xB000#16, 0xFFFF#16, none⟩ ]

/-- Does the word belong to the row (R91)? -/
def OpcodeRow.covers (r : OpcodeRow) (w : CmdWord) : Bool :=
  (w &&& r.mask) == r.pattern && r.excluded != some w

/-- The instruction the decoder reads from a word numbered as spec/opcode_table.json numbers it: one 16-bit
command word, bit 0 least significant (R12, R91). There is no second word, so bits from 16 up must be 0. -/
def decodeTableWord (nbits w : Nat) : Option Instr :=
  if w < 2 ^ min nbits 16 then (decodeWord (BitVec.ofNat 16 w)).toOption else none

/-- The expansion of the pseudo-commands (30_encoding.md R109). -/
def Pseudo.expand : Pseudo → List Instr
  | .cnts bytes => bytes.map .cnt
  | .encs bytes => .estart :: bytes.map .enc ++ [.elen]
  | .make       => [.build, .assign]

end Sys2Proof
end

