-- ==== Sys2Proof/Config.lean ====
section
/-! DEFINITION. The three parameters the spec leaves OPEN, their defaults and legal ranges, and the widths
derived from them (00_scope.md R7 to R11). There is no free value: nothing after reset is undefined. -/

namespace Sys2Proof

/-- The implementation parameters `FREQ_W`, `MAX_CODE_LEN`, `BITLEN_W` (00_scope.md R8, R9, R10). -/
structure Config where
  freqW      : Nat
  maxCodeLen : Nat
  bitlenW    : Nat
deriving DecidableEq, Repr

/-- The spec's defaults: 32, 64, 32 (00_scope.md R8, R9, R10). -/
def Config.default : Config where
  freqW := 32
  maxCodeLen := 64
  bitlenW := 32

/-- The legal ranges: `FREQ_W >= 1`, `MAX_CODE_LEN >= 1`, `1 <= BITLEN_W <= 32` (R8, R9, R10). -/
abbrev Config.Legal (c : Config) : Prop :=
  1 ≤ c.freqW ∧ 1 ≤ c.maxCodeLen ∧ 1 ≤ c.bitlenW ∧ c.bitlenW ≤ 32

/-- `WEIGHT_W = FREQ_W + 8` (R8). -/
def Config.weightW (c : Config) : Nat := c.freqW + 8

/-- `LEN_W = ceil(log2(MAX_CODE_LEN + 1))` (R9). -/
def Config.lenW (c : Config) : Nat := Nat.clog 2 (c.maxCodeLen + 1)

/-- `VAL_W = max(32, WEIGHT_W, MAX_CODE_LEN, BITLEN_W)` (R11). -/
def Config.valW (c : Config) : Nat := max 32 (max c.weightW (max c.maxCodeLen c.bitlenW))

/-- The largest value of a frequency counter, `2^FREQ_W - 1` (R8). -/
def Config.maxCount (c : Config) : Nat := 2 ^ c.freqW - 1

/-- The largest value of the bit-length counter, `2^BITLEN_W - 1` (R10). -/
def Config.maxBitlen (c : Config) : Nat := 2 ^ c.bitlenW - 1

end Sys2Proof
end

