-- ==== Sys2Proof/Machine/State.lean ====
section
/-! DEFINITION. The state: the twelve architectural elements of 10_state.md R20, the parameters, and the two ports'
queues; its value after reset; the (empty) type of faults and the type of refusals. -/

namespace Sys2Proof.Machine

/-- `PHASE`, the 2-bit sequencing register (10_state.md R21). All four encodings are used. -/
inductive Phase where
  | count
  | tree
  | ready
  | fault
deriving DecidableEq, Repr

/-- `FCODE`, the fatal fault recorded (10_state.md R37). Its values 3..7 are "reserved, never written" and have no
constructor. -/
inductive FCode where
  | none
  | codeOverflow
  | countOverflow
deriving DecidableEq, Repr

/-- One slot of the node arena (10_state.md R25). `weight` is a natural number below `2^WEIGHT_W`. -/
structure Node where
  valid  : Bool
  leaf   : Bool
  sym    : Symbol
  weight : Nat
  left   : NodeId
  right  : NodeId
deriving DecidableEq, Repr

/-- "A slot with `valid = 0` has every field 0" (10_state.md R25). -/
def Node.invalid : Node where
  valid := false
  leaf := false
  sym := 0
  weight := 0
  left := 0
  right := 0

/-- One entry of the code table (10_state.md R31). `len` is at most `MAX_CODE_LEN`, `val` below `2^len`. -/
structure CodeEntry where
  len : Nat
  val : Nat
deriving DecidableEq, Repr

/-- The entry of a symbol with no code (10_state.md R32). -/
def CodeEntry.zero : CodeEntry where
  len := 0
  val := 0

/-- The frequency table `FREQ[0..255]` (10_state.md R23). -/
abbrev FreqTable := Vector Nat 256

/-- The node arena `NODE[0..510]` (10_state.md R25). -/
abbrev Arena := Vector Node 511

/-- The code table `CODE[0..255]` (10_state.md R31). -/
abbrev CodeTable := Vector CodeEntry 256

/-- The status codes `st` of 30_encoding.md R101. The values `0x8..0xF` are "never produced" and have no
constructor. -/
inductive Status where
  | ok
  | empty
  | errUnknownSymbol
  | errCodeOverflow
  | errCountOverflow
  | errLenOverflow
  | errPhase
  | errIllegal
deriving DecidableEq, Repr

/-- A response: `st`, `val` (a natural number below `2^VAL_W`) and the 32-bit `aux` (30_encoding.md R100). -/
structure Response where
  st  : Status
  val : Nat
  aux : Aux
deriving DecidableEq, Repr

/-- What the host does at the ports: it offers a command word, any 16-bit value (30_encoding.md R96), or it asserts
`rst` (70_reset_and_hazards.md R300). -/
inductive HostEvent where
  | command (w : CmdWord)
  | reset
deriving DecidableEq, Repr

/-- The state. The first twelve fields are the architectural state of 10_state.md R20. `config` holds the open
parameters; `inbox` and `outbox` are the ports as sequences: what the host has offered and the core has not yet
taken, and the responses given so far, oldest first (DESIGN CHOICE, log entries 1 and 2). -/
structure State where
  phase   : Phase
  freq    : FreqTable
  node    : Arena
  root    : NodeId
  nsym    : BitVec 9
  empty   : Bool
  code    : CodeTable
  bitlen  : Nat
  ostream : List Bool
  unk     : Bool
  lovf    : Bool
  fcode   : FCode
  config  : Config
  inbox   : List HostEvent
  outbox  : List Response
deriving DecidableEq, Repr

/-- After reset "every element of state is zero" (10_state.md R42, 70_reset_and_hazards.md R300), the parameters are
the spec's defaults and nothing stands at the ports. -/
def State.reset : State where
  phase := .count
  freq := Vector.replicate 256 0
  node := Vector.replicate 511 Node.invalid
  root := 0
  nsym := 0
  empty := false
  code := Vector.replicate 256 CodeEntry.zero
  bitlen := 0
  ostream := []
  unk := false
  lovf := false
  fcode := .none
  config := Config.default
  inbox := []
  outbox := []

/-- No step ends in a fault: "for every state and every 16-bit command word exactly one response and exactly one next
state are defined" (00_scope.md R14). The block's own fatal faults are states (`PHASE = FAULT`), not stops. The type
has no constructor, so no meaning can raise one (safe). -/
inductive Fault where
deriving DecidableEq, Repr

/-- The one reason to refuse. -/
inductive Refusal where
  /-- Raised by `exec` alone, for an instruction that has no meaning yet; safe (the machine stops). No arm raises it:
  all eleven commands are modelled. -/
  | notModelled (mnemonic : String)
deriving DecidableEq, Repr

end Sys2Proof.Machine
end

