-- ==== Sys2Proof/Machine/Operands.lean ====
section
/-! DEFINITION. The operand forms: direct indexing of the three arrays by a symbol or a node id, whole entries only
(20_memory.md R61, R65, R86). -/

namespace Sys2Proof.Machine

/-- `x[s]` for a 256-entry array; a symbol is always in range (20_memory.md R61, R86). -/
def readSym {α : Type} (t : Vector α 256) (s : Symbol) : α := t[s.toNat]'s.isLt

/-- `x[s] <- v` for a 256-entry array (00_scope.md R13). -/
def writeSym {α : Type} (t : Vector α 256) (s : Symbol) (v : α) : Vector α 256 := t.set s.toNat v s.isLt

/-- `NODE[i]`. Id 511 "names nothing" (10_state.md R27): read as an invalid slot (log 9). -/
def Arena.read (a : Arena) (i : NodeId) : Node := if h : i.toNat < 511 then a[i.toNat] else Node.invalid

/-- `NODE[i] <- n`; id 511 names no slot and nothing is written (log 9). -/
def Arena.write (a : Arena) (i : NodeId) (n : Node) : Arena := if h : i.toNat < 511 then a.set i.toNat n else a

/-- `FREQ[s]` (10_state.md R23). -/
def State.freqAt (st : State) (s : Symbol) : Nat := readSym st.freq s

/-- `CODE[s]` (10_state.md R31). -/
def State.codeAt (st : State) (s : Symbol) : CodeEntry := readSym st.code s

/-- `NODE[i]` (10_state.md R25). -/
def State.nodeAt (st : State) (i : NodeId) : Node := Arena.read st.node i

/-- The slot of a symbol's leaf: "Slot `s` for `s` in 0..255 is reserved for the leaf of symbol `s`" (10_state.md
R27). -/
def leafId (s : Symbol) : NodeId := s.zeroExtend 9

/-- The slot of the k-th internal node: "the k-th internal node created (k = 0, 1, ...) is `NODE[256 + k]`"
(10_state.md R27). -/
def innerId (k : Nat) : NodeId := BitVec.ofNat 9 (256 + k)

/-- All symbols, "for s in 0..255 ascending" (00_scope.md R13). -/
def allSymbols : List Symbol := (List.range 256).map (BitVec.ofNat 8)

/-- The arena with every slot invalid (10_state.md R25). -/
def Arena.cleared : Arena := Vector.replicate 511 Node.invalid

/-- The code table with every entry `{len 0, val 0}` (10_state.md R31). -/
def CodeTable.cleared : CodeTable := Vector.replicate 256 CodeEntry.zero

/-- The frequency table with every entry 0 (10_state.md R23). -/
def FreqTable.cleared : FreqTable := Vector.replicate 256 0

end Sys2Proof.Machine
end

