-- ==== Sys2Proof/Machine/Flags.lean ====
section
/-! DEFINITION. The encodings of the control and status fields (PHASE, FCODE, `st`), the status word, the node word,
and the status `ELEN` forms from the flags. There are no arithmetic condition codes (10_state.md R41). -/

namespace Sys2Proof.Machine

/-- The encoding of `PHASE` (10_state.md R21). -/
def Phase.bits : Phase → BitVec 2
  | .count => 0#2
  | .tree  => 1#2
  | .ready => 2#2
  | .fault => 3#2

/-- The encoding of `FCODE` (10_state.md R37). -/
def FCode.bits : FCode → BitVec 3
  | .none          => 0#3
  | .codeOverflow  => 1#3
  | .countOverflow => 2#3

/-- The encoding of `st` (30_encoding.md R101). -/
def Status.bits : Status → BitVec 4
  | .ok               => 0x0#4
  | .empty            => 0x1#4
  | .errUnknownSymbol => 0x2#4
  | .errCodeOverflow  => 0x3#4
  | .errCountOverflow => 0x4#4
  | .errLenOverflow   => 0x5#4
  | .errPhase         => 0x6#4
  | .errIllegal       => 0x7#4

/-- A flag as one bit. -/
def flagBit (b : Bool) : BitVec 1 := BitVec.ofBool b

/-- `STATUS = {0b000000, ROOT, NSYM, FCODE, LOVF, UNK, EMPTY, PHASE}` (10_state.md R39, 44_control_status.md R241). -/
def State.statusWord (s : State) : Aux :=
  0#6 ++ s.root ++ s.nsym ++ s.fcode.bits ++ flagBit s.lovf ++ flagBit s.unk ++ flagBit s.empty ++ s.phase.bits

/-- The node word `{0b0000, valid, leaf, sym, right, left}` (30_encoding.md R103, 41_tree_builder.md R163). -/
def Node.word (n : Node) : Aux := 0#4 ++ flagBit n.valid ++ flagBit n.leaf ++ n.sym ++ n.right ++ n.left

/-- The status of `ELEN`: `UNK` before `LOVF` (43_encoder.md R216). -/
def State.elenStatus (s : State) : Status :=
  if s.unk then .errUnknownSymbol else if s.lovf then .errLenOverflow else .ok

/-- `BYTELEN = ceil(BITLEN / 8) = floor((BITLEN + 7) / 8)` (20_memory.md R85). -/
def byteLen (bits : Nat) : Nat := (bits + 7) / 8

end Sys2Proof.Machine
end

