-- ==== Sys2Proof/Machine/Ops.lean ====
section
/-! DEFINITION. The operations the meanings share: answering, refusing, the phase table, entering and leaving the
fatal-fault state, the bits of a code, packing bits into bytes, and taking the host's next event. -/

namespace Sys2Proof.Machine

/-- What a step answers. -/
abbrev Result := Host.Outcome State Fault Refusal

/-- `respond(st, val, aux)`: one response goes out (00_scope.md R13, 30_encoding.md R100). -/
def State.respond (s : State) (st : Status) (val : Nat) (aux : Aux) : State :=
  { s with outbox := s.outbox ++ [⟨st, val, aux⟩] }

/-- `raise E`: the response is `(E, 0, 0)` (00_scope.md R13). -/
def State.raise (s : State) (st : Status) : State := s.respond st 0 0

/-- Which command is executed in which phase (44_control_status.md R243). -/
def legalIn : Instr → Phase → Bool
  | .clr,     _ => true
  | .cnt _,   p => p == .count
  | .build,   p => p == .count
  | .assign,  p => p == .tree
  | .estart,  p => p == .ready
  | .enc _,   p => p == .ready
  | .elen,    p => p == .ready
  | .qfreq _, _ => true
  | .qnode _, p => p == .tree
  | .qcode _, p => p == .ready
  | .qstat,   _ => true

/-- The phase check made before a command's own work: in a phase that is not legal the answer is `(ERR_PHASE, 0, 0)`
and no state changes (44_control_status.md R243, 60_exceptions.md R263). -/
def gated (i : Instr) (s t : State) : Result :=
  if legalIn i s.phase then .next t else .next (s.raise .errPhase)

/-- Entering a fatal fault: `FCODE` and `PHASE <- FAULT`, nothing else; "It saves nothing and transfers control
nowhere; it records and stops" (60_exceptions.md R264). -/
def State.enterFault (s : State) (c : FCode) : State := { s with fcode := c, phase := .fault }

/-- Leaving a fatal fault, and starting a new run from anywhere: every element of state takes its reset value
(60_exceptions.md R265, 44_control_status.md R240, 10_state.md R42). -/
def State.clear (s : State) : State :=
  { s with
    phase := .count
    freq := FreqTable.cleared
    node := Arena.cleared
    root := 0
    nsym := 0
    empty := false
    code := CodeTable.cleared
    bitlen := 0
    ostream := []
    unk := false
    lovf := false
    fcode := .none }

/-- The low `n` bits of `v`, most significant first: `v[n-1], ..., v[0]` (43_encoder.md R215). -/
def msbFirst : Nat → Nat → List Bool
  | 0, _ => []
  | n + 1, v => v.testBit n :: msbFirst n v

/-- The code of an entry as a bit string in emission order (10_state.md R31). -/
def CodeEntry.bits (e : CodeEntry) : List Bool := msbFirst e.len e.val

/-- `pack` from the `k`-th bit of a byte on, `acc` holding the bits before it. -/
def packFrom : Nat → Byte → List Bool → List Byte
  | k, acc, [] => if k = 0 then [] else [acc]
  | k, acc, b :: bs =>
    let acc' := if b then acc ||| (0x80#8 >>> k) else acc
    if k = 7 then acc' :: packFrom 0 0#8 bs else packFrom (k + 1) acc' bs

/-- `pack(q)`: bit `q[i]` is bit `7 - (i mod 8)` of byte `floor(i/8)`, unused low bits 0 (20_memory.md R64). -/
def pack (q : List Bool) : List Byte := packFrom 0 0#8 q

/-- An illegal word: `(ERR_ILLEGAL, 0, 0)` and no state change (30_encoding.md R104, R105). -/
def State.refuseIllegal (s : State) : State := s.raise .errIllegal

/-- Reset as an event between commands: the reset state of every element, and no response; the parameters and the
responses already delivered are not the reset's to change (70_reset_and_hazards.md R300, R301). -/
def State.takeReset (s : State) : State := s.clear

/-- The event leaves the inbox when the core takes it (30_encoding.md R95). -/
def State.pop (s : State) : State := { s with inbox := s.inbox.tail }

end Sys2Proof.Machine
end

