-- ==== Sys2Proof/Machine/CodeAssigner.lean ====
section
/-! DEFINITION. Code Assigner: the traversal, `ASSIGN`, `QCODE` (42_code_assigner.md). -/

namespace Sys2Proof.Machine

/-- What the traversal records at a leaf: the symbol, and the accumulated value and length (42_code_assigner.md
R180). -/
structure LeafCode where
  sym : Symbol
  val : Nat
  len : Nat
deriving DecidableEq, Repr

/-- `walk(i, v, l)` of 42_code_assigner.md R181, left before right, as structural recursion on a depth bound (R183): a
left edge maps `(v, l)` to `(2*v, l+1)`, a right edge to `(2*v+1, l+1)` (20_memory.md R83). Below an invalid slot there
is no leaf; no tree has one (log 7). -/
def walk : Nat → Arena → NodeId → Nat → Nat → List LeafCode
  | 0, _, _, _, _ => []
  | fuel + 1, arena, i, v, l =>
    let n := arena.read i
    if !n.valid then []
    else if n.leaf then [⟨n.sym, v, l⟩]
    else walk fuel arena n.left (2 * v) (l + 1) ++ walk fuel arena n.right (2 * v + 1) (l + 1)

/-- The bound of the traversal: a path in a tree over 511 slots has at most 511 nodes (10_state.md R25, R26). -/
def walkDepth : Nat := 511

/-- The records of a whole traversal, `walk(ROOT, 0, 0)`; a root that is a leaf gets value 0 and length 1
(42_code_assigner.md R181, R182). -/
def leafCodes (arena : Arena) (root : NodeId) : List LeafCode :=
  if (arena.read root).leaf then [⟨(arena.read root).sym, 0, 1⟩] else walk walkDepth arena root 0 0

/-- `maxdepth` of R181: 0 in the single-symbol arm, else the greatest length recorded. -/
def maxDepth (arena : Arena) (root : NodeId) : Nat :=
  if (arena.read root).leaf then 0 else (leafCodes arena root).foldl (fun m c => max m c.len) 0

/-- The table `T` of R181 as a code table: `CODE[s] <- {len T[s].length, val T[s].value}`. -/
def tableOf (codes : List LeafCode) : CodeTable :=
  codes.foldl (fun t c => writeSym t c.sym ⟨c.len, c.val⟩) CodeTable.cleared

/-- Discarding the tree: every `NODE[i]` invalid and `ROOT = 0` (42_code_assigner.md R191). -/
def State.discardTree (st : State) : State := { st with node := Arena.cleared, root := 0 }

/-- The work of `ASSIGN` (42_code_assigner.md R181; overflow R185). In the `EMPTY` arm only `PHASE` is written. -/
def State.assign (st : State) : State :=
  if st.empty then { st with phase := .ready }.respond .empty 0 0
  else if st.config.maxCodeLen < maxDepth st.node st.root then
    (({ st.discardTree with code := CodeTable.cleared }).enterFault .codeOverflow).raise .errCodeOverflow
  else
    { st.discardTree with code := tableOf (leafCodes st.node st.root), phase := .ready }.respond .ok 0 0

/-- `ASSIGN` (42_code_assigner.md R181). -/
def execAssign (st : State) : Result := gated .assign st st.assign

/-- `QCODE s` (42_code_assigner.md R190). -/
def execQcode (s : Symbol) (st : State) : Result :=
  gated (.qcode s) st (st.respond .ok (st.codeAt s).val (BitVec.ofNat 32 (st.codeAt s).len))

end Sys2Proof.Machine
end

