-- ==== Sys2Proof/Machine/Control.lean ====
section
/-! DEFINITION. Control and status: `CLR`, `QSTAT` (44_control_status.md). -/

namespace Sys2Proof.Machine

/-- `CLR` (44_control_status.md R240). -/
def execClr (st : State) : Result := gated .clr st (st.clear.respond .ok 0 0)

/-- `QSTAT` (44_control_status.md R241). -/
def execQstat (st : State) : Result := gated .qstat st (st.respond .ok 0 st.statusWord)

end Sys2Proof.Machine
end

