-- ==== Sys2Proof/Machine/Encoder.lean ====
section
/-! DEFINITION. Encoder: `ESTART`, `ENC`, `ELEN` (43_encoder.md). -/

namespace Sys2Proof.Machine

/-- The work of `ESTART`: `BITLEN <- 0 ; OSTREAM <- empty ; UNK <- 0 ; LOVF <- 0` (43_encoder.md R211). -/
def State.startString (st : State) : State :=
  { st with bitlen := 0, ostream := [], unk := false, lovf := false }.respond .ok 0 0

/-- A code goes out: its bits are appended to `OSTREAM`, its length added to `BITLEN` (43_encoder.md R212, R215;
20_memory.md R84). -/
def State.emit (st : State) (e : CodeEntry) : State :=
  { st with ostream := st.ostream ++ e.bits, bitlen := st.bitlen + e.len }

/-- The work of `ENC s`: UnknownSymbol is tested before LenOverflow, each sets its flag and appends nothing
(43_encoder.md R212, R213, R214). -/
def State.encodeByte (st : State) (s : Symbol) : State :=
  let e := st.codeAt s
  if e.len = 0 then { st with unk := true }.raise .errUnknownSymbol
  else if st.config.maxBitlen < st.bitlen + e.len then { st with lovf := true }.raise .errLenOverflow
  else (st.emit e).respond .ok e.val (BitVec.ofNat 32 e.len)

/-- `ESTART` (43_encoder.md R211). -/
def execEstart (st : State) : Result := gated .estart st st.startString

/-- `ENC s` (43_encoder.md R212). -/
def execEnc (s : Symbol) (st : State) : Result := gated (.enc s) st (st.encodeByte s)

/-- `ELEN` (43_encoder.md R216). -/
def execElen (st : State) : Result :=
  gated .elen st (st.respond st.elenStatus st.bitlen (BitVec.ofNat 32 (byteLen st.bitlen)))

end Sys2Proof.Machine
end

