-- ==== Sys2Proof/Machine/FrequencyCounter.lean ====
section
/-! DEFINITION. Frequency Counter: `CNT`, `QFREQ` (40_frequency_counter.md). -/

namespace Sys2Proof.Machine

/-- `FREQ[s] <- v`. -/
def State.setFreq (st : State) (s : Symbol) (v : Nat) : State := { st with freq := writeSym st.freq s v }

/-- The work of `CNT s`: at `2^FREQ_W - 1` nothing is stored and CountOverflow is raised, else the counter goes up by
one (40_frequency_counter.md R131, R132; 20_memory.md R80). -/
def State.countByte (st : State) (s : Symbol) : State :=
  if st.freqAt s = st.config.maxCount then
    (st.enterFault .countOverflow).raise .errCountOverflow
  else
    (st.setFreq s (st.freqAt s + 1)).respond .ok 0 0

/-- `CNT s` (40_frequency_counter.md R131). -/
def execCnt (s : Symbol) (st : State) : Result := gated (.cnt s) st (st.countByte s)

/-- `QFREQ s` (40_frequency_counter.md R134). -/
def execQfreq (s : Symbol) (st : State) : Result := gated (.qfreq s) st (st.respond .ok (st.freqAt s) 0)

end Sys2Proof.Machine
end

