-- ==== Sys2Proof/Machine/TreeBuilder.lean ====
section
/-! DEFINITION. Tree Builder: the priority queue, `BUILD`, `QNODE` (41_tree_builder.md). -/

namespace Sys2Proof.Machine

/-- An entry of the priority queue: the key `(NODE[i].weight, i)` of a node id `i` (41_tree_builder.md R151, R154). A
node's weight does not change while it is queued, so the key is carried (log 8). The queue is local to one `BUILD`
(10_state.md R38). -/
structure QEntry where
  weight : Nat
  id     : NodeId
deriving DecidableEq, Repr

/-- The order of the queue: lower weight first, at equal weight lower id first (41_tree_builder.md R154, 20_memory.md
R82). -/
def QEntry.before (a b : QEntry) : Bool := a.weight < b.weight || (a.weight == b.weight && a.id < b.id)

/-- One extraction: the least entry, and the queue without it (41_tree_builder.md R155). -/
def extractMin : List QEntry → Option (QEntry × List QEntry)
  | [] => none
  | e :: rest =>
    match extractMin rest with
    | none => some (e, [])
    | some (m, others) => if e.before m then some (e, rest) else some (m, e :: others)

/-- The symbols of nonzero frequency, ascending: one scan of `FREQ` from index 0 (41_tree_builder.md R152, R153). -/
def present (freq : FreqTable) : List Symbol :=
  (freq.toList.zipIdx.filter fun p => p.1 != 0).map fun p => BitVec.ofNat 8 p.2

/-- The leaf of a symbol: `{valid 1, leaf 1, sym s, weight FREQ[s], left 0, right 0}` (41_tree_builder.md R151). -/
def leafNode (freq : FreqTable) (s : Symbol) : Node where
  valid := true
  leaf := true
  sym := s
  weight := readSym freq s
  left := 0
  right := 0

/-- The internal node over two extracted entries, first extracted on the left (41_tree_builder.md R151, R156;
20_memory.md R81). -/
def innerNode (a b : QEntry) : Node where
  valid := true
  leaf := false
  sym := 0
  weight := a.weight + b.weight
  left := a.id
  right := b.id

/-- The arena after the leaf loop of R151: one leaf per symbol of nonzero frequency, every other slot invalid. -/
def leafArena (freq : FreqTable) : Arena :=
  (present freq).foldl (fun a s => a.write (leafId s) (leafNode freq s)) Arena.cleared

/-- The queue after the leaf loop of R151. -/
def leafQueue (freq : FreqTable) : List QEntry := (present freq).map fun s => ⟨readSym freq s, leafId s⟩

/-- The merge loop of R151, `while len(PQ) > 1`, from internal node number `k` on. The first argument bounds the rounds;
each round shortens the queue by one, so the queue's length is bound enough (R157). -/
def mergeRounds : Nat → Nat → Arena → List QEntry → Arena × List QEntry
  | 0, _, arena, queue => (arena, queue)
  | fuel + 1, k, arena, queue =>
    match extractMin queue with
    | none => (arena, queue)
    | some (a, queue₁) =>
      match extractMin queue₁ with
      | none => (arena, queue)
      | some (b, queue₂) =>
        mergeRounds fuel (k + 1) (arena.write (innerId k) (innerNode a b))
          (queue₂ ++ [⟨a.weight + b.weight, innerId k⟩])

/-- What `BUILD` leaves in `NODE`, `ROOT`, `NSYM`, `EMPTY`. -/
structure Tree where
  node  : Arena
  root  : NodeId
  nsym  : BitVec 9
  empty : Bool
deriving DecidableEq, Repr

/-- The one id left in the queue (41_tree_builder.md R151). -/
def lastId : List QEntry → NodeId
  | [] => 0
  | e :: _ => e.id

/-- The tree of a frequency table, a function of `FREQ` alone (41_tree_builder.md R151, R161). -/
def buildTree (freq : FreqTable) : Tree :=
  match present freq with
  | [] => { node := Arena.cleared, root := 0, nsym := 0, empty := true }
  | symbols =>
    let merged := mergeRounds symbols.length 0 (leafArena freq) (leafQueue freq)
    { node := merged.1, root := lastId merged.2, nsym := BitVec.ofNat 9 symbols.length, empty := false }

/-- A built tree goes into the state and `PHASE <- TREE` (41_tree_builder.md R151). -/
def State.setTree (st : State) (t : Tree) : State :=
  { st with node := t.node, root := t.root, nsym := t.nsym, empty := t.empty, phase := .tree }

/-- The work of `BUILD`: `(EMPTY, 0, 0)` when no symbol has nonzero frequency, else `(OK, 0, 0)` (41_tree_builder.md
R151, R158). -/
def State.build (st : State) : State :=
  let t := buildTree st.freq
  (st.setTree t).respond (if t.empty then .empty else .ok) 0 0

/-- `BUILD` (41_tree_builder.md R151). -/
def execBuild (st : State) : Result := gated .build st st.build

/-- `QNODE i` (41_tree_builder.md R163). Node id 511 has no legal word: it is answered as the illegal word it would be
(30_encoding.md R105, log 9). -/
def execQnode (i : NodeId) (st : State) : Result :=
  if i = 511#9 then .next st.refuseIllegal
  else gated (.qnode i) st (st.respond .ok (st.nodeAt i).weight (st.nodeAt i).word)

end Sys2Proof.Machine
end

