-- ==== Sys2Proof/Machine/Dispatch.lean ====
section
/-! DEFINITION. One arm per command. -/

namespace Sys2Proof.Machine

def exec (i : Instr) (s : State) : Host.Outcome State Fault Refusal :=
  match i with
  | .clr => Sys2Proof.Machine.execClr s
  | .cnt x => Sys2Proof.Machine.execCnt x s
  | .build => Sys2Proof.Machine.execBuild s
  | .assign => Sys2Proof.Machine.execAssign s
  | .estart => Sys2Proof.Machine.execEstart s
  | .enc x => Sys2Proof.Machine.execEnc x s
  | .elen => Sys2Proof.Machine.execElen s
  | .qfreq x => Sys2Proof.Machine.execQfreq x s
  | .qnode n => Sys2Proof.Machine.execQnode n s
  | .qcode x => Sys2Proof.Machine.execQcode x s
  | .qstat => Sys2Proof.Machine.execQstat s

end Sys2Proof.Machine
end

