-- ==== Sys2Proof/Machine/Accept.lean ====
section
/-! DEFINITION. Accepting one command word: decode, then execute or refuse (60_exceptions.md R263). -/

namespace Sys2Proof.Machine

/-- What an accepted command word does: legality of the word first, then the command with its phase check and its own
conditions (60_exceptions.md R263). -/
def acceptWord (w : CmdWord) (s : State) : Result :=
  match decodeWord w with
  | .instr i => exec i s
  | .illegal _ => .next s.refuseIllegal

end Sys2Proof.Machine
end

