-- ==== Sys2Proof/Machine/Step.lean ====
section
/-! DEFINITION. One step: the core takes the host's next event. -/

namespace Sys2Proof.Machine

/-- One step. With nothing offered the core waits and no state changes (10_state.md R22). A reset yields the reset
state (70_reset_and_hazards.md R300, R301). A command word is accepted and answered (60_exceptions.md R263). -/
def step (s : State) : Host.Outcome State Fault Refusal :=
  match s.inbox with
  | [] => .next s
  | .reset :: _ => .next s.pop.takeReset
  | .command w :: _ => acceptWord w s.pop

/-- The state with that command word offered first, so that the very next step takes it. A command is one 16-bit word
(30_encoding.md R91), so the bits from 16 up are not part of it. -/
def State.withFetchWord (s : State) (_nbits w : Nat) : State :=
  { s with inbox := .command (BitVec.ofNat 16 w) :: s.inbox }

end Sys2Proof.Machine
end

