-- ==== Sys2Proof/Machine/Port.lean ====
section
/-! DEFINITION. The block at its pins, one rising edge of `clk` at a time: the valid/ready handshakes of the two ports and
reset during a command (30_encoding.md R95, R96; 70_reset_and_hazards.md R300, R301). `step` is the same block with the
handshakes left out, as R95 allows; this layer says what they do. -/

namespace Sys2Proof.Machine

/-- What the block's port is doing: ready for a command; working on an accepted one; offering its response. At most one
command is in flight (30_encoding.md R95). -/
inductive Port where
  | idle
  | working  (r : Response)
  | offering (r : Response)
deriving DecidableEq, Repr

/-- The block: its state, with the responses delivered so far in `outbox`, and its port. `inbox` plays no part here: the
words come in at the pins. -/
structure Block where
  state : State
  port  : Port
deriving DecidableEq, Repr

/-- The inputs at one rising edge (30_encoding.md R95). Two of them are not pins but what the spec leaves open, free at
every edge (log 3). `willing`: the block would take a command at this edge; R95 and R300 say only when `cmd_ready` is 0.
`done`: the work on the command in flight is over when the next cycle begins; the delay is finite and otherwise
unspecified (70_reset_and_hazards.md R317). -/
structure Pins where
  rst      : Bool
  cmdValid : Bool
  cmd      : CmdWord
  rspReady : Bool
  willing  : Bool
  done     : Bool
deriving DecidableEq, Repr

/-- `cmd_ready`: 0 while a command is in flight and while `rst` is 1 (30_encoding.md R95; 70_reset_and_hazards.md R300).
What it is otherwise the spec does not say: the input `willing` (DESIGN CHOICE, log 3). -/
def Block.cmdReady (b : Block) (p : Pins) : Bool := !p.rst && p.willing && b.port == .idle

/-- `rsp_valid` with the response lines; `none` is `rsp_valid = 0` (30_encoding.md R95; 70_reset_and_hazards.md R300). -/
def Block.rspValid (b : Block) (p : Pins) : Option Response :=
  if p.rst then none
  else
    match b.port with
    | .offering r => some r
    | .idle | .working _ => none

/-- The port with a command in flight: its response is offered once the work is over (30_encoding.md R95). -/
def Port.inFlight (done : Bool) (r : Response) : Port := if done then .offering r else .working r

/-- Accepting a command: its state change is made and its response is kept back until it is delivered (20_memory.md R66,
30_encoding.md R95). With `done` the response is offered in the cycle right after; it is never delivered at the accepting
edge itself (DESIGN CHOICE, log 3). -/
def Block.accept (b : Block) (w : CmdWord) (done : Bool) : Block :=
  match acceptWord w b.state with
  | .next t =>
    match t.outbox.getLast? with
    | some r => { state := { t with outbox := b.state.outbox }, port := .inFlight done r }
    | none => b
  | .fault _ | .refused _ => b

/-- Delivering the response (30_encoding.md R95). -/
def Block.deliver (b : Block) (r : Response) : Block :=
  { state := { b.state with outbox := b.state.outbox ++ [r] }, port := .idle }

/-- Reset: the reset state, and a command in flight "produces no response" and leaves "no trace"
(70_reset_and_hazards.md R300, R301). -/
def Block.resetEdge (b : Block) : Block := { state := b.state.takeReset, port := .idle }

/-- One rising edge of `clk` (30_encoding.md R95). The block "holds the response and changes no state while waiting"
(30_encoding.md R96). From acceptance to the first cycle that offers the response there are one cycle or more, as `done`
has it; that there is at least one is the model's choice (DESIGN CHOICE, log 3). -/
def Block.edge (b : Block) (p : Pins) : Block :=
  if p.rst then b.resetEdge
  else
    match b.port with
    | .idle => if p.willing && p.cmdValid then b.accept p.cmd p.done else b
    | .working r => { b with port := .inFlight p.done r }
    | .offering r => if p.rspReady then b.deliver r else b

/-- A run of the block over a sequence of edges. -/
def Block.run (b : Block) (ps : List Pins) : Block := ps.foldl Block.edge b

/-- The command words a sequence of edges makes the block accept, in order (30_encoding.md R95). -/
def Block.accepted : Block → List Pins → List CmdWord
  | _, [] => []
  | b, p :: ps =>
    if b.cmdReady p && p.cmdValid then p.cmd :: (b.edge p).accepted ps else (b.edge p).accepted ps

end Sys2Proof.Machine
end

