-- ==== Sys2Proof/Machine/Text.lean ====
section
/-! DEFINITION. The text form of commands and pseudo-commands, one per line (30_encoding.md R108, R109). Meant for test
benches: the core never sees text. What R108 leaves open (blanks, letter case of hexadecimal digits) is in log 10. -/

namespace Sys2Proof.Machine

/-- A blank between tokens: a space or a tab (log 10). -/
def isBlank (c : Char) : Bool := c == ' ' || c == '\t'

def skipBlanks (cs : List Char) : List Char := cs.dropWhile isBlank

/-- The rest of a line holds no token: it is blank, or a comment from `;` on (30_encoding.md R108). -/
def lineEnds (cs : List Char) : Bool :=
  match skipBlanks cs with
  | [] => true
  | c :: _ => c == ';'

/-- A digit's value, `0-9`, `a-f`, `A-F`. -/
def digitValue (c : Char) : Option Nat :=
  if '0' ≤ c ∧ c ≤ '9' then some (c.toNat - '0'.toNat)
  else if 'a' ≤ c ∧ c ≤ 'f' then some (c.toNat - 'a'.toNat + 10)
  else if 'A' ≤ c ∧ c ≤ 'F' then some (c.toNat - 'A'.toNat + 10)
  else none

/-- The value of a digit in a base, if it is one. -/
def digitIn (base : Nat) (c : Char) : Option Nat := (digitValue c).filter (· < base)

/-- Reads digits of a base after the value `acc`. -/
def readDigits (base : Nat) : Nat → List Char → Nat × List Char
  | acc, [] => (acc, [])
  | acc, c :: cs =>
    match digitIn base c with
    | some d => readDigits base (acc * base + d) cs
    | none => (acc, c :: cs)

/-- A number of one digit or more in a base. -/
def readNumber (base : Nat) : List Char → Option (Nat × List Char)
  | [] => none
  | c :: cs => (digitIn base c).map fun d => readDigits base d cs

/-- "A character literal stands for the byte value of the character in ASCII" (30_encoding.md R108). -/
def asciiValue (c : Char) : Option Nat := if c.toNat < 128 then some c.toNat else none

/-- One operand: a character literal, a hexadecimal number or a decimal number (30_encoding.md R108). -/
def readOperand : List Char → Option (Nat × List Char)
  | '\'' :: c :: '\'' :: rest => (asciiValue c).map fun v => (v, rest)
  | '0' :: 'x' :: rest => readNumber 16 rest
  | cs => readNumber 10 cs

/-- A string literal up to its closing quote, as bytes (30_encoding.md R109). -/
def readBytes : List Char → Option (List Symbol × List Char)
  | [] => none
  | c :: cs =>
    if c == '"' then some ([], cs)
    else do
      let v ← asciiValue c
      let (bs, rest) ← readBytes cs
      pure (BitVec.ofNat 8 v :: bs, rest)

/-- A line that ends here. -/
def finish (is : List Instr) (rest : List Char) : Option (List Instr) := if lineEnds rest then some is else none

/-- What follows the blanks after a mnemonic; at least one blank separates it from an operand (log 10). -/
def operandText : List Char → Option (List Char)
  | [] => none
  | c :: cs => if isBlank c then some (skipBlanks cs) else none

/-- A symbol command's line from its operand on: a symbol is at most 255 (30_encoding.md R93). -/
def symbolLine (mk : Symbol → Instr) (cs : List Char) : Option (List Instr) := do
  let (v, rest) ← readOperand (← operandText cs)
  if v < 256 then finish [mk (BitVec.ofNat 8 v)] rest else none

/-- `QNODE`'s line from its operand on: a node id is at most 510 (30_encoding.md R93). -/
def nodeLine (cs : List Char) : Option (List Instr) := do
  let (v, rest) ← readOperand (← operandText cs)
  if v < 511 then finish [.qnode (BitVec.ofNat 9 v)] rest else none

/-- A string pseudo-command's line from its literal on (30_encoding.md R109). -/
def stringLine (mk : List Symbol → Pseudo) (cs : List Char) : Option (List Instr) :=
  match operandText cs with
  | some ('"' :: cs') => do
    let (bs, rest) ← readBytes cs'
    finish (mk bs).expand rest
  | _ => none

/-- The letters of a mnemonic and what follows them. -/
def readMnemonic (cs : List Char) : List Char × List Char :=
  (cs.takeWhile fun c => 'A' ≤ c ∧ c ≤ 'Z', cs.dropWhile fun c => 'A' ≤ c ∧ c ≤ 'Z')

/-- One line of text: nothing, or one command or pseudo-command (30_encoding.md R108, R109); `none` when it is neither. -/
def assembleLine (line : List Char) : Option (List Instr) :=
  if lineEnds line then some []
  else
    match readMnemonic (skipBlanks line) with
    | (['C', 'L', 'R'], rest) => finish [.clr] rest
    | (['C', 'N', 'T'], rest) => symbolLine .cnt rest
    | (['B', 'U', 'I', 'L', 'D'], rest) => finish [.build] rest
    | (['A', 'S', 'S', 'I', 'G', 'N'], rest) => finish [.assign] rest
    | (['E', 'S', 'T', 'A', 'R', 'T'], rest) => finish [.estart] rest
    | (['E', 'N', 'C'], rest) => symbolLine .enc rest
    | (['E', 'L', 'E', 'N'], rest) => finish [.elen] rest
    | (['Q', 'F', 'R', 'E', 'Q'], rest) => symbolLine .qfreq rest
    | (['Q', 'N', 'O', 'D', 'E'], rest) => nodeLine rest
    | (['Q', 'C', 'O', 'D', 'E'], rest) => symbolLine .qcode rest
    | (['Q', 'S', 'T', 'A', 'T'], rest) => finish [.qstat] rest
    | (['C', 'N', 'T', 'S'], rest) => stringLine .cnts rest
    | (['E', 'N', 'C', 'S'], rest) => stringLine .encs rest
    | (['M', 'A', 'K', 'E'], rest) => finish Pseudo.make.expand rest
    | _ => none

/-- A command in text form, its operand as a decimal number (30_encoding.md R108). -/
def commandText (i : Instr) : List Char :=
  match i with
  | .cnt s | .enc s | .qfreq s | .qcode s => i.mnemonic.toList ++ ' ' :: Nat.toDigits 10 s.toNat
  | .qnode n => i.mnemonic.toList ++ ' ' :: Nat.toDigits 10 n.toNat
  | .clr | .build | .assign | .estart | .elen | .qstat => i.mnemonic.toList

/-- A program text, line by line, as command words. -/
def assembleLines : List (List Char) → Option (List CmdWord)
  | [] => some []
  | l :: ls => do
    let is ← assembleLine l
    let ws ← assembleLines ls
    pure (is.map encode ++ ws)

end Sys2Proof.Machine
end

