-- ==== Sys2Proof/Safety.lean ====
section
/-! DEFINITION. The words the claims are stated in: running several commands, "no state change", the tree of
10_state.md R26, what holds in each phase (R43), and the properties of a code table. None of it is part of the machine. -/

namespace Sys2Proof.Machine

/-- Commands executed one after another (20_memory.md R70). -/
def execAll : List Instr → State → Result
  | [], s => .next s
  | i :: is, s =>
    match exec i s with
    | .next t => execAll is t
    | .fault r => .fault r
    | .refused r => .refused r

/-- "No state change": every element of 10_state.md keeps its value (00_scope.md R14). -/
structure SameElements (s t : State) : Prop where
  phase   : t.phase = s.phase
  freq    : t.freq = s.freq
  node    : t.node = s.node
  root    : t.root = s.root
  nsym    : t.nsym = s.nsym
  empty   : t.empty = s.empty
  code    : t.code = s.code
  bitlen  : t.bitlen = s.bitlen
  ostream : t.ostream = s.ostream
  unk     : t.unk = s.unk
  lovf    : t.lovf = s.lovf
  fcode   : t.fcode = s.fcode

/-- "every element of state is zero" (10_state.md R42), element by element. -/
structure ElementsZero (s : State) : Prop where
  phase   : s.phase = .count
  freq    : ∀ x, s.freqAt x = 0
  node    : ∀ i, s.nodeAt i = ⟨false, false, 0, 0, 0, 0⟩
  root    : s.root = 0
  nsym    : s.nsym = 0
  empty   : s.empty = false
  code    : ∀ x, s.codeAt x = ⟨0, 0⟩
  bitlen  : s.bitlen = 0
  ostream : s.ostream = []
  unk     : s.unk = false
  lovf    : s.lovf = false
  fcode   : s.fcode = .none

/-- Node `i` comes before node `j` in the order of the queue (41_tree_builder.md R154). -/
def KeyBefore (a : Arena) (i j : NodeId) : Prop :=
  (a.read i).weight < (a.read j).weight ∨ ((a.read i).weight = (a.read j).weight ∧ i.toNat < j.toNat)

/-- `p` is a valid internal node and names `i` as a child (10_state.md R26). -/
def IsChild (a : Arena) (i p : NodeId) : Prop :=
  (a.read p).valid = true ∧ (a.read p).leaf = false ∧ ((a.read p).left = i ∨ (a.read p).right = i)

/-- The queue at the start of round `k`, read off the finished arena: the valid nodes created before internal node `k`
and not yet made a child (41_tree_builder.md R151, R155). -/
def Queued (a : Arena) (k : Nat) (i : NodeId) : Prop :=
  (a.read i).valid = true ∧ i.toNat < 256 + k ∧ ∀ j, j < k → ¬ IsChild a i (innerId j)

/-- `PathTo a i e j`: the edges `e` lead from node `i` down to node `j`, `false` a left edge (bit 0) and `true` a right
edge (bit 1), through valid internal nodes (42_code_assigner.md R184). -/
inductive PathTo (a : Arena) : NodeId → List Bool → NodeId → Prop where
  | here (i : NodeId) : PathTo a i [] i
  | left {i j : NodeId} {e : List Bool} : (a.read i).valid = true → (a.read i).leaf = false →
      PathTo a (a.read i).left e j → PathTo a i (false :: e) j
  | right {i j : NodeId} {e : List Bool} : (a.read i).valid = true → (a.read i).leaf = false →
      PathTo a (a.read i).right e j → PathTo a i (true :: e) j

/-- The symbols of nonzero frequency (41_tree_builder.md R152). -/
def counted (freq : FreqTable) : List Symbol := allSymbols.filter fun x => readSym freq x != 0

/-- The tree in `NODE` and `ROOT` over the symbols of nonzero frequency: layout (10_state.md R27), root (R28) and the
invariants of R26. -/
structure IsTree (s : State) : Prop where
  /-- `NSYM` counts the symbols of nonzero frequency, of which there is one or more (R29, R30). -/
  nsym_eq : s.nsym.toNat = (counted s.freq).length ∧ 1 ≤ s.nsym.toNat
  /-- The leaf of a symbol of nonzero frequency (R27, 41_tree_builder.md R152). -/
  leaf_slot : ∀ x, s.freqAt x ≠ 0 → s.nodeAt (leafId x) = ⟨true, true, x, s.freqAt x, 0, 0⟩
  /-- A symbol of frequency 0 has no leaf (R27). -/
  absent_slot : ∀ x, s.freqAt x = 0 → s.nodeAt (leafId x) = Node.invalid
  /-- The internal nodes: two different valid children, weight their sum, no symbol (R25, R26). -/
  inner_slot : ∀ k, k + 1 < s.nsym.toNat →
    (s.nodeAt (innerId k)).valid = true ∧ (s.nodeAt (innerId k)).leaf = false ∧ (s.nodeAt (innerId k)).sym = 0 ∧
    (s.nodeAt (innerId k)).left ≠ (s.nodeAt (innerId k)).right ∧
    (s.nodeAt (s.nodeAt (innerId k)).left).valid = true ∧ (s.nodeAt (s.nodeAt (innerId k)).right).valid = true ∧
    (s.nodeAt (innerId k)).weight =
      (s.nodeAt (s.nodeAt (innerId k)).left).weight + (s.nodeAt (s.nodeAt (innerId k)).right).weight
  /-- All other slots are invalid (R27). -/
  unused_slot : ∀ k, s.nsym.toNat ≤ k + 1 → k < 255 → s.nodeAt (innerId k) = Node.invalid
  /-- With one symbol the root is its leaf (R28). -/
  root_sole : s.nsym.toNat = 1 → ∃ x, s.freqAt x ≠ 0 ∧ s.root = leafId x
  /-- With `n >= 2` symbols the root is the last internal node, `256 + n - 2` (R28). -/
  root_last : 2 ≤ s.nsym.toNat → s.root.toNat = 254 + s.nsym.toNat
  /-- Every valid slot but the root is a child of exactly one node (R26). -/
  one_parent : ∀ i, (s.nodeAt i).valid = true → i ≠ s.root → ∃! p, IsChild s.node i p
  /-- The root is no child (R26). -/
  root_no_parent : ∀ p, ¬ IsChild s.node s.root p
  /-- Every valid slot is reached from the root (R26). -/
  reachable : ∀ i, (s.nodeAt i).valid = true → ∃ e, PathTo s.node s.root e i

/-- The tree elements are all zero (10_state.md R43). -/
def NoTree (s : State) : Prop := s.node = Arena.cleared ∧ s.root = 0

/-- The encoder elements are all zero (10_state.md R43). -/
def NoString (s : State) : Prop := s.bitlen = 0 ∧ s.ostream = [] ∧ s.unk = false ∧ s.lovf = false

/-- `NODE`, `ROOT`, `NSYM`, `EMPTY` are those `BUILD` derives from `FREQ` (41_tree_builder.md R161). -/
def HasTree (s : State) : Prop :=
  s.node = (buildTree s.freq).node ∧ s.root = (buildTree s.freq).root ∧ s.nsym = (buildTree s.freq).nsym ∧
    s.empty = (buildTree s.freq).empty

/-- `NSYM` and `EMPTY` are "as set by `BUILD`" (10_state.md R43). -/
def HasCounts (s : State) : Prop := s.nsym = (buildTree s.freq).nsym ∧ s.empty = (buildTree s.freq).empty

/-- The code table of a frequency table, from its tree (42_code_assigner.md R181). -/
def codesOf (freq : FreqTable) : CodeTable :=
  let t := buildTree freq
  if t.empty then CodeTable.cleared else tableOf (leafCodes t.node t.root)

/-- The depth `ASSIGN` compares with `MAX_CODE_LEN`, 0 for the empty tree (42_code_assigner.md R181). -/
def depthOf (freq : FreqTable) : Nat :=
  let t := buildTree freq
  if t.empty then 0 else maxDepth t.node t.root

/-- What holds in each phase, row by row of 10_state.md R43. -/
def PhaseRow (s : State) : Prop :=
  match s.phase with
  | .count => NoTree s ∧ s.nsym = 0 ∧ s.empty = false ∧ s.code = CodeTable.cleared ∧ NoString s ∧ s.fcode = .none
  | .tree => HasTree s ∧ s.code = CodeTable.cleared ∧ NoString s ∧ s.fcode = .none
  | .ready => NoTree s ∧ HasCounts s ∧ s.code = codesOf s.freq ∧ depthOf s.freq ≤ s.config.maxCodeLen ∧
      s.fcode = .none
  | .fault => NoTree s ∧ s.code = CodeTable.cleared ∧ NoString s ∧
      ((s.fcode = .codeOverflow ∧ HasCounts s ∧ s.config.maxCodeLen < depthOf s.freq) ∨
       (s.fcode = .countOverflow ∧ s.nsym = 0 ∧ s.empty = false ∧ ∃ x, s.freqAt x = 2 ^ s.config.freqW - 1))

/-- The invariant of the machine: legal parameters, every counter within its width, `len(OSTREAM) = BITLEN`
(10_state.md R34), and the row of R43 for the phase. -/
structure Inv (s : State) : Prop where
  config  : s.config.Legal
  counts  : ∀ x, s.freqAt x < 2 ^ s.config.freqW
  stream  : s.ostream.length = s.bitlen
  bitlen  : s.bitlen < 2 ^ s.config.bitlenW
  row     : PhaseRow s

/-- Neither code is a bit-prefix of the other (42_code_assigner.md R187). -/
def IsPrefixFree (t : CodeTable) : Prop :=
  ∀ x y, x ≠ y → 0 < (readSym t x).len → 0 < (readSym t y).len → ¬ (readSym t x).bits <+: (readSym t y).bits

/-- `sum over s with len > 0 of 2^(-CODE[s].len)` (42_code_assigner.md R188). -/
def kraftSum (t : CodeTable) : ℚ :=
  (allSymbols.map fun x => if 0 < (readSym t x).len then (1 / 2 : ℚ) ^ (readSym t x).len else 0).sum

/-- `sum over s of FREQ[s] * len(s)` (41_tree_builder.md R162). -/
def cost (freq : FreqTable) (len : Symbol → Nat) : Nat := (allSymbols.map fun x => readSym freq x * len x).sum

/-- The sum of all counters (40_frequency_counter.md R133, 41_tree_builder.md R157). -/
def totalCount (freq : FreqTable) : Nat := (allSymbols.map fun x => readSym freq x).sum

/-- The concatenation of the codes of a string (43_encoder.md R217). -/
def encodeString (t : CodeTable) (bytes : List Symbol) : List Bool := bytes.flatMap fun b => (readSym t b).bits

/-- The sum of the code lengths of a string (43_encoder.md R217). -/
def stringLen (t : CodeTable) (bytes : List Symbol) : Nat := (bytes.map fun b => (readSym t b).len).sum

/-- The symbol whose code is a prefix of the bits, if there is one (43_encoder.md R222). -/
def firstCode (t : CodeTable) (q : List Bool) : Option Symbol :=
  allSymbols.find? fun x => decide (0 < (readSym t x).len) && (readSym t x).bits.isPrefixOf q

/-- Recovering a string from its bits by repeatedly removing the matching code (43_encoder.md R222). The hardware has no
decoder (00_scope.md R5); the fuel bounds the number of codes removed. -/
def decodeString (t : CodeTable) : Nat → List Bool → Option (List Symbol)
  | _, [] => some []
  | 0, _ :: _ => none
  | fuel + 1, q =>
    match firstCode t q with
    | none => none
    | some x => (decodeString t fuel (q.drop (readSym t x).len)).map (x :: ·)

end Sys2Proof.Machine
end

