-- ==== Sys2Proof/Certificates/Slice0/Obligations.lean ====
section
/-! DEFINITION. The statements for the provers, from the numbered rules of spec/. -/

open Sys2Proof Sys2Proof.Machine

/-! ### The command word -/

/-- A step on an offered command word is the execution of the decoded command, at the state whose inbox has lost that
word; a word put first by `withFetchWord` is run at the state it was put into (20_memory.md R70, 30_encoding.md R91). The
inbox is the model's (log 2). -/
def Obligations.StepRunsDecodedCommand : Prop :=
  (∀ (s : State) (w : CmdWord) (rest : List HostEvent) (i : Instr),
    s.inbox = .command w :: rest → decodeWord w = .instr i → step s = exec i { s with inbox := rest }) ∧
  (∀ (s : State) (i : Instr), decodeWord (encode i) = .instr i →
    step (s.withFetchWord 16 (encode i).toNat) = exec i s)

/-- Words written out from 30_encoding.md R91 and R92, `op` then `rsv` then `opd`, one for each command. -/
def Obligations.WrittenWordsDecode : Prop :=
  decodeWord 0b0001000000000000#16 = .instr .clr ∧
  decodeWord 0b0010000001100001#16 = .instr (.cnt 0x61#8) ∧
  decodeWord 0b0011000000000000#16 = .instr .build ∧
  decodeWord 0b0100000000000000#16 = .instr .assign ∧
  decodeWord 0b0101000000000000#16 = .instr .estart ∧
  decodeWord 0b0110000011111111#16 = .instr (.enc 255#8) ∧
  decodeWord 0b0111000000000000#16 = .instr .elen ∧
  decodeWord 0b1000000000000001#16 = .instr (.qfreq 1#8) ∧
  decodeWord 0b1001000111111110#16 = .instr (.qnode 510#9) ∧
  decodeWord 0b1010000010100101#16 = .instr (.qcode 0xA5#8) ∧
  decodeWord 0b1011000000000000#16 = .instr .qstat

/-- Decoding and encoding agree both ways: a word decodes to a command exactly when the command is well formed and the
word is its encoding (30_encoding.md R91, R92, R93, R104, R105). -/
def Obligations.DecodeInvertsEncode : Prop :=
  ∀ (w : CmdWord) (i : Instr), decodeWord w = .instr i ↔ (i.wellFormed = true ∧ encode i = w)

/-- Illegal words, by the numbers in the word: `op` 0 or from 0xC up (30_encoding.md R104); `rsv` nonzero, an operand where
none is taken, a symbol operand from 256 up, `QNODE` 511 (R105). In every phase the answer is `(ERR_ILLEGAL, 0, 0)` and no
element changes. -/
def Obligations.IllegalWordsAnswerErrIllegal : Prop :=
  ∀ (s : State) (w : CmdWord) (rest : List HostEvent) (op rsv opd : Nat),
    s.inbox = .command w :: rest →
    op = w.toNat / 4096 → rsv = w.toNat / 512 % 8 → opd = w.toNat % 512 →
    (op = 0 ∨ 0xC ≤ op ∨ rsv ≠ 0 ∨ (op ∈ [0x1, 0x3, 0x4, 0x5, 0x7, 0xB] ∧ opd ≠ 0) ∨
      (op ∈ [0x2, 0x6, 0x8, 0xA] ∧ 256 ≤ opd) ∨ (op = 0x9 ∧ opd = 511)) →
    step s = .next { s with inbox := rest, outbox := s.outbox ++ [⟨.errIllegal, 0, 0⟩] }

/-- "every word is either one of the legal forms of rule R92 or illegal by rules R104 and R105", and 1541 words are legal
(30_encoding.md R106). -/
def Obligations.LegalWordsNumber1541 : Prop :=
  (∀ w : CmdWord,
    (∃ i : Instr, i.wellFormed = true ∧ encode i = w ∧ decodeWord w = .instr i) ∨
    (∃ why : Illegal, decodeWord w = .illegal why ∧
      ∀ s : State, acceptWord w s = .next { s with outbox := s.outbox ++ [⟨.errIllegal, 0, 0⟩] })) ∧
  ((List.range 65536).filter fun n => (decodeTableWord 16 n).isSome).length = 1541

/-- The order of checks (60_exceptions.md R263): the form of the word, then the phase, then the command's own conditions,
`UnknownSymbol` before `LenOverflow` for `ENC` and `UNK` before `LOVF` for `ELEN`. -/
def Obligations.ChecksAreMadeInOrder : Prop :=
  ∀ (w : CmdWord) (s : State), ∃ (t : State) (r : Response), acceptWord w s = .next t ∧ t.outbox = s.outbox ++ [r] ∧
    ((∀ i, decodeWord w ≠ .instr i) → r.st = .errIllegal) ∧
    ∀ i, decodeWord w = .instr i →
      (legalIn i s.phase = false → r.st = .errPhase) ∧
      (legalIn i s.phase = true → r.st ≠ .errIllegal ∧ r.st ≠ .errPhase ∧
        (∀ x, i = .enc x → (s.codeAt x).len = 0 → r.st = .errUnknownSymbol) ∧
        (i = .elen → s.unk = true → r.st = .errUnknownSymbol))

/-! ### The whole machine -/

/-- Every step answers a next state; a command word is taken and gets exactly one response (00_scope.md R14); a reset is
taken and gets none (70_reset_and_hazards.md R301); with nothing offered nothing changes (10_state.md R22). The model's
own: the two queues and that a wait for the host is a step (log 2), and that a reset keeps the queues (log 4). -/
def Obligations.EveryStepAnswersOnce : Prop :=
  ∀ s : State, ∃ t : State, step s = .next t ∧
    (s.inbox = [] → t = s) ∧
    (∀ rest, s.inbox = .reset :: rest → t.inbox = rest ∧ t.outbox = s.outbox) ∧
    (∀ w rest, s.inbox = .command w :: rest → t.inbox = rest ∧ ∃ r : Response, t.outbox = s.outbox ++ [r])

/-- The table of 44_control_status.md R243: a command in a phase marked `-` is answered `(ERR_PHASE, 0, 0)` and no element
changes; in a phase marked `x` it is executed, which is never answered `ERR_PHASE`. -/
def Obligations.CommandsOutOfPhaseAreRefused : Prop :=
  ∀ (i : Instr) (s : State), i.wellFormed = true →
    let marked : Prop :=
      match i with
      | .clr | .qfreq _ | .qstat => True
      | .cnt _ | .build => s.phase = .count
      | .assign | .qnode _ => s.phase = .tree
      | .estart | .enc _ | .elen | .qcode _ => s.phase = .ready
    (¬ marked → exec i s = .next { s with outbox := s.outbox ++ [⟨.errPhase, 0, 0⟩] }) ∧
    (marked → ∃ (t : State) (r : Response), exec i s = .next t ∧ t.outbox = s.outbox ++ [r] ∧ r.st ≠ .errPhase)

/-- After reset, after a reset event and after `CLR` every element of state is zero (10_state.md R42). -/
def Obligations.ResetAndClrZeroEveryElement : Prop :=
  ElementsZero State.reset ∧
  (∀ (s : State) (rest : List HostEvent), s.inbox = .reset :: rest → ∃ t, step s = .next t ∧ ElementsZero t) ∧
  (∀ s : State, ∃ t, exec .clr s = .next t ∧ ElementsZero t)

/-- Reset: the reset state whatever came before, as an event between commands and at an edge with `rst = 1`, while no
command is accepted and no response is offered; the same state as `CLR`'s (70_reset_and_hazards.md R300). The model's own:
that the parameters and the two queues are there and are kept (logs 1, 2, 4), and the block at its pins (log 3). -/
def Obligations.ResetYieldsResetState : Prop :=
  (∀ (s : State) (rest : List HostEvent), s.inbox = .reset :: rest →
    step s = .next { State.reset with config := s.config, inbox := rest, outbox := s.outbox }) ∧
  (∀ (b : Block) (p : Pins), p.rst = true →
    (b.edge p).state =
      { State.reset with config := b.state.config, inbox := b.state.inbox, outbox := b.state.outbox } ∧
    (b.edge p).port = .idle ∧ b.cmdReady p = false ∧ b.rspValid p = none ∧
    exec .clr b.state = .next ((b.edge p).state.respond .ok 0 0))

/-- `CLR`: word `0x1000`, legal in all phases, every element to its reset value, `(OK, 0, 0)` (44_control_status.md
R240). -/
def Obligations.ClrStartsNewRun : Prop :=
  encode .clr = 0x1000#16 ∧
  ∀ s : State, exec .clr s =
    .next { State.reset with config := s.config, inbox := s.inbox, outbox := s.outbox ++ [⟨.ok, 0, 0⟩] }

/-- Which command may write which element: the "written by" column of 10_state.md R20, for every command in every state.
The parameters are written by none, and a command leaves what the host has offered after it alone. -/
def Obligations.OnlyListedCommandsWrite : Prop :=
  ∀ (i : Instr) (s : State), ∃ t : State, exec i s = .next t ∧ t.config = s.config ∧ t.inbox = s.inbox ∧
    (t.phase ≠ s.phase → i = .clr ∨ i = .build ∨ i = .assign ∨ ∃ x, i = .cnt x) ∧
    (t.freq ≠ s.freq → i = .clr ∨ ∃ x, i = .cnt x) ∧
    (t.node ≠ s.node → i = .clr ∨ i = .build ∨ i = .assign) ∧
    (t.root ≠ s.root → i = .clr ∨ i = .build ∨ i = .assign) ∧
    (t.nsym ≠ s.nsym → i = .clr ∨ i = .build) ∧
    (t.empty ≠ s.empty → i = .clr ∨ i = .build) ∧
    (t.code ≠ s.code → i = .clr ∨ i = .assign) ∧
    (t.bitlen ≠ s.bitlen → i = .clr ∨ i = .estart ∨ ∃ x, i = .enc x) ∧
    (t.ostream ≠ s.ostream → i = .clr ∨ i = .estart ∨ ∃ x, i = .enc x) ∧
    (t.unk ≠ s.unk → i = .clr ∨ i = .estart ∨ ∃ x, i = .enc x) ∧
    (t.lovf ≠ s.lovf → i = .clr ∨ i = .estart ∨ ∃ x, i = .enc x) ∧
    (t.fcode ≠ s.fcode → i = .clr ∨ i = .assign ∨ ∃ x, i = .cnt x)

/-- The transitions of `PHASE`, row by row of 44_control_status.md R244, for a step on any event: each listed transition
is made, and no other change of `PHASE` is. -/
def Obligations.PhaseChangesOnlyAsListed : Prop :=
  (∀ s t : State, step s = .next t → t.phase ≠ s.phase →
    (∃ rest, (s.inbox = .reset :: rest ∨ s.inbox = .command 0x1000#16 :: rest) ∧ t.phase = .count) ∨
    (∃ x rest, s.inbox = .command (encode (.cnt x)) :: rest ∧ s.phase = .count ∧ t.phase = .fault ∧
      t.fcode = .countOverflow ∧ t.outbox = s.outbox ++ [⟨.errCountOverflow, 0, 0⟩]) ∨
    (∃ rest, s.inbox = .command 0x3000#16 :: rest ∧ s.phase = .count ∧ t.phase = .tree) ∨
    (∃ rest, s.inbox = .command 0x4000#16 :: rest ∧ s.phase = .tree ∧ t.phase = .ready ∧
      (t.outbox = s.outbox ++ [⟨.ok, 0, 0⟩] ∨ t.outbox = s.outbox ++ [⟨.empty, 0, 0⟩])) ∨
    (∃ rest, s.inbox = .command 0x4000#16 :: rest ∧ s.phase = .tree ∧ t.phase = .fault ∧
      t.fcode = .codeOverflow ∧ t.outbox = s.outbox ++ [⟨.errCodeOverflow, 0, 0⟩])) ∧
  (∀ (s : State) (rest : List HostEvent),
    ((s.inbox = .reset :: rest ∨ s.inbox = .command 0x1000#16 :: rest) → ∃ t, step s = .next t ∧ t.phase = .count) ∧
    (∀ x, s.inbox = .command (encode (.cnt x)) :: rest → s.phase = .count → ∃ t, step s = .next t ∧
      ((t.outbox = s.outbox ++ [⟨.ok, 0, 0⟩] ∧ t.phase = .count) ∨
       (t.outbox = s.outbox ++ [⟨.errCountOverflow, 0, 0⟩] ∧ t.phase = .fault ∧ t.fcode = .countOverflow))) ∧
    (s.inbox = .command 0x3000#16 :: rest → s.phase = .count → ∃ t, step s = .next t ∧ t.phase = .tree ∧
      (t.outbox = s.outbox ++ [⟨.ok, 0, 0⟩] ∨ t.outbox = s.outbox ++ [⟨.empty, 0, 0⟩])) ∧
    (s.inbox = .command 0x4000#16 :: rest → s.phase = .tree → ∃ t, step s = .next t ∧
      (((t.outbox = s.outbox ++ [⟨.ok, 0, 0⟩] ∨ t.outbox = s.outbox ++ [⟨.empty, 0, 0⟩]) ∧ t.phase = .ready) ∨
       (t.outbox = s.outbox ++ [⟨.errCodeOverflow, 0, 0⟩] ∧ t.phase = .fault ∧ t.fcode = .codeOverflow))))

/-- `FREQ` is written only by a `CNT` in phase `COUNT`, which adds one to one counter, and by `CLR` and reset; so outside
phase `COUNT` it is read-only until the next `CLR` (10_state.md R24). -/
def Obligations.CountersMoveOnlyByCntClrReset : Prop :=
  ∀ s : State, ∃ t : State, step s = .next t ∧
    ((∀ y, t.freqAt y = s.freqAt y) ∨
     (∃ rest, (s.inbox = .reset :: rest ∨ s.inbox = .command 0x1000#16 :: rest) ∧ ∀ y, t.freqAt y = 0) ∨
     (∃ x rest, s.inbox = .command (encode (.cnt x)) :: rest ∧ s.phase = .count ∧
       t.freqAt x = s.freqAt x + 1 ∧ ∀ y, y ≠ x → t.freqAt y = s.freqAt y))

/-- In phase `FAULT` a step either changes no element or is a `CLR` or a reset, which restores the reset state; so faults
do not nest and `FCODE` keeps its value until it is cleared (60_exceptions.md R265). -/
def Obligations.FaultIsLeftOnlyByClrOrReset : Prop :=
  ∀ s : State, s.phase = .fault → ∃ t : State, step s = .next t ∧
    ((SameElements s t ∧ ∀ rest, s.inbox ≠ .reset :: rest ∧ s.inbox ≠ .command 0x1000#16 :: rest) ∨
     (ElementsZero t ∧ ∃ rest, s.inbox = .reset :: rest ∨ s.inbox = .command 0x1000#16 :: rest))

/-- `QFREQ`, `QNODE`, `QCODE`, `QSTAT` and `ELEN` change no element, and repeated at once give the same response
(20_memory.md R67). -/
def Obligations.QueriesHaveNoSideEffect : Prop :=
  ∀ (i : Instr) (s : State), ((∃ x, i = .qfreq x) ∨ (∃ n, i = .qnode n) ∨ (∃ x, i = .qcode x) ∨ i = .qstat ∨ i = .elen) →
    ∃ r : Response, exec i s = .next { s with outbox := s.outbox ++ [r] } ∧
      exec i { s with outbox := s.outbox ++ [r] } = .next { s with outbox := s.outbox ++ [r] ++ [r] }

/-- A refused command changes no element, and so does a refused word: `ERR_PHASE` and `ERR_ILLEGAL` (60_exceptions.md
R262). Repeating it in the state it leaves gives the same answer. -/
def Obligations.RefusalsChangeNothing : Prop :=
  ∀ (w : CmdWord) (s : State), ∃ (t : State) (r : Response), acceptWord w s = .next t ∧ t.outbox = s.outbox ++ [r] ∧
    ((r.st = .errPhase ∨ r.st = .errIllegal) →
      t = { s with outbox := s.outbox ++ [r] } ∧ acceptWord w t = .next { t with outbox := t.outbox ++ [r] })

/-- When `val` and `aux` are zero in an error response, and when not (30_encoding.md R100): they are zero with
`ERR_ILLEGAL`, `ERR_PHASE`, `ERR_CODE_OVERFLOW`, `ERR_COUNT_OVERFLOW` and `EMPTY`, and in every error response of `ENC`. The
exception is `ELEN`: whatever its status, unless it is refused, it carries `BITLEN` and the byte length (43_encoder.md
R216). No reserved status is produced (R101), which the type of statuses says already (log 11). Words that decode to no
command are in IllegalWordsAnswerErrIllegal. -/
def Obligations.ErrorResponsesCarryZeros : Prop :=
  ∀ (i : Instr) (s : State), ∃ (t : State) (r : Response), exec i s = .next t ∧ t.outbox = s.outbox ++ [r] ∧
    r.st.bits.toNat < 8 ∧
    (r.st ∈ [.errIllegal, .errPhase, .errCodeOverflow, .errCountOverflow] → r.val = 0 ∧ r.aux = 0) ∧
    ((∃ x, i = .enc x) → r.st ≠ .ok → r.val = 0 ∧ r.aux = 0) ∧
    (i = .elen → r.st ≠ .errPhase → r.val = s.bitlen ∧ r.aux = BitVec.ofNat 32 ((s.bitlen + 7) / 8)) ∧
    (r.st = .empty → (i = .build ∨ i = .assign) ∧ r.val = 0 ∧ r.aux = 0)

/-- The reset state meets the invariant (10_state.md R42, R43). -/
def Obligations.ResetMeetsInvariant : Prop := Inv State.reset

/-- Every step keeps the invariant: what holds in each phase by the table of 10_state.md R43, the counters within their
widths, and `len(OSTREAM) = BITLEN` (R34). -/
def Obligations.StepKeepsInvariant : Prop :=
  ∀ s : State, Inv s → ∃ t : State, step s = .next t ∧ Inv t

/-- `FCODE != 0` exactly when `PHASE = FAULT` (10_state.md R37), in the states that meet the invariant. -/
def Obligations.FcodeNonzeroExactlyInFault : Prop :=
  ∀ s : State, Inv s → (s.fcode.bits ≠ 0#3 ↔ s.phase = .fault)

/-- The value of a response fits the `VAL_W` bits of its field (00_scope.md R11, 30_encoding.md R100). -/
def Obligations.ResponsesFitTheirFields : Prop :=
  ∀ s : State, Inv s → ∃ t : State, step s = .next t ∧
    ∀ r : Response, t.outbox = s.outbox ++ [r] → r.val < 2 ^ s.config.valW

/-! ### Frequency Counter -/

/-- `CNT s` (40_frequency_counter.md R131, R132; 20_memory.md R80): its word; in phase `COUNT` a counter below `2^FREQ_W - 1`
goes up by one and nothing else changes; at `2^FREQ_W - 1` CountOverflow is raised; in another phase it is refused. -/
def Obligations.CntCountsOneByte : Prop :=
  (∀ x : Symbol, (encode (.cnt x)).toNat = 0x2000 + x.toNat) ∧
  ∀ (x : Symbol) (s : State),
    (s.phase = .count → s.freqAt x ≠ 2 ^ s.config.freqW - 1 →
      exec (.cnt x) s = .next { s with
        freq := writeSym s.freq x (s.freqAt x + 1)
        outbox := s.outbox ++ [⟨.ok, 0, 0⟩] }) ∧
    (s.phase = .count → s.freqAt x = 2 ^ s.config.freqW - 1 →
      exec (.cnt x) s = .next { s with
        fcode := .countOverflow
        phase := .fault
        outbox := s.outbox ++ [⟨.errCountOverflow, 0, 0⟩] }) ∧
    (s.phase ≠ .count → exec (.cnt x) s = .next { s with outbox := s.outbox ++ [⟨.errPhase, 0, 0⟩] })

/-- CountOverflow (40_frequency_counter.md R132): the counter keeps `2^FREQ_W - 1`, `FCODE` is 2, `PHASE` is `FAULT`; then
`BUILD` is refused, `QFREQ` still reads the table, and only `CLR` or reset recovers: no other command word changes any
element. -/
def Obligations.CountOverflowEndsTheRun : Prop :=
  ∀ (x : Symbol) (s : State), s.phase = .count → s.freqAt x = 2 ^ s.config.freqW - 1 →
    ∃ t : State, exec (.cnt x) s = .next t ∧ t.freq = s.freq ∧ t.freqAt x = 2 ^ s.config.freqW - 1 ∧
      t.fcode.bits = 2#3 ∧ t.phase = .fault ∧
      t = { s with fcode := t.fcode, phase := t.phase, outbox := s.outbox ++ [⟨.errCountOverflow, 0, 0⟩] } ∧
      exec .build t = .next { t with outbox := t.outbox ++ [⟨.errPhase, 0, 0⟩] } ∧
      (∀ y, exec (.qfreq y) t = .next { t with outbox := t.outbox ++ [⟨.ok, s.freqAt y, 0⟩] }) ∧
      ElementsZero t.takeReset ∧
      ∀ w, ∃ u, acceptWord w t = .next u ∧ (w = 0x1000#16 → ElementsZero u) ∧ (w ≠ 0x1000#16 → SameElements t u)

/-- `FREQ[s]` is the number of `CNT s` commands answered `OK` since the last reset or `CLR`, whatever else was issued
between them (10_state.md R23); the sum of all counters is the number of `CNT` commands answered `OK`, and the order of the
`CNT` commands does not matter (40_frequency_counter.md R133). -/
def Obligations.CountersCountOkCommands : Prop :=
  (∀ (s : State) (cmds : List Instr), (∀ x, s.freqAt x = 0) → .clr ∉ cmds →
    ∃ (t : State) (rs : List Response), execAll cmds s = .next t ∧ t.outbox = s.outbox ++ rs ∧ rs.length = cmds.length ∧
      (∀ x, t.freqAt x = (cmds.zip rs).countP fun p => p.1 = .cnt x ∧ p.2.st = .ok) ∧
      totalCount t.freq = (cmds.zip rs).countP fun p => (∃ x ∈ allSymbols, p.1 = .cnt x) ∧ p.2.st = .ok) ∧
  (∀ (s : State) (bytes bytes' : List Symbol), s.phase = .count → (∀ x, s.freqAt x = 0) →
    (∀ x, bytes.count x ≤ 2 ^ s.config.freqW - 1) → bytes.Perm bytes' →
    ∃ t t' : State, execAll (bytes.map .cnt) s = .next t ∧ execAll (bytes'.map .cnt) s = .next t' ∧
      t.freq = t'.freq ∧ ∀ x, t.freqAt x = bytes.count x)

/-- `QFREQ s` (40_frequency_counter.md R134): its word; in every phase `(OK, FREQ[s], 0)`, and nothing changes. -/
def Obligations.QfreqReadsCounter : Prop :=
  (∀ x : Symbol, (encode (.qfreq x)).toNat = 0x8000 + x.toNat) ∧
  ∀ (x : Symbol) (s : State), exec (.qfreq x) s = .next { s with outbox := s.outbox ++ [⟨.ok, s.freqAt x, 0⟩] }

/-! ### Tree Builder -/

/-- `BUILD` with no symbol of nonzero frequency (41_tree_builder.md R158): every slot invalid, `ROOT = 0`, `NSYM = 0`,
`EMPTY = 1`, phase `TREE`, `(EMPTY, 0, 0)`. -/
def Obligations.BuildWithNoSymbol : Prop :=
  ∀ s : State, s.phase = .count → (∀ x, s.freqAt x = 0) →
    exec .build s = .next { s with
      node := Vector.replicate 511 Node.invalid
      root := 0
      nsym := 0
      empty := true
      phase := .tree
      outbox := s.outbox ++ [⟨.empty, 0, 0⟩] }

/-- `BUILD` with exactly one symbol of nonzero frequency (41_tree_builder.md R159): the one leaf is the root. -/
def Obligations.BuildWithOneSymbol : Prop :=
  ∀ (s : State) (x : Symbol), s.phase = .count → s.freqAt x ≠ 0 → (∀ y, y ≠ x → s.freqAt y = 0) →
    exec .build s = .next { s with
      node := Arena.write (Vector.replicate 511 Node.invalid) (leafId x) ⟨true, true, x, s.freqAt x, 0, 0⟩
      root := leafId x
      nsym := 1
      empty := false
      phase := .tree
      outbox := s.outbox ++ [⟨.ok, 0, 0⟩] }

/-- `BUILD` (41_tree_builder.md R151): its word; with some symbol of nonzero frequency it answers `(OK, 0, 0)`, moves to
`TREE`, and leaves in `NODE`, `ROOT`, `NSYM`, `EMPTY` a tree over those symbols with the leaves of R152 and the layout of
10_state.md R27; everything else keeps its value; in another phase it is refused. -/
def Obligations.BuildMakesTree : Prop :=
  encode .build = 0x3000#16 ∧
  (∀ s : State, s.phase = .count → (∃ x, s.freqAt x ≠ 0) →
    ∃ t : State, exec .build s = .next t ∧ t.phase = .tree ∧ t.empty = false ∧ IsTree t ∧
      t = { s with
        node := t.node
        root := t.root
        nsym := t.nsym
        empty := t.empty
        phase := t.phase
        outbox := s.outbox ++ [⟨.ok, 0, 0⟩] }) ∧
  (∀ s : State, s.phase ≠ .count → exec .build s = .next { s with outbox := s.outbox ++ [⟨.errPhase, 0, 0⟩] })

/-- Each merge takes the two least of the queue, least first: at round `k` the left child is the least queued node in the
order of 41_tree_builder.md R154 and the right child the least of the others (R155), first extracted on the left (R156).
The queue is read off the finished arena. -/
def Obligations.BuildMergesTwoLeast : Prop :=
  ∀ s : State, s.phase = .count → (∃ x, s.freqAt x ≠ 0) → ∃ t : State, exec .build s = .next t ∧
    ∀ k, k + 1 < t.nsym.toNat →
      let a := (t.nodeAt (innerId k)).left
      let b := (t.nodeAt (innerId k)).right
      Queued t.node k a ∧ Queued t.node k b ∧ KeyBefore t.node a b ∧
      ∀ i, Queued t.node k i → i ≠ a → i ≠ b → KeyBefore t.node b i

/-- Rounds and root (41_tree_builder.md R157): from `n` symbols exactly the internal nodes `NODE[256]` to
`NODE[256 + n - 2]`; the last one, or the sole leaf, is the root; it weighs the sum of all counters; internal weights do
not decrease in creation order. -/
def Obligations.RootWeighsAllCounts : Prop :=
  ∀ s : State, s.phase = .count → (∃ x, s.freqAt x ≠ 0) → ∃ t : State, exec .build s = .next t ∧
    t.nsym.toNat = (counted s.freq).length ∧
    (∀ k, k < 255 → ((t.nodeAt (innerId k)).valid = true ↔ k + 1 < t.nsym.toNat)) ∧
    (2 ≤ t.nsym.toNat → t.root.toNat = 254 + t.nsym.toNat) ∧
    (t.nsym.toNat = 1 → ∃ x, s.freqAt x ≠ 0 ∧ t.root = leafId x) ∧
    (t.nodeAt t.root).weight = totalCount s.freq ∧
    ∀ k, k + 2 < t.nsym.toNat → (t.nodeAt (innerId k)).weight ≤ (t.nodeAt (innerId (k + 1))).weight

/-- In phase `TREE` with `EMPTY = 0` the state holds the tree of 10_state.md R26; in every other situation `ROOT` is 0
(R28). -/
def Obligations.TreePhaseHoldsTree : Prop :=
  ∀ s : State, Inv s →
    (s.phase = .tree → s.empty = false → IsTree s) ∧ (¬ (s.phase = .tree ∧ s.empty = false) → s.root = 0)

/-- A leaf's weight is its counter and every weight fits in `WEIGHT_W = FREQ_W + 8` bits (20_memory.md R81). -/
def Obligations.WeightsFitTheirWidth : Prop :=
  ∀ s : State, Inv s → s.phase = .tree →
    (∀ i, (s.nodeAt i).weight < 2 ^ (s.config.freqW + 8)) ∧
    (∀ x, s.freqAt x ≠ 0 → (s.nodeAt (leafId x)).weight = s.freqAt x) ∧
    (∀ i, (s.nodeAt i).valid = true → (s.nodeAt i).leaf = false →
      (s.nodeAt i).weight = (s.nodeAt (s.nodeAt i).left).weight + (s.nodeAt (s.nodeAt i).right).weight)

/-- Two runs with equal frequency tables and equal parameters have equal trees in phase `TREE` and equal code tables in
phase `READY` (41_tree_builder.md R161). -/
def Obligations.EqualCountsGiveEqualTreesAndCodes : Prop :=
  (∀ s u : State, s.phase = .count → u.phase = .count → s.freq = u.freq →
    ∃ t v : State, exec .build s = .next t ∧ exec .build u = .next v ∧
      t.node = v.node ∧ t.root = v.root ∧ t.nsym = v.nsym ∧ t.empty = v.empty) ∧
  (∀ s u : State, Inv s → Inv u → s.config = u.config → s.freq = u.freq →
    (s.phase = .tree → u.phase = .tree →
      s.node = u.node ∧ s.root = u.root ∧ s.nsym = u.nsym ∧ s.empty = u.empty) ∧
    (s.phase = .ready → u.phase = .ready → s.code = u.code))

/-- `QNODE i` (41_tree_builder.md R163, 30_encoding.md R103): its word; in phase `TREE` the weight, and the node word with
`left` in 8:0, `right` in 17:9, `sym` in 25:18, `leaf` in 26, `valid` in 27; an invalid slot answers zeros, and with `EMPTY = 1`
every slot does; in another phase it is refused. Id 511 has no legal word (R105); that the term `QNODE 511` is answered as
that illegal word is, is the model's (log 9). -/
def Obligations.QnodeReadsSlot : Prop :=
  (∀ i : NodeId, i ≠ 511#9 → (encode (.qnode i)).toNat = 0x9000 + i.toNat) ∧
  (∀ (i : NodeId) (s : State), i ≠ 511#9 → s.phase = .tree →
    exec (.qnode i) s = .next { s with
      outbox := s.outbox ++ [⟨.ok, (s.nodeAt i).weight,
        BitVec.ofNat 32 ((s.nodeAt i).left.toNat + 2 ^ 9 * (s.nodeAt i).right.toNat + 2 ^ 18 * (s.nodeAt i).sym.toNat +
          2 ^ 26 * (s.nodeAt i).leaf.toNat + 2 ^ 27 * (s.nodeAt i).valid.toNat)⟩] }) ∧
  (∀ (i : NodeId) (s : State), i ≠ 511#9 → s.phase = .tree → s.nodeAt i = Node.invalid →
    exec (.qnode i) s = .next { s with outbox := s.outbox ++ [⟨.ok, 0, 0⟩] }) ∧
  (∀ (i : NodeId) (s : State), i ≠ 511#9 → Inv s → s.phase = .tree →
    ((s.nodeAt i).valid = false ∨ s.empty = true) →
    exec (.qnode i) s = .next { s with outbox := s.outbox ++ [⟨.ok, 0, 0⟩] }) ∧
  (∀ (i : NodeId) (s : State), i ≠ 511#9 → s.phase ≠ .tree →
    exec (.qnode i) s = .next { s with outbox := s.outbox ++ [⟨.errPhase, 0, 0⟩] }) ∧
  (∀ s : State, exec (.qnode 511#9) s = .next { s with outbox := s.outbox ++ [⟨.errIllegal, 0, 0⟩] })

/-! ### Code Assigner -/

/-- `ASSIGN` of the empty tree (42_code_assigner.md R181, the `EMPTY = 1` arm): only `PHASE` is written, `(EMPTY, 0, 0)`. -/
def Obligations.AssignOfEmptyTree : Prop :=
  ∀ s : State, s.phase = .tree → s.empty = true →
    exec .assign s = .next { s with phase := .ready, outbox := s.outbox ++ [⟨.empty, 0, 0⟩] }

/-- `ASSIGN` when the root is a leaf (42_code_assigner.md R182): the sole symbol gets length 1 and value 0, every other
entry is zero, the tree is discarded, and there is no overflow. -/
def Obligations.AssignOfSoleSymbol : Prop :=
  ∀ s : State, s.phase = .tree → s.empty = false → (s.nodeAt s.root).leaf = true →
    exec .assign s = .next { s with
      code := writeSym (Vector.replicate 256 ⟨0, 0⟩) (s.nodeAt s.root).sym ⟨1, 0⟩
      node := Vector.replicate 511 Node.invalid
      root := 0
      phase := .ready
      outbox := s.outbox ++ [⟨.ok, 0, 0⟩] }

/-- `ASSIGN` (42_code_assigner.md R181, R191): its word; in every arm that had a tree it ends with every slot invalid and
`ROOT = 0`, and writes besides only `CODE`, `PHASE` and, on overflow, `FCODE`; in another phase it is refused. -/
def Obligations.AssignDiscardsTree : Prop :=
  encode .assign = 0x4000#16 ∧
  (∀ s : State, s.phase = .tree → s.empty = false →
    ∃ t : State, exec .assign s = .next t ∧ (∀ i, t.nodeAt i = ⟨false, false, 0, 0, 0, 0⟩) ∧ t.root = 0 ∧
      t.freq = s.freq ∧ t.nsym = s.nsym ∧ t.empty = s.empty ∧ t.bitlen = s.bitlen ∧ t.ostream = s.ostream ∧
      t.unk = s.unk ∧ t.lovf = s.lovf ∧ t.config = s.config ∧ t.inbox = s.inbox ∧
      ((t.phase = .ready ∧ t.fcode = s.fcode ∧ t.outbox = s.outbox ++ [⟨.ok, 0, 0⟩]) ∨
       (t.phase = .fault ∧ t.fcode = .codeOverflow ∧ t.outbox = s.outbox ++ [⟨.errCodeOverflow, 0, 0⟩]))) ∧
  (∀ s : State, s.phase ≠ .tree → exec .assign s = .next { s with outbox := s.outbox ++ [⟨.errPhase, 0, 0⟩] })

/-- The declarative form of the code table (42_code_assigner.md R184): for two symbols or more and no overflow, a
symbol's code is the sequence of edges from the root to its leaf, its length the number of edges and its value the sum of
`bit(e_k) * 2^(d-k)`; a symbol of frequency 0 has `{0, 0}`. -/
def Obligations.AssignGivesPathCodes : Prop :=
  ∀ s : State, Inv s → s.phase = .tree → 2 ≤ s.nsym.toNat →
    (∀ x e, s.freqAt x ≠ 0 → PathTo s.node s.root e (leafId x) → e.length ≤ s.config.maxCodeLen) →
    ∃ t : State, exec .assign s = .next t ∧ t.phase = .ready ∧ t.outbox = s.outbox ++ [⟨.ok, 0, 0⟩] ∧
      (∀ x, s.freqAt x = 0 → t.codeAt x = ⟨0, 0⟩) ∧
      (∀ x e, s.freqAt x ≠ 0 → PathTo s.node s.root e (leafId x) →
        (t.codeAt x).len = e.length ∧
        (t.codeAt x).val = ∑ k ∈ Finset.range e.length, (e.getD k false).toNat * 2 ^ (e.length - 1 - k) ∧
        (t.codeAt x).bits = e) ∧
      (∀ x, s.freqAt x ≠ 0 → ∃ e, PathTo s.node s.root e (leafId x))

/-- CodeOverflow (42_code_assigner.md R185): exactly when some leaf lies deeper than `MAX_CODE_LEN`. Then no table, no tree,
`FCODE = 1`, phase `FAULT`, `(ERR_CODE_OVERFLOW, 0, 0)`, all else keeps its value, no encode is possible, and `CLR`
recovers (that nothing but `CLR` and reset leaves `FAULT` is FaultIsLeftOnlyByClrOrReset). -/
def Obligations.CodeOverflowEndsTheRun : Prop :=
  ∀ s : State, Inv s → s.phase = .tree →
    ((∃ x e, s.freqAt x ≠ 0 ∧ PathTo s.node s.root e (leafId x) ∧ s.config.maxCodeLen < e.length) →
      ∃ t, exec .assign s = .next t ∧
        t = { s with
          code := Vector.replicate 256 ⟨0, 0⟩
          node := Vector.replicate 511 Node.invalid
          root := 0
          fcode := .codeOverflow
          phase := .fault
          outbox := s.outbox ++ [⟨.errCodeOverflow, 0, 0⟩] } ∧
        (∀ x, exec (.enc x) t = .next { t with outbox := t.outbox ++ [⟨.errPhase, 0, 0⟩] }) ∧
        (∃ u, exec .clr t = .next u ∧ ElementsZero u)) ∧
    ((¬ ∃ x e, s.freqAt x ≠ 0 ∧ PathTo s.node s.root e (leafId x) ∧ s.config.maxCodeLen < e.length) →
      ∃ t, exec .assign s = .next t ∧ t.phase = .ready ∧ t.fcode = .none)

/-- `QCODE s` (42_code_assigner.md R190): its word; in phase `READY` `(OK, CODE[s].val, CODE[s].len)`; a symbol with no code
answers `(OK, 0, 0)`, and with `EMPTY = 1` every symbol does; in another phase it is refused. -/
def Obligations.QcodeReadsEntry : Prop :=
  (∀ x : Symbol, (encode (.qcode x)).toNat = 0xA000 + x.toNat) ∧
  (∀ (x : Symbol) (s : State), s.phase = .ready →
    exec (.qcode x) s =
      .next { s with outbox := s.outbox ++ [⟨.ok, (s.codeAt x).val, BitVec.ofNat 32 (s.codeAt x).len⟩] }) ∧
  (∀ (x : Symbol) (s : State), Inv s → s.phase = .ready → ((s.codeAt x).len = 0 ∨ s.empty = true) →
    exec (.qcode x) s = .next { s with outbox := s.outbox ++ [⟨.ok, 0, 0⟩] }) ∧
  (∀ (x : Symbol) (s : State), s.phase ≠ .ready →
    exec (.qcode x) s = .next { s with outbox := s.outbox ++ [⟨.errPhase, 0, 0⟩] })

/-- Completeness (42_code_assigner.md R186): in phase `READY`, `CODE[s].len > 0` exactly when `FREQ[s] != 0`. -/
def Obligations.CodedExactlyWhenCounted : Prop :=
  ∀ s : State, Inv s → s.phase = .ready → ∀ x, 0 < (s.codeAt x).len ↔ s.freqAt x ≠ 0

/-- The entries of the code table fit their fields (10_state.md R31, R32; 00_scope.md R9): a length is at most
`MAX_CODE_LEN` and fits `LEN_W` bits, a value fits `MAX_CODE_LEN` bits and has no bit set from `len` up, and an entry of length 0
has value 0. -/
def Obligations.CodeEntriesFitTheirFields : Prop :=
  ∀ s : State, Inv s → ∀ x,
    (s.codeAt x).len ≤ s.config.maxCodeLen ∧ (s.codeAt x).len < 2 ^ s.config.lenW ∧
    (s.codeAt x).val < 2 ^ (s.codeAt x).len ∧ (s.codeAt x).val < 2 ^ s.config.maxCodeLen ∧
    ((s.codeAt x).len = 0 → (s.codeAt x).val = 0)

/-- Prefix-freedom (42_code_assigner.md R187), on the bit strings and on the values: for codes of lengths `p <= q`,
`CODE[t].val[q-1 : q-p] != CODE[s].val[p-1 : 0]`. -/
def Obligations.CodesArePrefixFree : Prop :=
  ∀ s : State, Inv s → s.phase = .ready → IsPrefixFree s.code ∧
    ∀ x y, x ≠ y → 0 < (s.codeAt x).len → (s.codeAt x).len ≤ (s.codeAt y).len →
      (s.codeAt y).val / 2 ^ ((s.codeAt y).len - (s.codeAt x).len) % 2 ^ (s.codeAt x).len ≠
        (s.codeAt x).val % 2 ^ (s.codeAt x).len

/-- The shape of the code (42_code_assigner.md R188): for `n >= 2` symbols every length is between 1 and `n - 1`, hence at
most 255, and the Kraft sum is 1; for one symbol the length is 1 and the sum 1/2; for none every length is 0. -/
def Obligations.CodeLengthsMeetKraftEquality : Prop :=
  ∀ s : State, Inv s → s.phase = .ready →
    (2 ≤ s.nsym.toNat → kraftSum s.code = 1 ∧
      ∀ x, s.freqAt x ≠ 0 →
        1 ≤ (s.codeAt x).len ∧ (s.codeAt x).len ≤ s.nsym.toNat - 1 ∧ (s.codeAt x).len ≤ 255) ∧
    (s.nsym.toNat = 1 → kraftSum s.code = 1 / 2 ∧ ∀ x, s.freqAt x ≠ 0 → (s.codeAt x).len = 1) ∧
    (s.nsym.toNat = 0 → ∀ x, (s.codeAt x).len = 0)

/-- Optimality (41_tree_builder.md R162): for `NSYM >= 2` no prefix-free code on the symbols of nonzero frequency costs less;
for `NSYM = 1` the cost is the symbol's frequency, the least there is with a nonzero length. -/
def Obligations.CodeLengthsAreOptimal : Prop :=
  ∀ s : State, Inv s → s.phase = .ready →
    (2 ≤ s.nsym.toNat → ∀ c : Symbol → List Bool,
      (∀ x y, s.freqAt x ≠ 0 → s.freqAt y ≠ 0 → x ≠ y → ¬ c x <+: c y) →
      cost s.freq (fun x => (s.codeAt x).len) ≤ cost s.freq (fun x => (c x).length)) ∧
    (s.nsym.toNat = 1 → ∀ x, s.freqAt x ≠ 0 →
      cost s.freq (fun x => (s.codeAt x).len) = s.freqAt x ∧
      ∀ len : Symbol → Nat, 0 < len x → s.freqAt x ≤ cost s.freq len)

/-- When CodeOverflow can happen (42_code_assigner.md R189): a leaf at depth `L` forces a root weight of at least `F(L + 2)`;
with the default parameters no leaf is deeper than 57 and `ASSIGN` cannot overflow; with other parameters it can. -/
def Obligations.DeepLeafNeedsFibonacciWeight : Prop :=
  (∀ (s : State) (x : Symbol) (e : List Bool), Inv s → s.phase = .tree → s.freqAt x ≠ 0 →
    PathTo s.node s.root e (leafId x) →
    Nat.fib (e.length + 2) ≤ (s.nodeAt s.root).weight ∧
    (s.nodeAt s.root).weight ≤ 256 * (2 ^ s.config.freqW - 1) ∧
    (s.config = Config.default → e.length ≤ 57)) ∧
  (∀ s : State, Inv s → s.phase = .tree → s.config = Config.default →
    ∃ t, exec .assign s = .next t ∧ t.phase = .ready) ∧
  (∃ s t : State, Inv s ∧ s.phase = .tree ∧ exec .assign s = .next t ∧ t.fcode = .codeOverflow)

/-! ### Encoder -/

/-- `ESTART` (43_encoder.md R211): its word; in phase `READY` it clears `BITLEN`, `OSTREAM`, `UNK`, `LOVF` and nothing else; in
another phase it is refused. -/
def Obligations.EstartClearsString : Prop :=
  encode .estart = 0x5000#16 ∧
  (∀ s : State, s.phase = .ready →
    exec .estart s = .next { s with
      bitlen := 0
      ostream := []
      unk := false
      lovf := false
      outbox := s.outbox ++ [⟨.ok, 0, 0⟩] }) ∧
  (∀ s : State, s.phase ≠ .ready → exec .estart s = .next { s with outbox := s.outbox ++ [⟨.errPhase, 0, 0⟩] })

/-- `ENC s` (43_encoder.md R212, R213, R214, R215): its word; in phase `READY` a code within the limit is appended most
significant bit first and its length added; a symbol with no code sets `UNK`; a code that would take `BITLEN` above
`2^BITLEN_W - 1` sets `LOVF`; nothing else changes, and the flags do not stop it; in another phase it is refused. -/
def Obligations.EncAppendsCode : Prop :=
  (∀ x : Symbol, (encode (.enc x)).toNat = 0x6000 + x.toNat) ∧
  ∀ (x : Symbol) (s : State) (len val : Nat), len = (s.codeAt x).len → val = (s.codeAt x).val →
    (s.phase = .ready → len = 0 →
      exec (.enc x) s = .next { s with unk := true, outbox := s.outbox ++ [⟨.errUnknownSymbol, 0, 0⟩] }) ∧
    (s.phase = .ready → 0 < len → 2 ^ s.config.bitlenW - 1 < s.bitlen + len →
      exec (.enc x) s = .next { s with lovf := true, outbox := s.outbox ++ [⟨.errLenOverflow, 0, 0⟩] }) ∧
    (s.phase = .ready → 0 < len → s.bitlen + len ≤ 2 ^ s.config.bitlenW - 1 →
      exec (.enc x) s = .next { s with
        ostream := s.ostream ++ (List.range len).map fun j => val.testBit (len - 1 - j)
        bitlen := s.bitlen + len
        outbox := s.outbox ++ [⟨.ok, val, BitVec.ofNat 32 len⟩] }) ∧
    (s.phase ≠ .ready → exec (.enc x) s = .next { s with outbox := s.outbox ++ [⟨.errPhase, 0, 0⟩] })

/-- `ELEN` (43_encoder.md R216, 20_memory.md R85): its word; in phase `READY` `BITLEN` and `ceil(BITLEN / 8)` with the status
`ERR_UNKNOWN_SYMBOL` if `UNK`, else `ERR_LEN_OVERFLOW` if `LOVF`, else `OK`, and nothing changes; the byte length fits its
field; in another phase it is refused. -/
def Obligations.ElenReadsLengths : Prop :=
  encode .elen = 0x7000#16 ∧
  (∀ s : State, s.phase = .ready →
    exec .elen s = .next { s with
      outbox := s.outbox ++
        [⟨match s.unk, s.lovf with
          | true, _ => .errUnknownSymbol
          | false, true => .errLenOverflow
          | false, false => .ok,
          s.bitlen, BitVec.ofNat 32 ((s.bitlen + 7) / 8)⟩] }) ∧
  (∀ s : State, Inv s →
    (BitVec.ofNat 32 ((s.bitlen + 7) / 8)).toNat = ⌈(s.bitlen : ℚ) / 8⌉₊ ∧ (s.bitlen + 7) / 8 ≤ 2 ^ 29) ∧
  (∀ s : State, s.phase ≠ .ready → exec .elen s = .next { s with outbox := s.outbox ++ [⟨.errPhase, 0, 0⟩] })

/-- The string-level result (43_encoder.md R217). If every byte has a code and the total fits, `ESTART`, the `ENC`s and
`ELEN` answer `OK` throughout, `OSTREAM` is the concatenation of the codes and `BITLEN` the sum of the lengths, whatever
the encoder held before. In general `OSTREAM` and `BITLEN` are the same over the bytes whose `ENC` answered `OK`. -/
def Obligations.StringResultIsConcatenation : Prop :=
  (∀ (s : State) (bytes : List Symbol), s.phase = .ready → (∀ b ∈ bytes, 0 < (s.codeAt b).len) →
    stringLen s.code bytes ≤ 2 ^ s.config.bitlenW - 1 →
    execAll (Pseudo.encs bytes).expand s = .next { s with
      bitlen := stringLen s.code bytes
      ostream := encodeString s.code bytes
      unk := false
      lovf := false
      outbox := s.outbox ++ [⟨.ok, 0, 0⟩] ++
        (bytes.map fun b => (⟨.ok, (s.codeAt b).val, BitVec.ofNat 32 (s.codeAt b).len⟩ : Response)) ++
        [⟨.ok, stringLen s.code bytes, BitVec.ofNat 32 ((stringLen s.code bytes + 7) / 8)⟩] }) ∧
  (∀ (s : State) (bytes : List Symbol), s.phase = .ready →
    ∃ (t : State) (rs : List Response), execAll (.estart :: bytes.map .enc) s = .next t ∧
      t.outbox = s.outbox ++ [⟨.ok, 0, 0⟩] ++ rs ∧ rs.length = bytes.length ∧
      t.ostream = encodeString s.code (((bytes.zip rs).filter fun p => p.2.st = .ok).map Prod.fst) ∧
      t.bitlen = stringLen s.code (((bytes.zip rs).filter fun p => p.2.st = .ok).map Prod.fst) ∧
      (t.unk = true ↔ ∃ r ∈ rs, r.st = .errUnknownSymbol) ∧ (t.lovf = true ↔ ∃ r ∈ rs, r.st = .errLenOverflow))

/-- Round trip (43_encoder.md R222): a string whose bytes all have codes is recovered from its bits by repeatedly removing
the code that matches, at most one code matches at each position, and two different such strings have different bits. -/
def Obligations.StreamDecodesUniquely : Prop :=
  ∀ s : State, Inv s → s.phase = .ready →
    (∀ (q : List Bool) (x y : Symbol), 0 < (s.codeAt x).len → 0 < (s.codeAt y).len →
      (s.codeAt x).bits <+: q → (s.codeAt y).bits <+: q → x = y) ∧
    (∀ bytes : List Symbol, (∀ b ∈ bytes, 0 < (s.codeAt b).len) →
      decodeString s.code bytes.length (encodeString s.code bytes) = some bytes) ∧
    (∀ bytes bytes' : List Symbol, (∀ b ∈ bytes, 0 < (s.codeAt b).len) → (∀ b ∈ bytes', 0 < (s.codeAt b).len) →
      encodeString s.code bytes = encodeString s.code bytes' → bytes = bytes')

/-- `pack` (20_memory.md R64): `ceil(n/8)` bytes, bit `q[i]` in bit `7 - (i mod 8)` of byte `floor(i/8)`, the unused low bits
of the last byte 0. -/
def Obligations.PackFillsFromTheTop : Prop :=
  ∀ q : List Bool, (pack q).length = (q.length + 7) / 8 ∧
    (∀ i, i < q.length → ((pack q).getD (i / 8) 0#8).getLsbD (7 - i % 8) = q.getD i false) ∧
    (∀ i, q.length ≤ i → i < 8 * (pack q).length → ((pack q).getD (i / 8) 0#8).getLsbD (7 - i % 8) = false)

/-! ### Control, ports, text -/

/-- `QSTAT` (44_control_status.md R241, 10_state.md R39): its word; in every phase the status word with `PHASE` in 1:0, `EMPTY`
2, `UNK` 3, `LOVF` 4, `FCODE` 7:5, `NSYM` 16:8, `ROOT` 25:17, zeros above; nothing changes; zero after reset. -/
def Obligations.QstatReadsStatus : Prop :=
  encode .qstat = 0xB000#16 ∧
  (∀ s : State, exec .qstat s = .next { s with
    outbox := s.outbox ++ [⟨.ok, 0,
      BitVec.ofNat 32
        ((match s.phase with | .count => 0 | .tree => 1 | .ready => 2 | .fault => 3) +
          2 ^ 2 * s.empty.toNat + 2 ^ 3 * s.unk.toNat + 2 ^ 4 * s.lovf.toNat +
          2 ^ 5 * (match s.fcode with | .none => 0 | .codeOverflow => 1 | .countOverflow => 2) +
          2 ^ 8 * s.nsym.toNat + 2 ^ 17 * s.root.toNat)⟩] }) ∧
  State.reset.statusWord = 0#32

/-- The block "holds the response and changes no state while waiting" for the host, and accepts nothing meanwhile
(30_encoding.md R95, R96). -/
def Obligations.ResponseIsHeldUntilTaken : Prop :=
  ∀ (b : Block) (p : Pins) (r : Response), b.port = .offering r → p.rst = false →
    b.cmdReady p = false ∧ b.rspValid p = some r ∧
    (p.rspReady = false → b.edge p = b) ∧
    (p.rspReady = true →
      (b.edge p).port = .idle ∧ (b.edge p).state = { b.state with outbox := b.state.outbox ++ [r] })

/-- Reset during a command (70_reset_and_hazards.md R301): from acceptance until delivery, while the block works and while
it offers the response, after any number of edges, reset leaves the reset state and no response of the command; the block
is as if the command had never been sent. The block at its pins is the model's (log 3), and so is that reset keeps the
parameters and the queues (logs 1, 2, 4). -/
def Obligations.ResetAbandonsCommand : Prop :=
  (∀ (b : Block) (q : Pins) (r : Response), (b.port = .working r ∨ b.port = .offering r) → q.rst = true →
    (b.edge q).port = .idle ∧ ElementsZero (b.edge q).state ∧ (b.edge q).state.outbox = b.state.outbox ∧
    b.cmdReady q = false ∧ b.rspValid q = none) ∧
  (∀ (b : Block) (p q : Pins) (ps : List Pins), b.cmdReady p = true → p.cmdValid = true → q.rst = true →
    (∃ r, (b.edge p).port = .working r ∨ (b.edge p).port = .offering r) ∧
    ((∀ x ∈ ps, x.rst = false) → (∀ k ≤ ps.length, ((b.edge p).run (ps.take k)).port ≠ .idle) →
      ((b.edge p).run ps).edge q = b.edge q))

/-- The ports at work are the machine of `step` (30_encoding.md R95), as the model puts them side by side (log 3): over
edges without reset, from idle to idle, the state and the responses are those of stepping through the command words
accepted, in order, each giving exactly one response. -/
def Obligations.PortRunIsStepRun : Prop :=
  ∀ (b : Block) (ps : List Pins), b.port = .idle → (∀ p ∈ ps, p.rst = false) → (b.run ps).port = .idle →
    Host.Core.run Sys2Proof.core (b.accepted ps).length { b.state with inbox := (b.accepted ps).map .command } =
      .next { (b.run ps).state with inbox := [] } ∧
    (b.run ps).state.outbox.length = b.state.outbox.length + (b.accepted ps).length

/-- The canonical run (44_control_status.md R245) with the default parameters: from any state, `CLR`, every byte of a set of
strings counted, `BUILD`, `ASSIGN`, then one of the strings encoded; `ELEN` answers `OK`, and the bits decode to the string
(43_encoder.md R222). -/
def Obligations.CanonicalRunDecodes : Prop :=
  ∀ (s : State) (strings : List (List Symbol)) (e : List Symbol), s.config = Config.default → e ∈ strings →
    (∀ x, strings.flatten.count x ≤ 2 ^ 32 - 1) → 57 * e.length ≤ 2 ^ 32 - 1 →
    ∃ t : State,
      execAll (.clr :: (strings.flatMap fun b => (Pseudo.cnts b).expand) ++ Pseudo.make.expand ++ (Pseudo.encs e).expand) s
        = .next t ∧
      t.phase = .ready ∧ t.bitlen = t.ostream.length ∧
      t.outbox.getLast? = some ⟨.ok, t.bitlen, BitVec.ofNat 32 ((t.bitlen + 7) / 8)⟩ ∧
      decodeString t.code e.length t.ostream = some e

/-- The expansions of the pseudo-commands (30_encoding.md R109), as words: `CNTS` one `CNT` per byte, `ENCS` an `ESTART`, one
`ENC` per byte and an `ELEN`, `MAKE` a `BUILD` and an `ASSIGN`. -/
def Obligations.PseudoCommandsExpand : Prop :=
  (∀ bytes : List Symbol,
    ((Pseudo.cnts bytes).expand.map encode).map BitVec.toNat = bytes.map fun b => 0x2000 + b.toNat) ∧
  (∀ bytes : List Symbol, ((Pseudo.encs bytes).expand.map encode).map BitVec.toNat =
    0x5000 :: (bytes.map fun b => 0x6000 + b.toNat) ++ [0x7000]) ∧
  Pseudo.make.expand.map encode = [0x3000#16, 0x4000#16]

/-- A command written in text, mnemonic in capitals and operand in decimal, reads back as that command (30_encoding.md
R108). -/
def Obligations.TextReadsBack : Prop :=
  ∀ i : Instr, i.wellFormed = true → assembleLine (commandText i) = some [i]
end

