-- ==== Sys2Proof/Laws/State.lean ====
section
/-! SUPPORT. One lemma per field per update of State, and the fields of the reset state. -/

namespace Sys2Proof.Machine

@[simp] theorem State.respond_phase (s : State) (st : Status) (v : Nat) (a : Aux) : (s.respond st v a).phase = s.phase := rfl
@[simp] theorem State.respond_freq (s : State) (st : Status) (v : Nat) (a : Aux) : (s.respond st v a).freq = s.freq := rfl
@[simp] theorem State.respond_node (s : State) (st : Status) (v : Nat) (a : Aux) : (s.respond st v a).node = s.node := rfl
@[simp] theorem State.respond_root (s : State) (st : Status) (v : Nat) (a : Aux) : (s.respond st v a).root = s.root := rfl
@[simp] theorem State.respond_nsym (s : State) (st : Status) (v : Nat) (a : Aux) : (s.respond st v a).nsym = s.nsym := rfl
@[simp] theorem State.respond_empty (s : State) (st : Status) (v : Nat) (a : Aux) : (s.respond st v a).empty = s.empty := rfl
@[simp] theorem State.respond_code (s : State) (st : Status) (v : Nat) (a : Aux) : (s.respond st v a).code = s.code := rfl
@[simp] theorem State.respond_bitlen (s : State) (st : Status) (v : Nat) (a : Aux) : (s.respond st v a).bitlen = s.bitlen := rfl
@[simp] theorem State.respond_ostream (s : State) (st : Status) (v : Nat) (a : Aux) : (s.respond st v a).ostream = s.ostream := rfl
@[simp] theorem State.respond_unk (s : State) (st : Status) (v : Nat) (a : Aux) : (s.respond st v a).unk = s.unk := rfl
@[simp] theorem State.respond_lovf (s : State) (st : Status) (v : Nat) (a : Aux) : (s.respond st v a).lovf = s.lovf := rfl
@[simp] theorem State.respond_fcode (s : State) (st : Status) (v : Nat) (a : Aux) : (s.respond st v a).fcode = s.fcode := rfl
@[simp] theorem State.respond_config (s : State) (st : Status) (v : Nat) (a : Aux) : (s.respond st v a).config = s.config := rfl
@[simp] theorem State.respond_inbox (s : State) (st : Status) (v : Nat) (a : Aux) : (s.respond st v a).inbox = s.inbox := rfl
@[simp] theorem State.respond_outbox (s : State) (st : Status) (v : Nat) (a : Aux) : (s.respond st v a).outbox = s.outbox ++ [⟨st, v, a⟩] := rfl

@[simp] theorem State.raise_phase (s : State) (st : Status) : (s.raise st).phase = s.phase := rfl
@[simp] theorem State.raise_freq (s : State) (st : Status) : (s.raise st).freq = s.freq := rfl
@[simp] theorem State.raise_node (s : State) (st : Status) : (s.raise st).node = s.node := rfl
@[simp] theorem State.raise_root (s : State) (st : Status) : (s.raise st).root = s.root := rfl
@[simp] theorem State.raise_nsym (s : State) (st : Status) : (s.raise st).nsym = s.nsym := rfl
@[simp] theorem State.raise_empty (s : State) (st : Status) : (s.raise st).empty = s.empty := rfl
@[simp] theorem State.raise_code (s : State) (st : Status) : (s.raise st).code = s.code := rfl
@[simp] theorem State.raise_bitlen (s : State) (st : Status) : (s.raise st).bitlen = s.bitlen := rfl
@[simp] theorem State.raise_ostream (s : State) (st : Status) : (s.raise st).ostream = s.ostream := rfl
@[simp] theorem State.raise_unk (s : State) (st : Status) : (s.raise st).unk = s.unk := rfl
@[simp] theorem State.raise_lovf (s : State) (st : Status) : (s.raise st).lovf = s.lovf := rfl
@[simp] theorem State.raise_fcode (s : State) (st : Status) : (s.raise st).fcode = s.fcode := rfl
@[simp] theorem State.raise_config (s : State) (st : Status) : (s.raise st).config = s.config := rfl
@[simp] theorem State.raise_inbox (s : State) (st : Status) : (s.raise st).inbox = s.inbox := rfl
@[simp] theorem State.raise_outbox (s : State) (st : Status) : (s.raise st).outbox = s.outbox ++ [⟨st, 0, 0⟩] := rfl

@[simp] theorem State.enterFault_phase (s : State) (c : FCode) : (s.enterFault c).phase = .fault := rfl
@[simp] theorem State.enterFault_freq (s : State) (c : FCode) : (s.enterFault c).freq = s.freq := rfl
@[simp] theorem State.enterFault_node (s : State) (c : FCode) : (s.enterFault c).node = s.node := rfl
@[simp] theorem State.enterFault_root (s : State) (c : FCode) : (s.enterFault c).root = s.root := rfl
@[simp] theorem State.enterFault_nsym (s : State) (c : FCode) : (s.enterFault c).nsym = s.nsym := rfl
@[simp] theorem State.enterFault_empty (s : State) (c : FCode) : (s.enterFault c).empty = s.empty := rfl
@[simp] theorem State.enterFault_code (s : State) (c : FCode) : (s.enterFault c).code = s.code := rfl
@[simp] theorem State.enterFault_bitlen (s : State) (c : FCode) : (s.enterFault c).bitlen = s.bitlen := rfl
@[simp] theorem State.enterFault_ostream (s : State) (c : FCode) : (s.enterFault c).ostream = s.ostream := rfl
@[simp] theorem State.enterFault_unk (s : State) (c : FCode) : (s.enterFault c).unk = s.unk := rfl
@[simp] theorem State.enterFault_lovf (s : State) (c : FCode) : (s.enterFault c).lovf = s.lovf := rfl
@[simp] theorem State.enterFault_fcode (s : State) (c : FCode) : (s.enterFault c).fcode = c := rfl
@[simp] theorem State.enterFault_config (s : State) (c : FCode) : (s.enterFault c).config = s.config := rfl
@[simp] theorem State.enterFault_inbox (s : State) (c : FCode) : (s.enterFault c).inbox = s.inbox := rfl
@[simp] theorem State.enterFault_outbox (s : State) (c : FCode) : (s.enterFault c).outbox = s.outbox := rfl

@[simp] theorem State.clear_phase (s : State) : (s.clear).phase = .count := rfl
@[simp] theorem State.clear_freq (s : State) : (s.clear).freq = FreqTable.cleared := rfl
@[simp] theorem State.clear_node (s : State) : (s.clear).node = Arena.cleared := rfl
@[simp] theorem State.clear_root (s : State) : (s.clear).root = 0 := rfl
@[simp] theorem State.clear_nsym (s : State) : (s.clear).nsym = 0 := rfl
@[simp] theorem State.clear_empty (s : State) : (s.clear).empty = false := rfl
@[simp] theorem State.clear_code (s : State) : (s.clear).code = CodeTable.cleared := rfl
@[simp] theorem State.clear_bitlen (s : State) : (s.clear).bitlen = 0 := rfl
@[simp] theorem State.clear_ostream (s : State) : (s.clear).ostream = [] := rfl
@[simp] theorem State.clear_unk (s : State) : (s.clear).unk = false := rfl
@[simp] theorem State.clear_lovf (s : State) : (s.clear).lovf = false := rfl
@[simp] theorem State.clear_fcode (s : State) : (s.clear).fcode = .none := rfl
@[simp] theorem State.clear_config (s : State) : (s.clear).config = s.config := rfl
@[simp] theorem State.clear_inbox (s : State) : (s.clear).inbox = s.inbox := rfl
@[simp] theorem State.clear_outbox (s : State) : (s.clear).outbox = s.outbox := rfl

@[simp] theorem State.pop_phase (s : State) : (s.pop).phase = s.phase := rfl
@[simp] theorem State.pop_freq (s : State) : (s.pop).freq = s.freq := rfl
@[simp] theorem State.pop_node (s : State) : (s.pop).node = s.node := rfl
@[simp] theorem State.pop_root (s : State) : (s.pop).root = s.root := rfl
@[simp] theorem State.pop_nsym (s : State) : (s.pop).nsym = s.nsym := rfl
@[simp] theorem State.pop_empty (s : State) : (s.pop).empty = s.empty := rfl
@[simp] theorem State.pop_code (s : State) : (s.pop).code = s.code := rfl
@[simp] theorem State.pop_bitlen (s : State) : (s.pop).bitlen = s.bitlen := rfl
@[simp] theorem State.pop_ostream (s : State) : (s.pop).ostream = s.ostream := rfl
@[simp] theorem State.pop_unk (s : State) : (s.pop).unk = s.unk := rfl
@[simp] theorem State.pop_lovf (s : State) : (s.pop).lovf = s.lovf := rfl
@[simp] theorem State.pop_fcode (s : State) : (s.pop).fcode = s.fcode := rfl
@[simp] theorem State.pop_config (s : State) : (s.pop).config = s.config := rfl
@[simp] theorem State.pop_inbox (s : State) : (s.pop).inbox = s.inbox.tail := rfl
@[simp] theorem State.pop_outbox (s : State) : (s.pop).outbox = s.outbox := rfl

@[simp] theorem State.setFreq_phase (s : State) (x : Symbol) (v : Nat) : (s.setFreq x v).phase = s.phase := rfl
@[simp] theorem State.setFreq_freq (s : State) (x : Symbol) (v : Nat) : (s.setFreq x v).freq = writeSym s.freq x v := rfl
@[simp] theorem State.setFreq_node (s : State) (x : Symbol) (v : Nat) : (s.setFreq x v).node = s.node := rfl
@[simp] theorem State.setFreq_root (s : State) (x : Symbol) (v : Nat) : (s.setFreq x v).root = s.root := rfl
@[simp] theorem State.setFreq_nsym (s : State) (x : Symbol) (v : Nat) : (s.setFreq x v).nsym = s.nsym := rfl
@[simp] theorem State.setFreq_empty (s : State) (x : Symbol) (v : Nat) : (s.setFreq x v).empty = s.empty := rfl
@[simp] theorem State.setFreq_code (s : State) (x : Symbol) (v : Nat) : (s.setFreq x v).code = s.code := rfl
@[simp] theorem State.setFreq_bitlen (s : State) (x : Symbol) (v : Nat) : (s.setFreq x v).bitlen = s.bitlen := rfl
@[simp] theorem State.setFreq_ostream (s : State) (x : Symbol) (v : Nat) : (s.setFreq x v).ostream = s.ostream := rfl
@[simp] theorem State.setFreq_unk (s : State) (x : Symbol) (v : Nat) : (s.setFreq x v).unk = s.unk := rfl
@[simp] theorem State.setFreq_lovf (s : State) (x : Symbol) (v : Nat) : (s.setFreq x v).lovf = s.lovf := rfl
@[simp] theorem State.setFreq_fcode (s : State) (x : Symbol) (v : Nat) : (s.setFreq x v).fcode = s.fcode := rfl
@[simp] theorem State.setFreq_config (s : State) (x : Symbol) (v : Nat) : (s.setFreq x v).config = s.config := rfl
@[simp] theorem State.setFreq_inbox (s : State) (x : Symbol) (v : Nat) : (s.setFreq x v).inbox = s.inbox := rfl
@[simp] theorem State.setFreq_outbox (s : State) (x : Symbol) (v : Nat) : (s.setFreq x v).outbox = s.outbox := rfl

@[simp] theorem State.setTree_phase (s : State) (t : Tree) : (s.setTree t).phase = .tree := rfl
@[simp] theorem State.setTree_freq (s : State) (t : Tree) : (s.setTree t).freq = s.freq := rfl
@[simp] theorem State.setTree_node (s : State) (t : Tree) : (s.setTree t).node = t.node := rfl
@[simp] theorem State.setTree_root (s : State) (t : Tree) : (s.setTree t).root = t.root := rfl
@[simp] theorem State.setTree_nsym (s : State) (t : Tree) : (s.setTree t).nsym = t.nsym := rfl
@[simp] theorem State.setTree_empty (s : State) (t : Tree) : (s.setTree t).empty = t.empty := rfl
@[simp] theorem State.setTree_code (s : State) (t : Tree) : (s.setTree t).code = s.code := rfl
@[simp] theorem State.setTree_bitlen (s : State) (t : Tree) : (s.setTree t).bitlen = s.bitlen := rfl
@[simp] theorem State.setTree_ostream (s : State) (t : Tree) : (s.setTree t).ostream = s.ostream := rfl
@[simp] theorem State.setTree_unk (s : State) (t : Tree) : (s.setTree t).unk = s.unk := rfl
@[simp] theorem State.setTree_lovf (s : State) (t : Tree) : (s.setTree t).lovf = s.lovf := rfl
@[simp] theorem State.setTree_fcode (s : State) (t : Tree) : (s.setTree t).fcode = s.fcode := rfl
@[simp] theorem State.setTree_config (s : State) (t : Tree) : (s.setTree t).config = s.config := rfl
@[simp] theorem State.setTree_inbox (s : State) (t : Tree) : (s.setTree t).inbox = s.inbox := rfl
@[simp] theorem State.setTree_outbox (s : State) (t : Tree) : (s.setTree t).outbox = s.outbox := rfl

@[simp] theorem State.discardTree_phase (s : State) : (s.discardTree).phase = s.phase := rfl
@[simp] theorem State.discardTree_freq (s : State) : (s.discardTree).freq = s.freq := rfl
@[simp] theorem State.discardTree_node (s : State) : (s.discardTree).node = Arena.cleared := rfl
@[simp] theorem State.discardTree_root (s : State) : (s.discardTree).root = 0 := rfl
@[simp] theorem State.discardTree_nsym (s : State) : (s.discardTree).nsym = s.nsym := rfl
@[simp] theorem State.discardTree_empty (s : State) : (s.discardTree).empty = s.empty := rfl
@[simp] theorem State.discardTree_code (s : State) : (s.discardTree).code = s.code := rfl
@[simp] theorem State.discardTree_bitlen (s : State) : (s.discardTree).bitlen = s.bitlen := rfl
@[simp] theorem State.discardTree_ostream (s : State) : (s.discardTree).ostream = s.ostream := rfl
@[simp] theorem State.discardTree_unk (s : State) : (s.discardTree).unk = s.unk := rfl
@[simp] theorem State.discardTree_lovf (s : State) : (s.discardTree).lovf = s.lovf := rfl
@[simp] theorem State.discardTree_fcode (s : State) : (s.discardTree).fcode = s.fcode := rfl
@[simp] theorem State.discardTree_config (s : State) : (s.discardTree).config = s.config := rfl
@[simp] theorem State.discardTree_inbox (s : State) : (s.discardTree).inbox = s.inbox := rfl
@[simp] theorem State.discardTree_outbox (s : State) : (s.discardTree).outbox = s.outbox := rfl

@[simp] theorem State.emit_phase (s : State) (e : CodeEntry) : (s.emit e).phase = s.phase := rfl
@[simp] theorem State.emit_freq (s : State) (e : CodeEntry) : (s.emit e).freq = s.freq := rfl
@[simp] theorem State.emit_node (s : State) (e : CodeEntry) : (s.emit e).node = s.node := rfl
@[simp] theorem State.emit_root (s : State) (e : CodeEntry) : (s.emit e).root = s.root := rfl
@[simp] theorem State.emit_nsym (s : State) (e : CodeEntry) : (s.emit e).nsym = s.nsym := rfl
@[simp] theorem State.emit_empty (s : State) (e : CodeEntry) : (s.emit e).empty = s.empty := rfl
@[simp] theorem State.emit_code (s : State) (e : CodeEntry) : (s.emit e).code = s.code := rfl
@[simp] theorem State.emit_bitlen (s : State) (e : CodeEntry) : (s.emit e).bitlen = s.bitlen + e.len := rfl
@[simp] theorem State.emit_ostream (s : State) (e : CodeEntry) : (s.emit e).ostream = s.ostream ++ e.bits := rfl
@[simp] theorem State.emit_unk (s : State) (e : CodeEntry) : (s.emit e).unk = s.unk := rfl
@[simp] theorem State.emit_lovf (s : State) (e : CodeEntry) : (s.emit e).lovf = s.lovf := rfl
@[simp] theorem State.emit_fcode (s : State) (e : CodeEntry) : (s.emit e).fcode = s.fcode := rfl
@[simp] theorem State.emit_config (s : State) (e : CodeEntry) : (s.emit e).config = s.config := rfl
@[simp] theorem State.emit_inbox (s : State) (e : CodeEntry) : (s.emit e).inbox = s.inbox := rfl
@[simp] theorem State.emit_outbox (s : State) (e : CodeEntry) : (s.emit e).outbox = s.outbox := rfl

@[simp] theorem State.reset_phase : State.reset.phase = .count := rfl
@[simp] theorem State.reset_freq : State.reset.freq = FreqTable.cleared := rfl
@[simp] theorem State.reset_node : State.reset.node = Arena.cleared := rfl
@[simp] theorem State.reset_root : State.reset.root = 0 := rfl
@[simp] theorem State.reset_nsym : State.reset.nsym = 0 := rfl
@[simp] theorem State.reset_empty : State.reset.empty = false := rfl
@[simp] theorem State.reset_code : State.reset.code = CodeTable.cleared := rfl
@[simp] theorem State.reset_bitlen : State.reset.bitlen = 0 := rfl
@[simp] theorem State.reset_ostream : State.reset.ostream = [] := rfl
@[simp] theorem State.reset_unk : State.reset.unk = false := rfl
@[simp] theorem State.reset_lovf : State.reset.lovf = false := rfl
@[simp] theorem State.reset_fcode : State.reset.fcode = .none := rfl
@[simp] theorem State.reset_config : State.reset.config = Config.default := rfl
@[simp] theorem State.reset_inbox : State.reset.inbox = [] := rfl
@[simp] theorem State.reset_outbox : State.reset.outbox = [] := rfl

/-- Reset as an event is the same update as `CLR`'s (70_reset_and_hazards.md R300). -/
@[simp] theorem State.takeReset_eq (s : State) : s.takeReset = s.clear := rfl

/-- An illegal word is a raised `ERR_ILLEGAL`. -/
@[simp] theorem State.refuseIllegal_eq (s : State) : s.refuseIllegal = s.raise .errIllegal := rfl

/-- A response changes no element of state. -/
theorem respond_sameElements (s : State) (st : Status) (v : Nat) (a : Aux) : SameElements s (s.respond st v a) := by
  constructor <;> rfl

theorem SameElements.refl (s : State) : SameElements s s := by constructor <;> rfl

theorem SameElements.trans {s t u : State} (h : SameElements s t) (k : SameElements t u) : SameElements s u :=
  ⟨k.phase.trans h.phase, k.freq.trans h.freq, k.node.trans h.node, k.root.trans h.root, k.nsym.trans h.nsym,
    k.empty.trans h.empty, k.code.trans h.code, k.bitlen.trans h.bitlen, k.ostream.trans h.ostream, k.unk.trans h.unk,
    k.lovf.trans h.lovf, k.fcode.trans h.fcode⟩

end Sys2Proof.Machine
end

