-- ==== Sys2Proof/Laws/Tables.lean ====
section
/-! SUPPORT. Reading and writing the three arrays; the symbols, leaf ids and internal ids. -/

namespace Sys2Proof.Machine

section Sym
variable {α : Type} (t : Vector α 256)

@[simp] theorem readSym_writeSym_self (x : Symbol) (v : α) : readSym (writeSym t x v) x = v := by
  simp [readSym, writeSym]

theorem readSym_writeSym_ne {x y : Symbol} (h : x ≠ y) (v : α) : readSym (writeSym t x v) y = readSym t y := by
  have hn : x.toNat ≠ y.toNat := fun e => h (BitVec.eq_of_toNat_eq e)
  simp [readSym, writeSym, Vector.getElem_set_ne _ _ hn]

theorem readSym_writeSym (x y : Symbol) (v : α) :
    readSym (writeSym t x v) y = if x = y then v else readSym t y := by
  split
  · next h => subst h; simp
  · next h => exact readSym_writeSym_ne t h v

theorem readSym_mem (x : Symbol) : readSym t x ∈ t.toList := by
  simp [readSym]

/-- A bound on every entry, checked along the table. -/
theorem readSym_lt {t : FreqTable} {m : Nat} (h : ∀ v ∈ t.toList, v < m) (x : Symbol) : readSym t x < m :=
  h _ (readSym_mem t x)

/-- Two tables with the same entries are the same table. -/
theorem table_ext {t u : Vector α 256} (h : ∀ x, readSym t x = readSym u x) : t = u := by
  ext i hi
  have := h (BitVec.ofNat 8 i)
  have e : (BitVec.ofNat 8 i).toNat = i := by simp; omega
  simpa [readSym, e] using this

end Sym

@[simp] theorem readSym_freq_cleared (x : Symbol) : readSym FreqTable.cleared x = 0 := by
  simp [readSym, FreqTable.cleared]

@[simp] theorem readSym_code_cleared (x : Symbol) : readSym CodeTable.cleared x = CodeEntry.zero := by
  simp [readSym, CodeTable.cleared]

@[simp] theorem Arena.read_cleared (i : NodeId) : Arena.read Arena.cleared i = Node.invalid := by
  simp [Arena.read, Arena.cleared]

theorem Arena.read_write_self (a : Arena) {i : NodeId} (h : i.toNat < 511) (n : Node) :
    (a.write i n).read i = n := by
  simp [Arena.read, Arena.write, h]

theorem Arena.read_write_ne (a : Arena) {i j : NodeId} (h : i ≠ j) (n : Node) : (a.write i n).read j = a.read j := by
  have hn : i.toNat ≠ j.toNat := fun e => h (BitVec.eq_of_toNat_eq e)
  unfold Arena.read Arena.write
  split
  · split
    · rw [Vector.getElem_set_ne _ _ hn]
    · rfl
  · rfl

theorem Arena.read_write (a : Arena) {i : NodeId} (h : i.toNat < 511) (j : NodeId) (n : Node) :
    (a.write i n).read j = if i = j then n else a.read j := by
  split
  · next e => subst e; exact a.read_write_self h n
  · next e => exact a.read_write_ne e n

/-- Two arenas with the same slots are the same arena. -/
theorem arena_ext {a b : Arena} (h : ∀ i, Arena.read a i = Arena.read b i) : a = b := by
  ext i hi
  have := h (BitVec.ofNat 9 i)
  have e : (BitVec.ofNat 9 i).toNat = i := by simp; omega
  simpa [Arena.read, e, hi] using this

@[simp] theorem mem_allSymbols (x : Symbol) : x ∈ allSymbols := by
  have hx : x.toNat < 256 := x.isLt
  exact List.mem_map.2 ⟨x.toNat, List.mem_range.2 hx, by simp⟩

theorem allSymbols_nodup : allSymbols.Nodup := by
  refine List.Nodup.map_on ?_ List.nodup_range
  intro a ha b hb e
  have ha' := List.mem_range.1 ha
  have hb' := List.mem_range.1 hb
  have := congrArg BitVec.toNat e
  simp at this
  omega

@[simp] theorem allSymbols_length : allSymbols.length = 256 := by simp [allSymbols]

/-- The scan of `BUILD` finds the symbols of nonzero frequency, ascending (41_tree_builder.md R152, R153). -/
theorem present_eq_counted (f : FreqTable) : present f = counted f := by
  have hz : f.toList.zipIdx = (List.range 256).map fun i => (readSym f (BitVec.ofNat 8 i), i) := by
    apply List.ext_getElem
    · simp
    · intro i h1 h2
      have hi : i < 256 := by simpa using h2
      have e : i % 256 = i := Nat.mod_eq_of_lt hi
      simp [readSym, e]
  rw [present, hz, counted, allSymbols, List.filter_map, List.filter_map, List.map_map]
  rfl

@[simp] theorem mem_counted (f : FreqTable) (x : Symbol) : x ∈ counted f ↔ readSym f x ≠ 0 := by
  simp [counted]

@[simp] theorem mem_present (f : FreqTable) (x : Symbol) : x ∈ present f ↔ readSym f x ≠ 0 := by
  rw [present_eq_counted, mem_counted]

theorem present_nodup (f : FreqTable) : (present f).Nodup := by
  rw [present_eq_counted]
  exact allSymbols_nodup.filter _

theorem present_length_le (f : FreqTable) : (present f).length ≤ 256 := by
  rw [present_eq_counted]
  exact (List.length_filter_le _ allSymbols).trans_eq allSymbols_length

@[simp] theorem leafId_toNat (x : Symbol) : (leafId x).toNat = x.toNat := by
  have : x.toNat < 256 := x.isLt
  simp [leafId]
  omega

theorem leafId_injective {x y : Symbol} (h : leafId x = leafId y) : x = y := by
  apply BitVec.eq_of_toNat_eq
  simpa using congrArg BitVec.toNat h

theorem leafId_lt (x : Symbol) : (leafId x).toNat < 256 := by
  rw [leafId_toNat]
  exact x.isLt

theorem innerId_toNat {k : Nat} (h : k < 256) : (innerId k).toNat = 256 + k := by
  simp [innerId]
  omega

theorem innerId_ne_leafId {k : Nat} (h : k < 256) (x : Symbol) : innerId k ≠ leafId x := by
  intro e
  have h1 := innerId_toNat h
  have h2 := leafId_lt x
  rw [e] at h1
  omega

end Sys2Proof.Machine
end

