-- ==== Sys2Proof/Laws/Codes.lean ====
section
/-! SUPPORT. The bits of a code, the traversal, and packing. -/

namespace Sys2Proof.Machine

@[simp] theorem msbFirst_length (n v : Nat) : (msbFirst n v).length = n := by
  induction n with
  | zero => rfl
  | succ n ih => simp [msbFirst, ih]

/-- The `j`-th bit emitted is bit `n - 1 - j` of the value (43_encoder.md R215). -/
theorem msbFirst_getElem (n v j : Nat) (h : j < (msbFirst n v).length) :
    (msbFirst n v)[j] = v.testBit (n - 1 - j) := by
  induction n generalizing j with
  | zero => simp at h
  | succ n ih =>
    cases j with
    | zero => simp [msbFirst]
    | succ j =>
      have hj : j < (msbFirst n v).length := by simpa using h
      have e : n - (j + 1) = n - 1 - j := by omega
      simp [msbFirst, ih j hj, e]

@[simp] theorem bits_length (e : CodeEntry) : e.bits.length = e.len := msbFirst_length _ _

theorem walk_leaf {arena : Arena} {i : NodeId} (hv : (arena.read i).valid = true) (hl : (arena.read i).leaf = true)
    (fuel v l : Nat) : walk (fuel + 1) arena i v l = [⟨(arena.read i).sym, v, l⟩] := by
  simp [walk, hv, hl]

theorem walk_inner {arena : Arena} {i : NodeId} (hv : (arena.read i).valid = true) (hl : (arena.read i).leaf = false)
    (fuel v l : Nat) :
    walk (fuel + 1) arena i v l =
      walk fuel arena (arena.read i).left (2 * v) (l + 1) ++
        walk fuel arena (arena.read i).right (2 * v + 1) (l + 1) := by
  simp [walk, hv, hl]

/-- `ASSIGN`'s records when the root is a leaf (42_code_assigner.md R182). -/
theorem leafCodes_sole {arena : Arena} {root : NodeId} (h : (arena.read root).leaf = true) :
    leafCodes arena root = [⟨(arena.read root).sym, 0, 1⟩] := by
  simp [leafCodes, h]

theorem maxDepth_sole {arena : Arena} {root : NodeId} (h : (arena.read root).leaf = true) :
    maxDepth arena root = 0 := by
  simp [maxDepth, h]

/-- Every value recorded fits its length (20_memory.md R83). -/
theorem walk_val_lt {arena : Arena} {c : LeafCode} (fuel : Nat) {i : NodeId} {v l : Nat} (h : v < 2 ^ l)
    (hc : c ∈ walk fuel arena i v l) : c.val < 2 ^ c.len := by
  induction fuel generalizing i v l with
  | zero => simp [walk] at hc
  | succ fuel ih =>
    simp only [walk] at hc
    split at hc
    · simp at hc
    · split at hc
      · obtain rfl : c = ⟨(arena.read i).sym, v, l⟩ := by simpa using hc
        exact h
      · have h0 : 2 * v < 2 ^ (l + 1) := by rw [pow_succ]; omega
        have h1 : 2 * v + 1 < 2 ^ (l + 1) := by rw [pow_succ]; omega
        rcases List.mem_append.1 hc with hc | hc
        · exact ih h0 hc
        · exact ih h1 hc

/-- A symbol no record names keeps its entry; the table starts all zero (42_code_assigner.md R181). -/
theorem tableOf_absent {codes : List LeafCode} {x : Symbol} (h : ∀ c ∈ codes, c.sym ≠ x) :
    readSym (tableOf codes) x = CodeEntry.zero := by
  have gen : ∀ t : CodeTable,
      readSym (codes.foldl (fun t c => writeSym t c.sym ⟨c.len, c.val⟩) t) x = readSym t x := by
    induction codes with
    | nil => intro t; rfl
    | cons c cs ih =>
      intro t
      rw [List.foldl_cons, ih fun d hd => h d (.tail _ hd), readSym_writeSym_ne t (h c (.head _))]
  rw [tableOf, gen, readSym_code_cleared]

end Sys2Proof.Machine
end

