-- ==== Sys2Proof/Laws/Decode.lean ====
section
/-! SUPPORT. The fields of a command word, and the opcode table's rows. -/

namespace Sys2Proof

/-- A word is its three fields, `op` and `rsv` and `opd` (30_encoding.md R91). -/
theorem word_eq_fields (w : CmdWord) : fieldOp w ++ fieldRsv w ++ fieldOpd w = w := by
  ext i hi
  simp only [fieldOp, fieldRsv, fieldOpd, BitVec.getElem_append, BitVec.getElem_extractLsb']
  split
  · simp [← BitVec.getLsbD_eq_getElem]
  · split
    · rw [← BitVec.getLsbD_eq_getElem]; congr 1; omega
    · rw [← BitVec.getLsbD_eq_getElem]; congr 1; omega

theorem fieldOp_append (a : BitVec 4) (b : BitVec 3) (c : BitVec 9) : fieldOp (a ++ b ++ c) = a := by
  ext i hi
  have h1 : ¬ 12 + i < 9 := by omega
  have h2 : ¬ 12 + i - 9 < 3 := by omega
  simp only [fieldOp, BitVec.getElem_extractLsb', BitVec.getLsbD_append, h1, h2, if_false]
  rw [← BitVec.getLsbD_eq_getElem]
  exact congrArg a.getLsbD (by omega)

theorem fieldRsv_append (a : BitVec 4) (b : BitVec 3) (c : BitVec 9) : fieldRsv (a ++ b ++ c) = b := by
  ext i hi
  have h1 : ¬ 9 + i < 9 := by omega
  have h2 : 9 + i - 9 < 3 := by omega
  simp only [fieldRsv, BitVec.getElem_extractLsb', BitVec.getLsbD_append, h1, h2, if_false, if_true]
  rw [← BitVec.getLsbD_eq_getElem]
  exact congrArg b.getLsbD (by omega)

theorem fieldOpd_append (a : BitVec 4) (b : BitVec 3) (c : BitVec 9) : fieldOpd (a ++ b ++ c) = c := by
  ext i hi
  have h1 : 0 + i < 9 := by omega
  simp only [fieldOpd, BitVec.getElem_extractLsb', BitVec.getLsbD_append, h1, if_true]
  rw [← BitVec.getLsbD_eq_getElem]
  exact congrArg c.getLsbD (by omega)

@[simp] theorem fieldOp_encode (i : Instr) : fieldOp (encode i) = opcodeOf i := fieldOp_append _ _ _

@[simp] theorem fieldRsv_encode (i : Instr) : fieldRsv (encode i) = 0#3 := fieldRsv_append _ _ _

@[simp] theorem fieldOpd_encode (i : Instr) : fieldOpd (encode i) = operandOf i := fieldOpd_append _ _ _

/-- No word belongs to two rows of the opcode table. -/
theorem opcodeTable_disjoint :
    opcodeTable.Pairwise fun r r' => (r.pattern &&& (r.mask &&& r'.mask)) ≠ (r'.pattern &&& (r.mask &&& r'.mask)) := by
  decide

end Sys2Proof
end

