-- ==== Sys2Proof/Laws/Exec.lean ====
section
/-! SUPPORT. What the shared phase gate and `exec` can do, said once. -/

namespace Sys2Proof.Machine

theorem gated_legal {i : Instr} {s : State} (h : legalIn i s.phase = true) (t : State) : gated i s t = .next t := by
  simp [gated, h]

theorem gated_refused {i : Instr} {s : State} (h : legalIn i s.phase = false) (t : State) :
    gated i s t = .next (s.raise .errPhase) := by
  simp [gated, h]

/-- All the gate can do. -/
theorem gated_cases {i : Instr} {s t u : State} (h : gated i s t = .next u) :
    (legalIn i s.phase = true ∧ u = t) ∨ (legalIn i s.phase = false ∧ u = s.raise .errPhase) := by
  unfold gated at h
  split at h
  · next hl => exact .inl ⟨hl, by cases h; rfl⟩
  · next hl => exact .inr ⟨by simpa using hl, by cases h; rfl⟩

/-- A command's own work, done in a legal phase. -/
def effect : Instr → State → State
  | .clr, s => s.clear.respond .ok 0 0
  | .cnt x, s => s.countByte x
  | .build, s => s.build
  | .assign, s => s.assign
  | .estart, s => s.startString
  | .enc x, s => s.encodeByte x
  | .elen, s => s.respond s.elenStatus s.bitlen (BitVec.ofNat 32 (byteLen s.bitlen))
  | .qfreq x, s => s.respond .ok (s.freqAt x) 0
  | .qnode i, s => s.respond .ok (s.nodeAt i).weight (s.nodeAt i).word
  | .qcode x, s => s.respond .ok (s.codeAt x).val (BitVec.ofNat 32 (s.codeAt x).len)
  | .qstat, s => s.respond .ok 0 s.statusWord

/-- A well-formed command is its work behind the phase gate. -/
theorem exec_eq_gated {i : Instr} (h : i.wellFormed = true) (s : State) : exec i s = gated i s (effect i s) := by
  cases i with
  | qnode n =>
    have hn : n ≠ 511#9 := by simpa [Instr.wellFormed] using h
    simp [exec, execQnode, effect, hn]
  | _ => rfl

/-- The one form that is not well formed is answered as an illegal word. -/
theorem exec_not_wellFormed {i : Instr} (h : i.wellFormed = false) (s : State) :
    exec i s = .next (s.raise .errIllegal) := by
  cases i with
  | qnode n =>
    have hn : n = 511#9 := by simpa [Instr.wellFormed] using h
    simp [exec, execQnode, hn]
  | _ => exact absurd h (by simp [Instr.wellFormed])

theorem exec_legal {i : Instr} {s : State} (hw : i.wellFormed = true) (hl : legalIn i s.phase = true) :
    exec i s = .next (effect i s) := by
  rw [exec_eq_gated hw, gated_legal hl]

/-- All a command can do. -/
theorem exec_cases {i : Instr} {s t : State} (h : exec i s = .next t) :
    (i.wellFormed = true ∧ legalIn i s.phase = true ∧ t = effect i s) ∨
    (i.wellFormed = true ∧ legalIn i s.phase = false ∧ t = s.raise .errPhase) ∨
    (i.wellFormed = false ∧ t = s.raise .errIllegal) := by
  cases hw : i.wellFormed with
  | true =>
    rw [exec_eq_gated hw] at h
    rcases gated_cases h with ⟨hl, e⟩ | ⟨hl, e⟩
    · exact .inl ⟨rfl, hl, e⟩
    · exact .inr (.inl ⟨rfl, hl, e⟩)
  | false =>
    rw [exec_not_wellFormed hw] at h
    exact .inr (.inr ⟨rfl, by cases h; rfl⟩)

/-- All `CNT`'s work can do. -/
theorem countByte_cases (s : State) (x : Symbol) :
    (s.freqAt x = s.config.maxCount ∧ s.countByte x = (s.enterFault .countOverflow).raise .errCountOverflow) ∨
    (s.freqAt x ≠ s.config.maxCount ∧ s.countByte x = (s.setFreq x (s.freqAt x + 1)).respond .ok 0 0) := by
  unfold State.countByte
  split
  · next h => exact .inl ⟨h, rfl⟩
  · next h => exact .inr ⟨h, rfl⟩

/-- All `ENC`'s work can do. -/
theorem encodeByte_cases (s : State) (x : Symbol) :
    ((s.codeAt x).len = 0 ∧ s.encodeByte x = { s with unk := true }.raise .errUnknownSymbol) ∨
    ((s.codeAt x).len ≠ 0 ∧ s.config.maxBitlen < s.bitlen + (s.codeAt x).len ∧
      s.encodeByte x = { s with lovf := true }.raise .errLenOverflow) ∨
    ((s.codeAt x).len ≠ 0 ∧ s.bitlen + (s.codeAt x).len ≤ s.config.maxBitlen ∧
      s.encodeByte x = (s.emit (s.codeAt x)).respond .ok (s.codeAt x).val (BitVec.ofNat 32 (s.codeAt x).len)) := by
  unfold State.encodeByte
  simp only
  split
  · next h => exact .inl ⟨h, rfl⟩
  · next h =>
    split
    · next h' => exact .inr (.inl ⟨h, h', rfl⟩)
    · next h' => exact .inr (.inr ⟨h, Nat.le_of_not_lt h', rfl⟩)

/-- All `ASSIGN`'s work can do. -/
theorem assign_cases (s : State) :
    (s.empty = true ∧ s.assign = { s with phase := .ready }.respond .empty 0 0) ∨
    (s.empty = false ∧ s.config.maxCodeLen < maxDepth s.node s.root ∧
      s.assign = (({ s.discardTree with code := CodeTable.cleared }).enterFault .codeOverflow).raise .errCodeOverflow) ∨
    (s.empty = false ∧ maxDepth s.node s.root ≤ s.config.maxCodeLen ∧
      s.assign =
        { s.discardTree with code := tableOf (leafCodes s.node s.root), phase := .ready }.respond .ok 0 0) := by
  unfold State.assign
  cases he : s.empty with
  | true => exact .inl ⟨rfl, by simp⟩
  | false =>
    by_cases hd : s.config.maxCodeLen < maxDepth s.node s.root
    · exact .inr (.inl ⟨rfl, hd, by simp [hd]⟩)
    · exact .inr (.inr ⟨rfl, Nat.le_of_not_lt hd, by simp [hd]⟩)

@[simp] theorem decodeWord_reserved {w : CmdWord} (h : decodeOp (fieldOp w) (fieldOpd w) = none) :
    decodeWord w = .illegal .reservedOpcode := by
  simp [decodeWord, h]

/-- All a word's acceptance can do. -/
theorem acceptWord_cases (w : CmdWord) (s : State) :
    (∃ i, decodeWord w = .instr i ∧ acceptWord w s = exec i s) ∨
    (∃ why, decodeWord w = .illegal why ∧ acceptWord w s = .next (s.raise .errIllegal)) := by
  unfold acceptWord
  cases h : decodeWord w with
  | instr i => exact .inl ⟨i, rfl, rfl⟩
  | illegal why => exact .inr ⟨why, rfl, rfl⟩

theorem step_idle {s : State} (h : s.inbox = []) : step s = .next s := by
  simp [step, h]

theorem step_reset {s : State} {rest : List HostEvent} (h : s.inbox = .reset :: rest) : step s = .next s.pop.clear := by
  simp [step, h]

theorem step_command {s : State} {w : CmdWord} {rest : List HostEvent} (h : s.inbox = .command w :: rest) :
    step s = acceptWord w s.pop := by
  simp [step, h]

end Sys2Proof.Machine
end

