-- ==== Sys2Proof/Laws/PerInstr.lean ====
section
/-! SUPPORT. The per-instruction family InRow: the word of a command belongs to the row of spec/opcode_table.json that has
its mnemonic. -/

namespace Sys2Proof.Laws.InRow

/-- A well-formed command's word matches its own row: `(word & mask) = match`, and it is not the excluded word
(30_encoding.md R91). -/
def Statement (i : Instr) : Prop :=
  i.wellFormed = true → ∃ r ∈ opcodeTable, r.mnemonic = i.mnemonic ∧ r.covers (encode i) = true

theorem clr : Statement .clr := fun _ => ⟨_, .head _, rfl, by decide⟩

theorem cnt (s : Symbol) : Statement (.cnt s) :=
  fun _ => ⟨_, .tail _ (.head _), rfl, by revert s; decide +kernel⟩

theorem build : Statement .build := fun _ => ⟨_, .tail _ (.tail _ (.head _)), rfl, by decide⟩

theorem assign : Statement .assign := fun _ => ⟨_, .tail _ (.tail _ (.tail _ (.head _))), rfl, by decide⟩

theorem estart : Statement .estart := fun _ => ⟨_, .tail _ (.tail _ (.tail _ (.tail _ (.head _)))), rfl, by decide⟩

theorem enc (s : Symbol) : Statement (.enc s) :=
  fun _ => ⟨_, .tail _ (.tail _ (.tail _ (.tail _ (.tail _ (.head _))))), rfl, by revert s; decide +kernel⟩

theorem elen : Statement .elen :=
  fun _ => ⟨_, .tail _ (.tail _ (.tail _ (.tail _ (.tail _ (.tail _ (.head _)))))), rfl, by decide⟩

theorem qfreq (s : Symbol) : Statement (.qfreq s) :=
  fun _ => ⟨_, .tail _ (.tail _ (.tail _ (.tail _ (.tail _ (.tail _ (.tail _ (.head _))))))), rfl,
    by revert s; decide +kernel⟩

theorem qnode (i : NodeId) : Statement (.qnode i) :=
  fun h => ⟨_, .tail _ (.tail _ (.tail _ (.tail _ (.tail _ (.tail _ (.tail _ (.tail _ (.head _)))))))), rfl,
    by revert i; decide +kernel⟩

theorem qcode (s : Symbol) : Statement (.qcode s) :=
  fun _ => ⟨_, .tail _ (.tail _ (.tail _ (.tail _ (.tail _ (.tail _ (.tail _ (.tail _ (.tail _ (.head _))))))))), rfl,
    by revert s; decide +kernel⟩

theorem qstat : Statement .qstat :=
  fun _ => ⟨_, .tail _ (.tail _ (.tail _ (.tail _ (.tail _ (.tail _ (.tail _ (.tail _ (.tail _ (.tail _
    (.head _)))))))))), rfl, by decide⟩

end Sys2Proof.Laws.InRow
end

