-- ==== Sys2Proof/Laws/Port.lean ====
section
/-! SUPPORT. What an edge of the block can do, said once. -/

namespace Sys2Proof.Machine

@[simp] theorem Port.inFlight_ne_idle (done : Bool) (r : Response) : Port.inFlight done r ≠ .idle := by
  cases done <;> simp [Port.inFlight]

theorem Port.inFlight_cases (done : Bool) (r : Response) :
    Port.inFlight done r = .working r ∨ Port.inFlight done r = .offering r := by
  cases done <;> simp [Port.inFlight]

@[simp] theorem Block.resetEdge_state (b : Block) : b.resetEdge.state = b.state.takeReset := rfl
@[simp] theorem Block.resetEdge_port (b : Block) : b.resetEdge.port = .idle := rfl
@[simp] theorem Block.deliver_state (b : Block) (r : Response) :
    (b.deliver r).state = { b.state with outbox := b.state.outbox ++ [r] } := rfl
@[simp] theorem Block.deliver_port (b : Block) (r : Response) : (b.deliver r).port = .idle := rfl

theorem Block.cmdReady_iff (b : Block) (p : Pins) :
    b.cmdReady p = true ↔ p.rst = false ∧ p.willing = true ∧ b.port = .idle := by
  simp [Block.cmdReady, and_assoc]

/-- A command that answers one response goes in flight with that response. -/
theorem Block.accept_eq {b : Block} {w : CmdWord} {t : State} {r : Response} (h : acceptWord w b.state = .next t)
    (ho : t.outbox = b.state.outbox ++ [r]) (done : Bool) :
    b.accept w done = ⟨{ t with outbox := b.state.outbox }, .inFlight done r⟩ := by
  simp [Block.accept, h, ho]

/-- All an edge can do. -/
theorem Block.edge_cases (b : Block) (p : Pins) :
    (p.rst = true ∧ b.edge p = b.resetEdge) ∨
    (b.cmdReady p = true ∧ p.cmdValid = true ∧ b.edge p = b.accept p.cmd p.done) ∨
    (p.rst = false ∧ b.port = .idle ∧ (b.cmdReady p && p.cmdValid) = false ∧ b.edge p = b) ∨
    (∃ r, p.rst = false ∧ b.port = .working r ∧ b.edge p = { b with port := .inFlight p.done r }) ∨
    (∃ r, p.rst = false ∧ b.port = .offering r ∧ p.rspReady = false ∧ b.edge p = b) ∨
    (∃ r, p.rst = false ∧ b.port = .offering r ∧ p.rspReady = true ∧ b.edge p = b.deliver r) := by
  cases hr : p.rst with
  | true => exact .inl ⟨rfl, by simp [Block.edge, hr]⟩
  | false =>
    cases hp : b.port with
    | idle => cases hw : p.willing <;> cases hv : p.cmdValid <;> simp [Block.edge, Block.cmdReady, hr, hp, hw, hv]
    | working r => simp [Block.edge, hr, hp]
    | offering r => cases hd : p.rspReady <;> simp [Block.edge, hr, hp, hd]

end Sys2Proof.Machine
end

