-- ==== Sys2Proof/Laws/Queue.lean ====
section
/-! SUPPORT. The order of the priority queue and one extraction from it (41_tree_builder.md R154, R155). -/

namespace Sys2Proof.Machine

/-- The order, as 41_tree_builder.md R154 says it. -/
theorem before_iff (a b : QEntry) :
    a.before b = true ↔ a.weight < b.weight ∨ (a.weight = b.weight ∧ a.id.toNat < b.id.toNat) := by
  simp [QEntry.before, BitVec.lt_def]

theorem before_irrefl (a : QEntry) : a.before a = false := by
  simp [QEntry.before]

theorem before_trans {a b c : QEntry} (h : a.before b = true) (k : b.before c = true) : a.before c = true := by
  rw [before_iff] at *
  omega

/-- Strict and total: of two entries with different ids one comes before the other (41_tree_builder.md R154). -/
theorem before_total {a b : QEntry} (h : a.id ≠ b.id) : a.before b = true ∨ b.before a = true := by
  have hn : a.id.toNat ≠ b.id.toNat := fun e => h (BitVec.eq_of_toNat_eq e)
  rw [before_iff, before_iff]
  omega

theorem before_asymm {a b : QEntry} (h : a.before b = true) : b.before a = false := by
  rw [before_iff] at h
  rw [Bool.eq_false_iff, ne_eq, before_iff]
  omega

@[simp] theorem extractMin_nil : extractMin [] = none := rfl

@[simp] theorem extractMin_eq_none (q : List QEntry) : extractMin q = none ↔ q = [] := by
  cases q with
  | nil => simp
  | cons e rest =>
    simp only [extractMin, reduceCtorEq, iff_false]
    split
    · simp
    · split <;> simp

/-- An extraction removes one entry and keeps the others. -/
theorem extractMin_perm {q r : List QEntry} {m : QEntry} (h : extractMin q = some (m, r)) : q.Perm (m :: r) := by
  induction q generalizing m r with
  | nil => simp at h
  | cons e rest ih =>
    simp only [extractMin] at h
    split at h
    · next h0 =>
      obtain ⟨rfl, rfl⟩ : e = m ∧ [] = r := by simpa using h
      rw [(extractMin_eq_none rest).1 h0]
    · next m' others h1 =>
      split at h
      · obtain ⟨rfl, rfl⟩ : e = m ∧ rest = r := by simpa using h
        exact .refl _
      · obtain ⟨rfl, rfl⟩ : m' = m ∧ e :: others = r := by simpa using h
        exact ((ih h1).cons e).trans (.swap m' e others)

/-- The entry extracted is the least: nothing in the queue comes before it. -/
theorem extractMin_least {q r : List QEntry} {m : QEntry} (h : extractMin q = some (m, r)) :
    ∀ e ∈ q, e.before m = false := by
  induction q generalizing m r with
  | nil => simp
  | cons e rest ih =>
    simp only [extractMin] at h
    split at h
    · next h0 =>
      obtain ⟨rfl, rfl⟩ : e = m ∧ [] = r := by simpa using h
      rw [(extractMin_eq_none rest).1 h0]
      simp [before_irrefl]
    · next m' others h1 =>
      have hleast := ih h1
      split at h
      · next hb =>
        obtain ⟨rfl, rfl⟩ : e = m ∧ rest = r := by simpa using h
        intro x hx
        rcases List.mem_cons.1 hx with rfl | hx
        · exact before_irrefl _
        · by_contra hc
          have hxe : x.before e = true := by simpa using hc
          have := before_trans hxe hb
          rw [hleast x hx] at this
          exact Bool.noConfusion this
      · next hb =>
        obtain ⟨rfl, rfl⟩ : m' = m ∧ e :: others = r := by simpa using h
        intro x hx
        rcases List.mem_cons.1 hx with rfl | hx
        · simpa using hb
        · exact hleast x hx

/-- With distinct ids the entry extracted comes before every other one (41_tree_builder.md R155). -/
theorem extractMin_before_rest {q r : List QEntry} {m : QEntry} (h : extractMin q = some (m, r))
    (hd : (q.map QEntry.id).Nodup) : ∀ e ∈ r, m.before e = true := by
  have hp := extractMin_perm h
  intro e he
  have hne : m.id ≠ e.id := by
    have hd' : ((m :: r).map QEntry.id).Nodup := (hp.map QEntry.id).nodup_iff.1 hd
    intro heq
    exact (List.nodup_cons.1 hd').1 (List.mem_map.2 ⟨e, he, heq.symm⟩)
  have hle := extractMin_least h e (hp.mem_iff.2 (.tail _ he))
  rcases before_total hne with h1 | h1
  · exact h1
  · rw [hle] at h1
    exact Bool.noConfusion h1

/-- An extraction shortens the queue by one. -/
theorem extractMin_length {q r : List QEntry} {m : QEntry} (h : extractMin q = some (m, r)) :
    q.length = r.length + 1 := by
  simpa using (extractMin_perm h).length_eq

/-- A queue of two or more gives two extractions; a merge round runs (41_tree_builder.md R151). -/
theorem mergeRounds_round {q q₁ q₂ : List QEntry} {a b : QEntry} (h₁ : extractMin q = some (a, q₁))
    (h₂ : extractMin q₁ = some (b, q₂)) (fuel k : Nat) (arena : Arena) :
    mergeRounds (fuel + 1) k arena q =
      mergeRounds fuel (k + 1) (arena.write (innerId k) (innerNode a b))
        (q₂ ++ [⟨a.weight + b.weight, innerId k⟩]) := by
  simp [mergeRounds, h₁, h₂]

/-- With one entry left, or none, the loop ends (41_tree_builder.md R151). -/
theorem mergeRounds_done (fuel k : Nat) (arena : Arena) {q : List QEntry} (h : q.length ≤ 1) :
    mergeRounds fuel k arena q = (arena, q) := by
  cases fuel with
  | zero => rfl
  | succ fuel =>
    match q, h with
    | [], _ => simp [mergeRounds]
    | [e], _ => simp [mergeRounds, extractMin]

/-- `BUILD` with no symbol (41_tree_builder.md R158). -/
theorem buildTree_none {f : FreqTable} (h : present f = []) :
    buildTree f = { node := Arena.cleared, root := 0, nsym := 0, empty := true } := by
  simp [buildTree, h]

/-- `BUILD` with one symbol or more. -/
theorem buildTree_some {f : FreqTable} (h : present f ≠ []) :
    buildTree f =
      { node := (mergeRounds (present f).length 0 (leafArena f) (leafQueue f)).1
        root := lastId (mergeRounds (present f).length 0 (leafArena f) (leafQueue f)).2
        nsym := BitVec.ofNat 9 (present f).length
        empty := false } := by
  unfold buildTree
  split
  · next h0 => exact absurd h0 h
  · rfl

theorem buildTree_empty (f : FreqTable) : (buildTree f).empty = true ↔ present f = [] := by
  by_cases h : present f = []
  · simp [buildTree_none h, h]
  · simp [buildTree_some h, h]

end Sys2Proof.Machine
end

