-- ==== Sys2Proof/Tests/Slice0.lean ====
section
/-! SUPPORT. Tests: well-formedness, decoding of words written from the spec's encodings, one or two single steps for each
command with results from spec/95_test_vectors.md, and the witnesses of the obligations' hypotheses. -/

namespace Sys2Proof.Tests

set_option Elab.async false

open Sys2Proof.Machine

/-! ### Helpers -/

/-- The next state, if there is one. -/
def after (r : Result) : Option State :=
  match r with
  | .next t => some t
  | .fault _ | .refused _ => none

/-- The response of a step that answered, after an empty outbox. -/
def answer (r : Result) : Option (List Response) := (after r).map State.outbox

def counts (l : List (Symbol × Nat)) : FreqTable := l.foldl (fun t p => writeSym t p.1 p.2) FreqTable.cleared

/-- Phase `COUNT` with the given counters. -/
def countState (l : List (Symbol × Nat)) : State := { State.reset with freq := counts l }

/-- Phase `TREE` after `BUILD`, the responses left out. -/
def treeState (l : List (Symbol × Nat)) : State := (countState l).setTree (buildTree (counts l))

/-- Phase `READY` after `ASSIGN`, the responses left out. -/
def readyState (l : List (Symbol × Nat)) : State :=
  { countState l with
    phase := .ready
    nsym := (buildTree (counts l)).nsym
    empty := (buildTree (counts l)).empty
    code := codesOf (counts l) }

/-- The counters of 95_test_vectors.md V1: `a` 3, `b` 2, `c` 1. -/
def v1 : List (Symbol × Nat) := [(0x61, 3), (0x62, 2), (0x63, 1)]

/-- The counters of 95_test_vectors.md T4 row 12: depth 4 with five symbols. -/
def t4row12 : List (Symbol × Nat) := [(0x61, 1), (0x62, 1), (0x63, 2), (0x64, 4), (0x65, 8)]

/-- One `z`, as in 95_test_vectors.md V3 with its three counted. -/
def v3 : List (Symbol × Nat) := [(0x7A, 3)]

/-! ### Well-formedness: the one check, and the ill-formed term it refuses (30_encoding.md R105) -/

theorem test_wellFormed_refuses_node_511 : (Instr.qnode 511).wellFormed = false := by decide

theorem test_wellFormed_takes_node_510 : (Instr.qnode 510).wellFormed = true := by decide

/-! ### Decoding: words written out from 30_encoding.md R91, R92; illegal words from 95_test_vectors.md T1 -/

theorem test_decode_clr : decodeWord 0b0001000000000000#16 = .instr .clr := by decide

theorem test_decode_cnt : decodeWord 0b0010000001100001#16 = .instr (.cnt 0x61) := by decide

theorem test_decode_build : decodeWord 0b0011000000000000#16 = .instr .build := by decide

theorem test_decode_assign : decodeWord 0b0100000000000000#16 = .instr .assign := by decide

theorem test_decode_estart : decodeWord 0b0101000000000000#16 = .instr .estart := by decide

theorem test_decode_enc : decodeWord 0b0110000001100010#16 = .instr (.enc 0x62) := by decide

theorem test_decode_elen : decodeWord 0b0111000000000000#16 = .instr .elen := by decide

theorem test_decode_qfreq : decodeWord 0b1000000001100010#16 = .instr (.qfreq 0x62) := by decide

theorem test_decode_qnode : decodeWord 0b1001000100000001#16 = .instr (.qnode 257) := by decide

theorem test_decode_qcode : decodeWord 0b1010000001100010#16 = .instr (.qcode 0x62) := by decide

theorem test_decode_qstat : decodeWord 0b1011000000000000#16 = .instr .qstat := by decide

theorem test_decode_reserved_opcodes :
    decodeWord 0x0000 = .illegal .reservedOpcode ∧ decodeWord 0x0FFF = .illegal .reservedOpcode ∧
    decodeWord 0xC000 = .illegal .reservedOpcode ∧ decodeWord 0xFFFF = .illegal .reservedOpcode := by decide

theorem test_decode_malformed_words :
    decodeWord 0x1001 = .illegal .strayOperand ∧ decodeWord 0x1200 = .illegal .reservedBits ∧
    decodeWord 0x2161 = .illegal .symbolRange ∧ decodeWord 0x2861 = .illegal .reservedBits ∧
    decodeWord 0x91FF = .illegal .nodeRange ∧ decodeWord 0x91FE = .instr (.qnode 510) := by decide

theorem test_decodeTableWord_bits :
    decodeTableWord 16 0x2061 = some (.cnt 0x61) ∧ decodeTableWord 16 0x12061 = none := by decide

/-! ### Single steps, results from 95_test_vectors.md -/

/-- 40_frequency_counter.md R131, example. -/
theorem test_cnt_counts :
    (after (exec (.cnt 0x61) State.reset)).map (fun t => (t.freqAt 0x61, t.freqAt 0x62, t.outbox)) =
      some (1, 0, [⟨.ok, 0, 0⟩]) := by decide +kernel

/-- T3 row 2: `FREQ_W = 1`, the second `CNT 'a'`. -/
theorem test_cnt_overflows :
    (after (exec (.cnt 0x61)
      { countState [(0x61, 1)] with config := { Config.default with freqW := 1 } })).map
        (fun t => (t.freqAt 0x61, t.statusWord, t.outbox)) =
      some (1, 0x43, [⟨.errCountOverflow, 0, 0⟩]) := by decide +kernel

/-- V1 step 8. -/
theorem test_qfreq_reads : answer (exec (.qfreq 0x62) (countState v1)) = some [⟨.ok, 2, 0⟩] := by decide +kernel

/-- V1 step 11. -/
theorem test_build_status :
    (after (exec .build (countState v1))).map (fun t => (t.statusWord, t.outbox)) =
      some (0x02020301, [⟨.ok, 0, 0⟩]) := by decide +kernel

/-- T4 row 8: the three-way tie at weight 2; merge rounds 2 and 3. -/
theorem test_build_breaks_ties_by_id :
    (after (exec .build (countState [(0x61, 2), (0x62, 2), (0x63, 1), (0x64, 1)]))).map
      (fun t => ((t.nodeAt 257).left, (t.nodeAt 257).right, (t.nodeAt 258).left, t.root)) =
      some (97, 98, 256, 258) := by decide +kernel

/-- V1 step 16. -/
theorem test_qnode_inner : answer (exec (.qnode 257) (treeState v1)) = some [⟨.ok, 6, 0x08020061⟩] := by
  decide +kernel

/-- V1 step 14. -/
theorem test_qnode_leaf : answer (exec (.qnode 0x63) (treeState v1)) = some [⟨.ok, 1, 0x0D8C0000⟩] := by
  decide +kernel

/-- V1 step 18 and its codes. -/
theorem test_assign_codes :
    (after (exec .assign (treeState v1))).map (fun t => (t.statusWord, t.codeAt 0x61, t.codeAt 0x62, t.codeAt 0x63)) =
      some (0x302, ⟨1, 0⟩, ⟨2, 3⟩, ⟨2, 2⟩) := by decide +kernel

/-- T5 row 3: `MAX_CODE_LEN = 3`. -/
theorem test_assign_overflows :
    (after (exec .assign
      { treeState t4row12 with config := { Config.default with maxCodeLen := 3 } })).map
        (fun t => (t.statusWord, t.codeAt 0x61, t.outbox)) =
      some (0x523, ⟨0, 0⟩, [⟨.errCodeOverflow, 0, 0⟩]) := by decide +kernel

/-- V1 step 20. -/
theorem test_qcode_reads : answer (exec (.qcode 0x62) (readyState v1)) = some [⟨.ok, 3, 2⟩] := by decide +kernel

/-- 43_encoder.md R211, example. -/
theorem test_estart_clears :
    (after (exec .estart { readyState v1 with bitlen := 4, ostream := [true], unk := true })).map
      (fun t => (t.bitlen, t.ostream, t.unk, t.outbox)) = some (0, [], false, [⟨.ok, 0, 0⟩]) := by decide +kernel

/-- 43_encoder.md R212, example. -/
theorem test_enc_appends :
    (after (exec (.enc 0x62) { readyState v1 with bitlen := 2, ostream := [false, false] })).map
      (fun t => (t.bitlen, t.ostream, t.outbox)) =
      some (4, [false, false, true, true], [⟨.ok, 3, 2⟩]) := by decide +kernel

/-- T6 row 6: with both conditions open the unknown symbol is reported and nothing is appended. -/
theorem test_enc_unknown_before_overflow :
    (after (exec (.enc 0x65)
      { readyState v1 with bitlen := 6, lovf := true, config := { Config.default with bitlenW := 3 } })).map
        (fun t => (t.bitlen, t.unk, t.lovf, t.outbox)) =
      some (6, true, true, [⟨.errUnknownSymbol, 0, 0⟩]) := by decide +kernel

/-- T6 row 6: with both flags set `ELEN` reports `UNK` first. -/
theorem test_elen_priority :
    answer (exec .elen { readyState v1 with bitlen := 6, lovf := true, unk := true }) =
      some [⟨.errUnknownSymbol, 6, 1⟩] := by decide +kernel

/-- 20_memory.md R85: 9 bits are 2 bytes. -/
theorem test_elen_rounds_up : answer (exec .elen { readyState v1 with bitlen := 9 }) = some [⟨.ok, 9, 2⟩] := by
  decide +kernel

/-- 44_control_status.md R240, example. -/
theorem test_clr_leaves_fault :
    (after (exec .clr { countState v1 with phase := .fault, fcode := .countOverflow })).map
      (fun t => (t.statusWord, t.freqAt 0x61, t.outbox)) = some (0, 0, [⟨.ok, 0, 0⟩]) := by decide +kernel

/-- 44_control_status.md R241, example. -/
theorem test_qstat_reads : answer (exec .qstat (treeState v1)) = some [⟨.ok, 0, 0x02020301⟩] := by decide +kernel

/-- T1: an illegal word in a wrong phase answers `ERR_ILLEGAL`, a legal one `ERR_PHASE`. -/
theorem test_step_checks_word_before_phase :
    answer (step ((treeState v1).withFetchWord 16 0x2161)) = some [⟨.errIllegal, 0, 0⟩] ∧
    answer (step ((treeState v1).withFetchWord 16 0x2061)) = some [⟨.errPhase, 0, 0⟩] := by decide +kernel

/-- 95_test_vectors.md, end of T6. -/
theorem test_pack :
    pack [false, false, true, true] = [0x30] ∧ pack (List.replicate 9 true) = [0xFF, 0x80] ∧ pack [] = [] := by
  decide

/-- 30_encoding.md R108, R109. -/
theorem test_text :
    assembleLine "CNT 'a' ; one byte".toList = some [.cnt 0x61] ∧ assembleLine "QNODE 0x1FE".toList = some [.qnode 510] ∧
    assembleLine "QNODE 511".toList = none ∧
    assembleLine "ENCS \"ab\"".toList = some [.estart, .enc 0x61, .enc 0x62, .elen] := by decide +kernel

/-! ### Witnesses: for each obligation with hypotheses, a state and operands that meet them -/

theorem config_default_legal : Config.default.Legal := by decide

theorem treeState_inv {l : List (Symbol × Nat)} (h : ∀ x, readSym (counts l) x < 2 ^ 32) : Inv (treeState l) where
  config := config_default_legal
  counts := h
  stream := rfl
  bitlen := Nat.two_pow_pos 32
  row := ⟨⟨rfl, rfl, rfl, rfl⟩, rfl, ⟨rfl, rfl, rfl, rfl⟩, rfl⟩

theorem readyState_inv {l : List (Symbol × Nat)} (h : ∀ x, readSym (counts l) x < 2 ^ 32)
    (hd : depthOf (counts l) ≤ 64) : Inv (readyState l) where
  config := config_default_legal
  counts := h
  stream := rfl
  bitlen := Nat.two_pow_pos 32
  row := ⟨⟨rfl, rfl⟩, ⟨rfl, rfl⟩, rfl, hd, rfl⟩

theorem v1_small : ∀ x, readSym (counts v1) x < 2 ^ 32 := readSym_lt (by decide +kernel)

theorem v3_small : ∀ x, readSym (counts v3) x < 2 ^ 32 := readSym_lt (by decide +kernel)

theorem t4row12_small : ∀ x, readSym (counts t4row12) x < 2 ^ 32 := readSym_lt (by decide +kernel)

theorem readSym_freq_cleared_small : ∀ x, readSym (counts []) x < 2 ^ 32 := fun x => by
  rw [show readSym (counts []) x = 0 from readSym_freq_cleared x]
  decide

theorem v1_tree_inv : Inv (treeState v1) := treeState_inv v1_small

theorem v1_ready_inv : Inv (readyState v1) := readyState_inv v1_small (by decide +kernel)

theorem v3_ready_inv : Inv (readyState v3) := readyState_inv v3_small (by decide +kernel)

theorem witness_StepRunsDecodedCommand :
    (State.reset.withFetchWord 16 0x2061).inbox = .command 0x2061#16 :: [] ∧
    decodeWord 0x2061#16 = .instr (.cnt 0x61) ∧ decodeWord (encode (.cnt 0x61)) = .instr (.cnt 0x61) := by decide

/-- An illegal word, a legal word in a wrong phase, and both own conditions. -/
theorem witness_ChecksAreMadeInOrder :
    (decodeWord 0x91FF = .illegal .nodeRange) ∧ legalIn .assign State.reset.phase = false ∧
    legalIn (.enc 0x64) (readyState v1).phase = true ∧ ((readyState v1).codeAt 0x64).len = 0 ∧
    { readyState v1 with unk := true, lovf := true }.unk = true := by decide +kernel

/-- One word for each clause, at the boundary: op 0, op 0xC, rsv 1, operand 1, symbol 256, node 511. -/
theorem witness_IllegalWordsAnswerErrIllegal :
    (0x0FFF#16).toNat / 4096 = 0 ∧ (0xC000#16).toNat / 4096 = 0xC ∧ (0x1200#16).toNat / 512 % 8 = 1 ∧
    (0x1001#16).toNat / 4096 = 1 ∧ (0x1001#16).toNat % 512 = 1 ∧
    (0x2100#16).toNat / 4096 = 2 ∧ (0x2100#16).toNat % 512 = 256 ∧
    (0x91FF#16).toNat / 4096 = 9 ∧ (0x91FF#16).toNat % 512 = 511 ∧
    (State.reset.withFetchWord 16 0x91FF).inbox = .command 0x91FF#16 :: [] := by decide

theorem witness_EveryStepAnswersOnce :
    State.reset.inbox = [] ∧ { State.reset with inbox := [.reset] }.inbox = .reset :: [] ∧
    (State.reset.withFetchWord 16 0).inbox = .command 0#16 :: [] := by decide

theorem witness_CommandsOutOfPhaseAreRefused :
    Instr.build.wellFormed = true ∧ State.reset.phase = .count ∧ (treeState v1).phase ≠ .count := by decide

theorem witness_ResetYieldsResetState :
    { readyState v1 with inbox := [.reset] }.inbox = .reset :: [] ∧
    (Pins.mk true false 0 false false false).rst = true := ⟨rfl, rfl⟩

theorem witness_OnlyListedCommandsWrite :
    (after (exec .assign (treeState v1))).map (fun t => t.phase != (treeState v1).phase) = some true := by
  decide +kernel

/-- The five kinds of change, each made by a step. -/
theorem witness_PhaseChangesOnlyAsListed :
    (after (step { readyState v1 with inbox := [.reset] })).map State.phase = some .count ∧
    (after (step ({ countState [(0x61, 1)] with config := { Config.default with freqW := 1 } }.withFetchWord 16
      0x2061))).map State.phase = some .fault ∧
    (after (step ((countState v1).withFetchWord 16 0x3000))).map State.phase = some .tree ∧
    (after (step ((treeState v1).withFetchWord 16 0x4000))).map State.phase = some .ready ∧
    (after (step ({ treeState t4row12 with config := { Config.default with maxCodeLen := 3 } }.withFetchWord 16
      0x4000))).map State.phase = some .fault := by decide +kernel

theorem witness_FaultIsLeftOnlyByClrOrReset :
    { countState v1 with phase := .fault, fcode := .countOverflow }.phase = .fault := rfl

theorem witness_RefusalsChangeNothing :
    answer (acceptWord 0x4000 State.reset) = some [⟨.errPhase, 0, 0⟩] ∧
    answer (acceptWord 0 State.reset) = some [⟨.errIllegal, 0, 0⟩] := by decide +kernel

/-- The invariant is met in phases `COUNT`, `TREE` and `READY`. -/
theorem witness_StepKeepsInvariant : Inv (countState v1) ∧ Inv (treeState v1) ∧ Inv (readyState v1) :=
  ⟨⟨by decide, v1_small, rfl, by decide, ⟨⟨rfl, rfl⟩, rfl, rfl, rfl, ⟨rfl, rfl, rfl, rfl⟩, rfl⟩⟩, v1_tree_inv,
    v1_ready_inv⟩

/-- The overflowed run of 40_frequency_counter.md R132 (`FREQ_W = 2`, `A` counted three times and once more). -/
def faultState : State :=
  { countState [(0x41, 3)] with
    phase := .fault
    fcode := .countOverflow
    config := { Config.default with freqW := 2 } }

theorem witness_FcodeNonzeroExactlyInFault : Inv faultState ∧ faultState.phase = .fault :=
  ⟨⟨by decide, readSym_lt (by decide +kernel), rfl, by decide,
    ⟨⟨rfl, rfl⟩, rfl, ⟨rfl, rfl, rfl, rfl⟩, .inr ⟨rfl, rfl, rfl, 0x41, by decide +kernel⟩⟩⟩, rfl⟩

theorem witness_ResponsesFitTheirFields :
    Inv (treeState v1) ∧ answer (exec (.qnode 257) (treeState v1)) = some [⟨.ok, 6, 0x08020061⟩] :=
  ⟨v1_tree_inv, test_qnode_inner⟩

theorem witness_CntCountsOneByte :
    (State.reset.phase = .count ∧ State.reset.freqAt 0x61 ≠ 2 ^ State.reset.config.freqW - 1) ∧
    (treeState v1).phase ≠ .count := by decide +kernel

/-- 40_frequency_counter.md R132, example: `FREQ_W = 2`, `A` counted three times. -/
theorem witness_CountOverflowEndsTheRun :
    { countState [(0x41, 3)] with config := { Config.default with freqW := 2 } }.phase = .count ∧
    { countState [(0x41, 3)] with config := { Config.default with freqW := 2 } }.freqAt 0x41 = 2 ^ 2 - 1 := by
  decide +kernel

/-- An `ENC` that fails, and an `ELEN` that reports it with its lengths (43_encoder.md R213, R216). -/
theorem witness_ErrorResponsesCarryZeros :
    answer (exec (.enc 0x64) (readyState v1)) = some [⟨.errUnknownSymbol, 0, 0⟩] ∧
    answer (exec .elen { readyState v1 with bitlen := 9, unk := true }) = some [⟨.errUnknownSymbol, 9, 2⟩] := by
  decide +kernel

theorem witness_CountersCountOkCommands :
    (∀ x, State.reset.freqAt x = 0) ∧ Instr.clr ∉ [Instr.cnt 0x61, .qstat, .cnt 0x61] ∧ State.reset.phase = .count ∧
    (∀ x, [0x61#8, 0x62#8].count x ≤ 2 ^ State.reset.config.freqW - 1) ∧ [0x61#8, 0x62#8].Perm [0x62#8, 0x61#8] :=
  ⟨readSym_freq_cleared, by decide, rfl, fun _ => List.count_le_length.trans (by decide), .swap _ _ _⟩

theorem witness_BuildWithNoSymbol : State.reset.phase = .count ∧ ∀ x, State.reset.freqAt x = 0 :=
  ⟨rfl, readSym_freq_cleared⟩

theorem witness_BuildWithOneSymbol :
    (countState v3).phase = .count ∧ (countState v3).freqAt 0x7A ≠ 0 ∧
    ∀ y, y ≠ 0x7A → (countState v3).freqAt y = 0 :=
  ⟨rfl, by decide +kernel, fun _ h => readSym_writeSym_ne _ (Ne.symm h) _ |>.trans (readSym_freq_cleared _)⟩

/-- Also for BuildMergesTwoLeast and RootWeighsAllCounts; both rounds of `BUILD` run. -/
theorem witness_BuildMakesTree :
    (countState v1).phase = .count ∧ (countState v1).freqAt 0x61 ≠ 0 ∧ (treeState v1).phase ≠ .count ∧
    1 + 1 < (buildTree (counts v1)).nsym.toNat := by decide +kernel

/-- Also for WeightsFitTheirWidth: a `TREE` state with `EMPTY = 0` that meets the invariant. -/
theorem witness_TreePhaseHoldsTree :
    Inv (treeState v1) ∧ (treeState v1).phase = .tree ∧ (treeState v1).empty = false :=
  ⟨v1_tree_inv, rfl, by decide +kernel⟩

theorem witness_EqualCountsGiveEqualTreesAndCodes :
    (countState v1).phase = .count ∧ Inv (treeState v1) ∧ (treeState v1).phase = .tree ∧ Inv (readyState v1) ∧
    (readyState v1).phase = .ready := ⟨rfl, v1_tree_inv, rfl, v1_ready_inv, rfl⟩

theorem witness_QnodeReadsSlot :
    (257#9 ≠ 511#9 ∧ (treeState v1).phase = .tree) ∧
    (258#9 ≠ 511#9 ∧ (treeState v1).nodeAt 258 = Node.invalid) ∧ (510#9 ≠ 511#9 ∧ State.reset.phase ≠ .tree) := by
  decide +kernel

/-- The clause with the invariant: an invalid slot of a tree, and a slot of the empty tree. -/
theorem witness_QnodeReadsSlot_zeros :
    (Inv (treeState v1) ∧ (treeState v1).phase = .tree ∧ ((treeState v1).nodeAt 258).valid = false) ∧
    (Inv (treeState []) ∧ (treeState []).phase = .tree ∧ (treeState []).empty = true) :=
  ⟨⟨v1_tree_inv, rfl, by decide +kernel⟩, treeState_inv readSym_freq_cleared_small, rfl, by decide +kernel⟩

theorem witness_AssignOfEmptyTree : (treeState []).phase = .tree ∧ (treeState []).empty = true := by decide +kernel

theorem witness_AssignOfSoleSymbol :
    (treeState v3).phase = .tree ∧ (treeState v3).empty = false ∧
    ((treeState v3).nodeAt (treeState v3).root).leaf = true := by decide +kernel

theorem witness_AssignDiscardsTree :
    (treeState v1).phase = .tree ∧ (treeState v1).empty = false ∧ State.reset.phase ≠ .tree := by decide +kernel

/-- The path to the leaf of `c` in V1, code `10`. -/
theorem v1_path_c : PathTo (treeState v1).node (treeState v1).root [true, false] (leafId 0x63) := by
  have h1 : (Arena.read (treeState v1).node (treeState v1).root).right = 256 := by decide +kernel
  have h2 : (Arena.read (treeState v1).node 256).left = leafId 0x63 := by decide +kernel
  refine .right (by decide +kernel) (by decide +kernel) ?_
  rw [h1]
  refine .left (by decide +kernel) (by decide +kernel) ?_
  rw [h2]
  exact .here _

/-- A bound on the paths of a small arena: with no valid internal node deeper, no path is longer. -/
theorem path_length_le {a : Arena} (depth : Nat) (ok : Nat → NodeId → Bool)
    (hok : ∀ n i, ok n i = true → (a.read i).valid = true → (a.read i).leaf = false →
      ∃ m, n = m + 1 ∧ ok m (a.read i).left = true ∧ ok m (a.read i).right = true)
    {i j : NodeId} {e : List Bool} (h : PathTo a i e j) (hi : ok depth i = true) : e.length ≤ depth := by
  induction h generalizing depth with
  | here i => exact Nat.zero_le _
  | left hv hl _ ih =>
    obtain ⟨m, rfl, h1, _⟩ := hok _ _ hi hv hl
    simpa using ih m h1
  | right hv hl _ ih =>
    obtain ⟨m, rfl, _, h2⟩ := hok _ _ hi hv hl
    simpa using ih m h2

/-- The depth bound as a computation. -/
def fits (a : Arena) : Nat → NodeId → Bool
  | 0, i => !((a.read i).valid && !(a.read i).leaf)
  | n + 1, i => !((a.read i).valid && !(a.read i).leaf) || (fits a n (a.read i).left && fits a n (a.read i).right)

theorem fits_step {a : Arena} (n : Nat) (i : NodeId) (h : fits a n i = true) (hv : (a.read i).valid = true)
    (hl : (a.read i).leaf = false) :
    ∃ m, n = m + 1 ∧ fits a m (a.read i).left = true ∧ fits a m (a.read i).right = true := by
  cases n with
  | zero => simp [fits, hv, hl] at h
  | succ n => exact ⟨n, rfl, by simpa [fits, hv, hl] using h⟩

theorem witness_AssignGivesPathCodes :
    Inv (treeState v1) ∧ (treeState v1).phase = .tree ∧ 2 ≤ (treeState v1).nsym.toNat ∧
    (∀ x e, (treeState v1).freqAt x ≠ 0 → PathTo (treeState v1).node (treeState v1).root e (leafId x) →
      e.length ≤ (treeState v1).config.maxCodeLen) ∧
    (treeState v1).freqAt 0x63 ≠ 0 ∧ PathTo (treeState v1).node (treeState v1).root [true, false] (leafId 0x63) := by
  refine ⟨v1_tree_inv, rfl, by decide +kernel, fun x e _ h => ?_, by decide +kernel, v1_path_c⟩
  have h2 : e.length ≤ 2 := path_length_le 2 (fits (treeState v1).node) fits_step h (by decide +kernel)
  have h64 : (treeState v1).config.maxCodeLen = 64 := rfl
  omega

/-- A tree state with parameters under which `ASSIGN` overflows: V1 with `MAX_CODE_LEN = 1`. -/
def tightState : State := { treeState v1 with config := { Config.default with maxCodeLen := 1 } }

theorem tightState_inv : Inv tightState where
  config := by decide
  counts := v1_small
  stream := rfl
  bitlen := by decide
  row := ⟨⟨rfl, rfl, rfl, rfl⟩, rfl, ⟨rfl, rfl, rfl, rfl⟩, rfl⟩

theorem witness_CodeOverflowEndsTheRun :
    (Inv tightState ∧ tightState.phase = .tree ∧ tightState.freqAt 0x63 ≠ 0 ∧
      PathTo tightState.node tightState.root [true, false] (leafId 0x63) ∧ tightState.config.maxCodeLen < 2) ∧
    (Inv (treeState v1) ∧ ¬ ∃ x e, (treeState v1).freqAt x ≠ 0 ∧
      PathTo (treeState v1).node (treeState v1).root e (leafId x) ∧ (treeState v1).config.maxCodeLen < e.length) := by
  refine ⟨⟨tightState_inv, rfl, by decide +kernel, v1_path_c, by decide⟩, v1_tree_inv, ?_⟩
  rintro ⟨x, e, h0, h1, h2⟩
  exact absurd (witness_AssignGivesPathCodes.2.2.2.1 x e h0 h1) (Nat.not_le.2 h2)

/-- With the clauses of the invariant: a symbol with no code, and the empty alphabet. -/
theorem witness_QcodeReadsEntry :
    ((readyState v1).phase = .ready ∧ State.reset.phase ≠ .ready) ∧
    (Inv (readyState v1) ∧ ((readyState v1).codeAt 0x64).len = 0) ∧
    (Inv (readyState []) ∧ (readyState []).phase = .ready ∧ (readyState []).empty = true) :=
  ⟨⟨rfl, by decide⟩, ⟨v1_ready_inv, by decide +kernel⟩, readyState_inv readSym_freq_cleared_small (by decide +kernel),
    rfl, by decide +kernel⟩

/-- Also for CodeEntriesFitTheirFields and CodesArePrefixFree: two coded symbols of lengths 1 and 2. -/
theorem witness_CodedExactlyWhenCounted :
    Inv (readyState v1) ∧ (readyState v1).phase = .ready ∧ ((readyState v1).codeAt 0x61).len = 1 ∧
    ((readyState v1).codeAt 0x62).len = 2 ∧ (0x61#8 ≠ 0x62#8) :=
  ⟨v1_ready_inv, rfl, by decide +kernel, by decide +kernel, by decide⟩

/-- Also for CodeLengthsAreOptimal: three symbols, one symbol, none. -/
theorem witness_CodeLengthsMeetKraftEquality :
    (Inv (readyState v1) ∧ 2 ≤ (readyState v1).nsym.toNat) ∧ (Inv (readyState v3) ∧ (readyState v3).nsym.toNat = 1) ∧
    (Inv (readyState []) ∧ (readyState []).nsym.toNat = 0) :=
  ⟨⟨v1_ready_inv, by decide +kernel⟩, ⟨v3_ready_inv, by decide +kernel⟩,
    ⟨readyState_inv readSym_freq_cleared_small (by decide +kernel), by decide +kernel⟩⟩

/-- A prefix-free code on the symbols of V1, as the competing code of CodeLengthsAreOptimal. -/
theorem witness_CodeLengthsAreOptimal :
    ∃ c : Symbol → List Bool, ∀ x y, (readyState v1).freqAt x ≠ 0 → (readyState v1).freqAt y ≠ 0 → x ≠ y →
      ¬ c x <+: c y := by
  refine ⟨fun x => msbFirst 8 x.toNat, fun x y _ _ hne h => hne ?_⟩
  have he : msbFirst 8 x.toNat = msbFirst 8 y.toNat := h.eq_of_length (by simp)
  have hb : ∀ j, j < 8 → x.toNat.testBit j = y.toNat.testBit j := by
    intro j hj
    have hx := msbFirst_getElem 8 x.toNat (7 - j) (by simp; omega)
    have hy := msbFirst_getElem 8 y.toNat (7 - j) (by simp; omega)
    have e : 8 - 1 - (7 - j) = j := by omega
    rw [e] at hx hy
    rw [← hx, ← hy]
    simp only [he]
  ext j hj
  exact hb j hj

theorem witness_DeepLeafNeedsFibonacciWeight :
    Inv (treeState v1) ∧ (treeState v1).phase = .tree ∧ (treeState v1).freqAt 0x63 ≠ 0 ∧
    PathTo (treeState v1).node (treeState v1).root [true, false] (leafId 0x63) ∧
    (treeState v1).config = Config.default := ⟨v1_tree_inv, rfl, by decide +kernel, v1_path_c, rfl⟩

theorem witness_EstartClearsString : (readyState v1).phase = .ready ∧ (treeState v1).phase ≠ .ready := by decide

/-- A code that fits, a symbol without a code, and a code at the limit of `BITLEN_W = 3` (T6 row 7 with two bits). -/
theorem witness_EncAppendsCode :
    ((readyState v1).phase = .ready ∧ 0 < ((readyState v1).codeAt 0x62).len ∧
      (readyState v1).bitlen + ((readyState v1).codeAt 0x62).len ≤ 2 ^ 3 - 1) ∧
    ((readyState v1).codeAt 0x64).len = 0 ∧ 2 ^ 3 - 1 < 6 + ((readyState v1).codeAt 0x62).len ∧
    (treeState v1).phase ≠ .ready := by decide +kernel

theorem witness_ElenReadsLengths :
    (readyState v1).phase = .ready ∧ Inv (readyState v1) ∧ (treeState v1).phase ≠ .ready :=
  ⟨rfl, v1_ready_inv, by decide⟩

theorem witness_StringResultIsConcatenation :
    (readyState v1).phase = .ready ∧ (∀ b ∈ [0x61#8, 0x61#8, 0x62#8], 0 < ((readyState v1).codeAt b).len) ∧
    stringLen (readyState v1).code [0x61#8, 0x61#8, 0x62#8] ≤ 2 ^ (readyState v1).config.bitlenW - 1 := by
  decide +kernel

theorem witness_StreamDecodesUniquely :
    Inv (readyState v1) ∧ (readyState v1).phase = .ready ∧
    (∀ b ∈ [0x61#8, 0x63#8], 0 < ((readyState v1).codeAt b).len) ∧
    ((readyState v1).codeAt 0x61).bits <+: [false, true] :=
  ⟨v1_ready_inv, rfl, by decide +kernel, by decide +kernel⟩

/-- A bit inside the string and an unused one: nine bits make two bytes. -/
theorem witness_PackFillsFromTheTop :
    8 < (List.replicate 9 true).length ∧ (List.replicate 9 true).length ≤ 9 ∧
    9 < 8 * (pack (List.replicate 9 true)).length := by decide

theorem witness_ResponseIsHeldUntilTaken :
    (Block.mk State.reset (.offering ⟨.ok, 0, 0⟩)).port = .offering ⟨.ok, 0, 0⟩ ∧
    (Pins.mk false false 0 true true false).rst = false ∧ (Pins.mk false false 0 true true false).rspReady = true ∧
    (Pins.mk false false 0 false true false).rspReady = false := ⟨rfl, rfl, rfl, rfl⟩

/-- An idle block that takes `CNT 'a'`: after the accepting edge and one more it still works; with `done` it offers. -/
theorem witness_ResetAbandonsCommand :
    let b := Block.mk State.reset .idle
    let p := Pins.mk false true 0x2061 false true false
    let wait := Pins.mk false false 0 false false false
    let finish := Pins.mk false false 0 false false true
    let q := Pins.mk true false 0 false false false
    b.cmdReady p = true ∧ p.cmdValid = true ∧ q.rst = true ∧ (∀ x ∈ [wait, finish], x.rst = false) ∧
    (∀ k ≤ [wait, finish].length, ((b.edge p).run ([wait, finish].take k)).port ≠ .idle) ∧
    (b.edge p).port = .working ⟨.ok, 0, 0⟩ ∧ ((b.edge p).run [wait, finish]).port = .offering ⟨.ok, 0, 0⟩ := by
  decide +kernel

/-- Accept `CNT 'a'`, work, deliver: idle again, one command accepted. -/
theorem witness_PortRunIsStepRun :
    let ps := [Pins.mk false true 0x2061 false true false, Pins.mk false false 0 false false true,
      Pins.mk false false 0 true false false]
    (∀ p ∈ ps, p.rst = false) ∧ ((Block.mk State.reset .idle).run ps).port = .idle ∧
    (Block.mk State.reset .idle).accepted ps = [0x2061] := by decide +kernel

/-- 30_encoding.md R95: the delay is any number of cycles; offered in the cycle right after acceptance. -/
theorem test_port_offers_in_next_cycle :
    ((Block.mk State.reset .idle).edge (Pins.mk false true 0x2061 false true true)).port = .offering ⟨.ok, 0, 0⟩ := by
  decide +kernel

theorem witness_CanonicalRunDecodes :
    State.reset.config = Config.default ∧ [0x61#8, 0x62#8] ∈ [[0x61#8, 0x62#8], []] ∧
    (∀ x, ([[0x61#8, 0x62#8], []] : List (List Symbol)).flatten.count x ≤ 2 ^ 32 - 1) ∧
    57 * [0x61#8, 0x62#8].length ≤ 2 ^ 32 - 1 :=
  ⟨rfl, by decide, fun _ => List.count_le_length.trans (by decide), by decide⟩

theorem witness_TextReadsBack : (Instr.qnode 510).wellFormed = true ∧ (Instr.cnt 0x61).wellFormed = true := by decide

end Sys2Proof.Tests
end

section
/-! PROOFS. Family 00_scope: one response per command (R14), and the width of a response value (R11). -/

namespace Sys2Proof.Machine

/-! ### One response per command -/

/-- `t` is `s` after a command that answered `r`: what the host has offered besides is untouched and `r` is the one new
response (00_scope.md R14). -/
structure Answered (s t : State) (r : Response) : Prop where
  inbox  : t.inbox = s.inbox
  outbox : t.outbox = s.outbox ++ [r]

theorem respond_answered (s : State) (st : Status) (v : Nat) (a : Aux) : Answered s (s.respond st v a) ⟨st, v, a⟩ :=
  ⟨rfl, rfl⟩

theorem raise_answered (s : State) (st : Status) : Answered s (s.raise st) ⟨st, 0, 0⟩ := respond_answered s st 0 0

/-- The number a command reports in `val` when it reports one (30_encoding.md R100): the entry it names, or `BITLEN`. -/
def readout : Instr → State → Nat
  | .enc x, s | .qcode x, s => (s.codeAt x).val
  | .elen, s => s.bitlen
  | .qfreq x, s => s.freqAt x
  | .qnode i, s => (s.nodeAt i).weight
  | .clr, _ | .cnt _, _ | .build, _ | .assign, _ | .estart, _ | .qstat, _ => 0

/-- A command's own work gives exactly one response, whose value is 0 or the command's readout. -/
theorem effect_answered (i : Instr) (s : State) :
    ∃ r, Answered s (effect i s) r ∧ (r.val = 0 ∨ r.val = readout i s) := by
  cases i with
  | clr | build | estart | qstat => exact ⟨_, ⟨rfl, rfl⟩, .inl rfl⟩
  | elen | qfreq _ | qnode _ | qcode _ => exact ⟨_, ⟨rfl, rfl⟩, .inr rfl⟩
  | cnt x =>
    simp only [effect]
    rcases countByte_cases s x with ⟨-, e⟩ | ⟨-, e⟩ <;> rw [e] <;> exact ⟨_, ⟨rfl, rfl⟩, .inl rfl⟩
  | assign =>
    simp only [effect]
    rcases assign_cases s with ⟨-, e⟩ | ⟨-, -, e⟩ | ⟨-, -, e⟩ <;> rw [e] <;> exact ⟨_, ⟨rfl, rfl⟩, .inl rfl⟩
  | enc x =>
    simp only [effect]
    rcases encodeByte_cases s x with ⟨-, e⟩ | ⟨-, -, e⟩ | ⟨-, -, e⟩ <;> rw [e]
    · exact ⟨_, ⟨rfl, rfl⟩, .inl rfl⟩
    · exact ⟨_, ⟨rfl, rfl⟩, .inl rfl⟩
    · exact ⟨_, ⟨rfl, rfl⟩, .inr rfl⟩

/-- So does every command in every phase; a refusal's value is 0. -/
theorem exec_answered (i : Instr) (s : State) :
    ∃ t r, exec i s = .next t ∧ Answered s t r ∧ (r.val = 0 ∨ r.val = readout i s) := by
  cases hw : i.wellFormed with
  | false => exact ⟨_, _, exec_not_wellFormed hw s, raise_answered s _, .inl rfl⟩
  | true =>
    rw [exec_eq_gated hw]
    cases hl : legalIn i s.phase with
    | false => exact ⟨_, _, gated_refused hl _, raise_answered s _, .inl rfl⟩
    | true =>
      obtain ⟨r, ha, hv⟩ := effect_answered i s
      exact ⟨_, r, gated_legal hl _, ha, hv⟩

/-- And so does every 16-bit word (00_scope.md R14). -/
theorem acceptWord_answered (w : CmdWord) (s : State) :
    ∃ t r, acceptWord w s = .next t ∧ Answered s t r ∧ (r.val = 0 ∨ ∃ i, r.val = readout i s) := by
  rcases acceptWord_cases w s with ⟨i, -, e⟩ | ⟨_, -, e⟩
  · obtain ⟨t, r, ht, ha, hv⟩ := exec_answered i s
    exact ⟨t, r, e.trans ht, ha, hv.imp_right fun h => ⟨i, h⟩⟩
  · exact ⟨_, _, e, raise_answered s _, .inl rfl⟩

/-- Settles O7: by the event at the head of the inbox. -/
theorem everyStepAnswersOnce : Obligations.EveryStepAnswersOnce := by
  intro s
  cases hin : s.inbox with
  | nil => exact ⟨s, step_idle hin, by simp⟩
  | cons e rest =>
    cases e with
    | reset => exact ⟨_, step_reset hin, by simp [hin]⟩
    | command w =>
      obtain ⟨t, r, ht, ha, -⟩ := acceptWord_answered w s.pop
      exact ⟨t, (step_command hin).trans ht, by simp [ha.inbox, ha.outbox, hin]⟩

/-! ### Node weights of a tree -/

theorem readSym_le_totalCount (f : FreqTable) (x : Symbol) : readSym f x ≤ totalCount f :=
  List.le_sum_of_mem (List.mem_map_of_mem (mem_allSymbols x))

/-- 256 counters below `2^w` sum to less than `2^(w + 8)` (20_memory.md R81). -/
theorem totalCount_lt {f : FreqTable} {w : Nat} (h : ∀ x, readSym f x < 2 ^ w) : totalCount f < 2 ^ (w + 8) := by
  have hsum : totalCount f ≤ 256 * (2 ^ w - 1) := by
    refine (List.sum_le_card_nsmul _ (2 ^ w - 1) ?_).trans_eq (by simp)
    simpa using fun x => Nat.le_sub_one_of_lt (h x)
  have hw := Nat.two_pow_pos w
  rw [pow_add]
  omega

/-- No node of the arena weighs more than `W`. -/
def Arena.WeightsLe (a : Arena) (W : Nat) : Prop := ∀ i, (a.read i).weight ≤ W

theorem Arena.weightsLe_cleared (W : Nat) : Arena.WeightsLe Arena.cleared W := by
  intro i
  simp [Node.invalid]

theorem Arena.WeightsLe.write {a : Arena} {W : Nat} (h : a.WeightsLe W) (i : NodeId) {n : Node} (hn : n.weight ≤ W) :
    Arena.WeightsLe (a.write i n) W := by
  intro j
  by_cases hi : i.toNat < 511
  · rw [a.read_write hi]
    split
    · exact hn
    · exact h j
  · simpa [Arena.write, hi] using h j

theorem leafArena_weightsLe (f : FreqTable) : (leafArena f).WeightsLe (totalCount f) := by
  unfold leafArena
  exact List.foldlRecOn (motive := fun a : Arena => a.WeightsLe (totalCount f)) _ _ (Arena.weightsLe_cleared _)
    fun a ha x _ => ha.write _ (readSym_le_totalCount f x)

/-- The total weight of a queue. -/
def queueWeight (q : List QEntry) : Nat := (q.map QEntry.weight).sum

theorem leafQueue_weight_le (f : FreqTable) : queueWeight (leafQueue f) ≤ totalCount f := by
  have hsub : ((present f).map fun x => readSym f x).Sublist (allSymbols.map fun x => readSym f x) := by
    rw [present_eq_counted]
    exact List.filter_sublist.map _
  simpa [queueWeight, leafQueue, totalCount, Function.comp_def] using hsub.sum_le_sum fun _ _ => Nat.zero_le _

theorem extractMin_weight {q r : List QEntry} {m : QEntry} (h : extractMin q = some (m, r)) :
    queueWeight q = m.weight + queueWeight r := by
  simpa [queueWeight] using ((extractMin_perm h).map QEntry.weight).sum_eq

/-- A merge takes two weights off the queue and puts their sum back, so no node outweighs the whole queue
(41_tree_builder.md R151). -/
theorem mergeRounds_weightsLe {W : Nat} (fuel k : Nat) {a : Arena} {q : List QEntry} (ha : a.WeightsLe W)
    (hq : queueWeight q ≤ W) : Arena.WeightsLe (mergeRounds fuel k a q).1 W := by
  induction fuel generalizing k a q with
  | zero => exact ha
  | succ fuel ih =>
    cases h₁ : extractMin q with
    | none => simpa [mergeRounds, h₁] using ha
    | some p =>
      obtain ⟨m, q₁⟩ := p
      cases h₂ : extractMin q₁ with
      | none => simpa [mergeRounds, h₁, h₂] using ha
      | some p =>
        obtain ⟨n, q₂⟩ := p
        have hsum : queueWeight q = m.weight + (n.weight + queueWeight q₂) := by
          rw [extractMin_weight h₁, extractMin_weight h₂]
        rw [mergeRounds_round h₁ h₂]
        refine ih (k + 1) (ha.write _ ?_) ?_
        · simp only [innerNode]
          omega
        · have hnew : queueWeight (q₂ ++ [⟨m.weight + n.weight, innerId k⟩]) =
              queueWeight q₂ + (m.weight + n.weight) := by
            simp [queueWeight]
          omega

/-- No node of a built tree weighs more than all counters together. -/
theorem buildTree_weightsLe (f : FreqTable) : (buildTree f).node.WeightsLe (totalCount f) := by
  by_cases h : present f = []
  · rw [buildTree_none h]
    exact Arena.weightsLe_cleared _
  · rw [buildTree_some h]
    exact mergeRounds_weightsLe _ _ (leafArena_weightsLe f) (leafQueue_weight_le f)

/-! ### Lengths and values of codes -/

/-- An entry of the table is zero or comes from a record of the traversal (42_code_assigner.md R181). -/
theorem tableOf_cases (codes : List LeafCode) (x : Symbol) :
    readSym (tableOf codes) x = CodeEntry.zero ∨ ∃ c ∈ codes, readSym (tableOf codes) x = ⟨c.len, c.val⟩ := by
  refine List.foldlRecOn codes _
    (motive := fun t : CodeTable => readSym t x = CodeEntry.zero ∨ ∃ c ∈ codes, readSym t x = ⟨c.len, c.val⟩)
    (.inl (readSym_code_cleared x)) fun t ht c hc => ?_
  rw [readSym_writeSym]
  split
  · exact .inr ⟨c, hc, rfl⟩
  · exact ht

/-- Every value recorded fits its length (20_memory.md R83). -/
theorem leafCodes_val_lt {a : Arena} {root : NodeId} {c : LeafCode} (hc : c ∈ leafCodes a root) :
    c.val < 2 ^ c.len := by
  unfold leafCodes at hc
  split at hc
  · obtain rfl := List.mem_singleton.1 hc
    exact Nat.two_pow_pos 1
  · exact walk_val_lt walkDepth Nat.one_pos hc

/-- Every length recorded is within the depth `ASSIGN` checks, or the 1 of a sole symbol (42_code_assigner.md R182). -/
theorem leafCodes_len_le {a : Arena} {root : NodeId} {c : LeafCode} (hc : c ∈ leafCodes a root) :
    c.len ≤ max 1 (maxDepth a root) := by
  cases hl : (a.read root).leaf with
  | true =>
    rw [leafCodes_sole hl] at hc
    obtain rfl := List.mem_singleton.1 hc
    exact le_max_left _ _
  | false =>
    refine le_trans ?_ (le_max_right _ _)
    have e : maxDepth a root = ((leafCodes a root).map LeafCode.len).max?.getD 0 := by
      simpa [maxDepth, hl, List.foldl_map] using List.foldl_max (l := (leafCodes a root).map LeafCode.len) (a := 0)
    rw [e]
    exact List.le_max?_getD_of_mem (List.mem_map_of_mem hc)

/-- The entries of a frequency table's codes: lengths within the depth or 1, values within their lengths. -/
theorem codesOf_bounds (f : FreqTable) (x : Symbol) :
    (readSym (codesOf f) x).len ≤ max 1 (depthOf f) ∧
      (readSym (codesOf f) x).val < 2 ^ (readSym (codesOf f) x).len := by
  cases he : (buildTree f).empty with
  | true => simp [codesOf, he, CodeEntry.zero]
  | false =>
    simp only [codesOf, depthOf, he, Bool.false_eq_true, if_false]
    rcases tableOf_cases (leafCodes (buildTree f).node (buildTree f).root) x with e | ⟨c, hc, e⟩
    · simp [e, CodeEntry.zero]
    · rw [e]
      exact ⟨leafCodes_len_le hc, leafCodes_val_lt hc⟩

/-! ### What the invariant bounds -/

/-- Taking an event from the inbox keeps the invariant, which does not speak of the ports. -/
theorem Inv.pop {s : State} (h : Inv s) : Inv s.pop := ⟨h.config, h.counts, h.stream, h.bitlen, h.row⟩

/-- The arena is empty or the tree of the counters, whatever the phase (10_state.md R43). -/
theorem Inv.node_cases {s : State} (h : Inv s) : s.node = Arena.cleared ∨ s.node = (buildTree s.freq).node := by
  have hrow := h.row
  cases hp : s.phase <;> simp only [PhaseRow, hp] at hrow
  case tree =>
    obtain ⟨⟨hn, -⟩, -⟩ := hrow
    exact .inr hn
  case count | ready | fault =>
    obtain ⟨⟨hn, -⟩, -⟩ := hrow
    exact .inl hn

/-- The code table is empty or that of the counters, with no code deeper than allowed (10_state.md R43). -/
theorem Inv.code_cases {s : State} (h : Inv s) :
    s.code = CodeTable.cleared ∨ (s.code = codesOf s.freq ∧ depthOf s.freq ≤ s.config.maxCodeLen) := by
  have hrow := h.row
  cases hp : s.phase <;> simp only [PhaseRow, hp] at hrow
  case count =>
    obtain ⟨-, -, -, hc, -⟩ := hrow
    exact .inl hc
  case ready =>
    obtain ⟨-, -, hc, hd, -⟩ := hrow
    exact .inr ⟨hc, hd⟩
  case tree | fault =>
    obtain ⟨-, hc, -⟩ := hrow
    exact .inl hc

/-- Every weight fits in `WEIGHT_W` bits (20_memory.md R81). -/
theorem Inv.weight_lt {s : State} (h : Inv s) (i : NodeId) : (s.nodeAt i).weight < 2 ^ s.config.weightW := by
  have hle : s.node.WeightsLe (totalCount s.freq) := by
    rcases h.node_cases with e | e <;> rw [e]
    · exact Arena.weightsLe_cleared _
    · exact buildTree_weightsLe _
  exact (hle i).trans_lt (totalCount_lt h.counts)

/-- Lengths are within `MAX_CODE_LEN` and values within their lengths (10_state.md R31). -/
theorem Inv.code_bounds {s : State} (h : Inv s) (x : Symbol) :
    (s.codeAt x).len ≤ s.config.maxCodeLen ∧ (s.codeAt x).val < 2 ^ (s.codeAt x).len := by
  rcases h.code_cases with e | ⟨e, hd⟩
  · simp [State.codeAt, e, CodeEntry.zero]
  · obtain ⟨-, hmax, -⟩ := h.config
    obtain ⟨hlen, hval⟩ := codesOf_bounds s.freq x
    rw [State.codeAt, e]
    exact ⟨hlen.trans (max_le hmax hd), hval⟩

/-- `VAL_W` is at least each width it is the maximum of (00_scope.md R11). -/
theorem config_widths_le_valW (c : Config) :
    c.freqW ≤ c.valW ∧ c.weightW ≤ c.valW ∧ c.maxCodeLen ≤ c.valW ∧ c.bitlenW ≤ c.valW := by
  simp only [Config.valW, Config.weightW]
  omega

/-- Whatever a command can report fits the response's value field (30_encoding.md R100). -/
theorem Inv.readout_lt {s : State} (h : Inv s) (i : Instr) : readout i s < 2 ^ s.config.valW := by
  obtain ⟨hfreq, hweight, hcode, hbitlen⟩ := config_widths_le_valW s.config
  have widen {v w : Nat} (hv : v < 2 ^ w) (hw : w ≤ s.config.valW) : v < 2 ^ s.config.valW :=
    hv.trans_le (Nat.pow_le_pow_right Nat.two_pos hw)
  cases i with
  | enc x | qcode x =>
    obtain ⟨hlen, hval⟩ := h.code_bounds x
    exact widen hval (hlen.trans hcode)
  | elen => exact widen h.bitlen hbitlen
  | qfreq x => exact widen (h.counts x) hfreq
  | qnode i => exact widen (h.weight_lt i) hweight
  | clr | cnt _ | build | assign | estart | qstat => exact Nat.two_pow_pos _

/-- Settles O22: a response carries 0 or the readout of the command, which the invariant bounds. -/
theorem responsesFitTheirFields : Obligations.ResponsesFitTheirFields := by
  intro s h
  cases hin : s.inbox with
  | nil => exact ⟨s, step_idle hin, by simp⟩
  | cons e rest =>
    cases e with
    | reset => exact ⟨_, step_reset hin, by simp⟩
    | command w =>
      obtain ⟨t, r, ht, ha, hv⟩ := acceptWord_answered w s.pop
      refine ⟨t, (step_command hin).trans ht, fun r' hr' => ?_⟩
      obtain rfl : r = r' := by simpa [ha.outbox] using hr'
      rcases hv with h0 | ⟨i, hi⟩
      · rw [h0]
        exact Nat.two_pow_pos _
      · rw [hi]
        exact h.pop.readout_lt i

end Sys2Proof.Machine
end

section
/-! PROOFS. Family 10_state: what every command may write (R20, R24), and the invariant of R43. -/

namespace Sys2Proof.Machine

/-! ### What a command may write -/

/-- The "written by" column of 10_state.md R20: `t` differs from `s` only in elements that the command `i` may write. -/
structure WritesListed (i : Instr) (s t : State) : Prop where
  config  : t.config = s.config
  phase   : t.phase ≠ s.phase → i = .clr ∨ i = .build ∨ i = .assign ∨ ∃ x, i = .cnt x
  freq    : t.freq ≠ s.freq → i = .clr ∨ ∃ x, i = .cnt x
  node    : t.node ≠ s.node → i = .clr ∨ i = .build ∨ i = .assign
  root    : t.root ≠ s.root → i = .clr ∨ i = .build ∨ i = .assign
  nsym    : t.nsym ≠ s.nsym → i = .clr ∨ i = .build
  empty   : t.empty ≠ s.empty → i = .clr ∨ i = .build
  code    : t.code ≠ s.code → i = .clr ∨ i = .assign
  bitlen  : t.bitlen ≠ s.bitlen → i = .clr ∨ i = .estart ∨ ∃ x, i = .enc x
  ostream : t.ostream ≠ s.ostream → i = .clr ∨ i = .estart ∨ ∃ x, i = .enc x
  unk     : t.unk ≠ s.unk → i = .clr ∨ i = .estart ∨ ∃ x, i = .enc x
  lovf    : t.lovf ≠ s.lovf → i = .clr ∨ i = .estart ∨ ∃ x, i = .enc x
  fcode   : t.fcode ≠ s.fcode → i = .clr ∨ i = .assign ∨ ∃ x, i = .cnt x

/-- A response alone writes no element, whatever the command. -/
theorem respond_writesListed (i : Instr) (s : State) (st : Status) (v : Nat) (a : Aux) :
    WritesListed i s (s.respond st v a) := by
  constructor <;> simp

theorem raise_writesListed (i : Instr) (s : State) (st : Status) : WritesListed i s (s.raise st) :=
  respond_writesListed i s st 0 0

/-- A command's own work writes only what is listed for it. -/
theorem effect_writesListed (i : Instr) (s : State) : WritesListed i s (effect i s) := by
  cases i with
  | elen | qfreq _ | qnode _ | qcode _ | qstat => exact respond_writesListed _ s _ _ _
  | clr => constructor <;> simp [effect]
  | build => constructor <;> simp [effect, State.build]
  | estart => constructor <;> simp [effect, State.startString]
  | cnt x =>
    simp only [effect]
    rcases countByte_cases s x with ⟨-, e⟩ | ⟨-, e⟩ <;> rw [e] <;> constructor <;> simp
  | assign =>
    simp only [effect]
    rcases assign_cases s with ⟨-, e⟩ | ⟨-, -, e⟩ | ⟨-, -, e⟩ <;> rw [e] <;> constructor <;> simp
  | enc x =>
    simp only [effect]
    rcases encodeByte_cases s x with ⟨-, e⟩ | ⟨-, -, e⟩ | ⟨-, -, e⟩ <;> rw [e] <;> constructor <;> simp

theorem exec_writesListed {i : Instr} {s t : State} (h : exec i s = .next t) : WritesListed i s t := by
  rcases exec_cases h with ⟨-, -, rfl⟩ | ⟨-, -, rfl⟩ | ⟨-, rfl⟩
  · exact effect_writesListed i s
  · exact raise_writesListed i s _
  · exact raise_writesListed i s _

/-- Settles O12: command by command, through the work of each. -/
theorem onlyListedCommandsWrite : Obligations.OnlyListedCommandsWrite := by
  intro i s
  obtain ⟨t, r, ht, ha, -⟩ := exec_answered i s
  have w := exec_writesListed ht
  exact ⟨t, ht, w.config, ha.inbox, w.phase, w.freq, w.node, w.root, w.nsym, w.empty, w.code, w.bitlen, w.ostream,
    w.unk, w.lovf, w.fcode⟩

end Sys2Proof.Machine

namespace Sys2Proof

/-! ### The word of a decoded command -/

theorem noOperand_instr {opd : BitVec 9} {i j : Instr} (h : noOperand opd j = .instr i) : j = i ∧ opd = 0#9 := by
  unfold noOperand at h
  split at h
  · next h0 => exact ⟨by simpa using h, h0⟩
  · cases h

theorem symbolOperand_instr {opd : BitVec 9} {mk : Symbol → Instr} {i : Instr} (h : symbolOperand opd mk = .instr i) :
    ∃ x : Symbol, mk x = i ∧ opd = x.zeroExtend 9 := by
  unfold symbolOperand at h
  split at h
  · next h8 =>
    refine ⟨opd.extractLsb' 0 8, by simpa using h, BitVec.eq_of_toNat_eq ?_⟩
    have hb := congrArg BitVec.toNat h8
    simp [Nat.shiftRight_eq_div_pow] at hb ⊢
    omega
  · cases h

theorem nodeOperand_instr {opd : BitVec 9} {mk : NodeId → Instr} {i : Instr} (h : nodeOperand opd mk = .instr i) :
    mk opd = i ∧ opd ≠ 511#9 := by
  unfold nodeOperand at h
  split at h
  · cases h
  · next h0 => exact ⟨by simpa using h, h0⟩

/-- A defined opcode's word has the number and operand field of the command it decodes to (30_encoding.md R92, R93). -/
theorem decodeOp_instr {op : BitVec 4} {opd : BitVec 9} {i : Instr} (h : decodeOp op opd = some (.instr i)) :
    opcodeOf i = op ∧ operandOf i = opd := by
  have hop {n : Nat} (hn : op.toNat = n) : BitVec.ofNat 4 n = op := by simp [← hn]
  unfold decodeOp at h
  split at h
  case h_12 => cases h
  case h_2 | h_6 | h_8 | h_10 =>
    next hn =>
    obtain ⟨x, rfl, rfl⟩ := symbolOperand_instr (Option.some.inj h)
    exact ⟨hop hn, rfl⟩
  case h_9 =>
    next hn =>
    obtain ⟨rfl, -⟩ := nodeOperand_instr (Option.some.inj h)
    exact ⟨hop hn, rfl⟩
  all_goals
    next hn =>
    obtain ⟨rfl, rfl⟩ := noOperand_instr (Option.some.inj h)
    exact ⟨hop hn, rfl⟩

/-- A word that decodes to a command is that command's encoding (30_encoding.md R91). -/
theorem encode_of_decodeWord {w : CmdWord} {i : Instr} (h : decodeWord w = .instr i) : encode i = w := by
  unfold decodeWord at h
  split at h
  · cases h
  · next d hd =>
    split at h
    · next hr =>
      rw [h] at hd
      obtain ⟨hop, hopd⟩ := decodeOp_instr hd
      rw [encode, hop, hopd, ← hr, word_eq_fields]
    · cases h

end Sys2Proof

namespace Sys2Proof.Machine

/-! ### What a step can do -/

/-- All a step can do: it always goes on, by the event at the head of the inbox. -/
theorem step_next (s : State) : ∃ t, step s = .next t ∧
    ((s.inbox = [] ∧ t = s) ∨ (∃ rest, s.inbox = .reset :: rest ∧ t = s.pop.clear) ∨
      ∃ w rest, s.inbox = .command w :: rest ∧ acceptWord w s.pop = .next t) := by
  cases hin : s.inbox with
  | nil => exact ⟨s, step_idle hin, .inl ⟨rfl, rfl⟩⟩
  | cons e rest =>
    cases e with
    | reset => exact ⟨_, step_reset hin, .inr (.inl ⟨rest, rfl, rfl⟩)⟩
    | command w =>
      obtain ⟨t, r, ht, -, -⟩ := acceptWord_answered w s.pop
      exact ⟨t, (step_command hin).trans ht, .inr (.inr ⟨w, rest, rfl, ht⟩)⟩

/-! ### The counters -/

/-- What a command's own work does to the counters (10_state.md R24): only `CLR` zeroes them, and only `CNT` counts. -/
theorem effect_freq (i : Instr) (s : State) :
    (effect i s).freq = s.freq ∨ (i = .clr ∧ (effect i s).freq = FreqTable.cleared) ∨
      ∃ x, i = .cnt x ∧ (effect i s).freq = writeSym s.freq x (s.freqAt x + 1) := by
  cases i with
  | clr => exact .inr (.inl ⟨rfl, rfl⟩)
  | cnt x =>
    simp only [effect]
    rcases countByte_cases s x with ⟨-, e⟩ | ⟨-, e⟩ <;> rw [e]
    · exact .inl rfl
    · exact .inr (.inr ⟨x, rfl, rfl⟩)
  | assign =>
    simp only [effect]
    rcases assign_cases s with ⟨-, e⟩ | ⟨-, -, e⟩ | ⟨-, -, e⟩ <;> rw [e] <;> exact .inl rfl
  | enc x =>
    simp only [effect]
    rcases encodeByte_cases s x with ⟨-, e⟩ | ⟨-, -, e⟩ | ⟨-, -, e⟩ <;> rw [e] <;> exact .inl rfl
  | build | estart | elen | qfreq _ | qnode _ | qcode _ | qstat => exact .inl rfl

/-- So does an accepted word; `CNT` counts in phase `COUNT` alone. -/
theorem acceptWord_freq {w : CmdWord} {s t : State} (h : acceptWord w s = .next t) :
    t.freq = s.freq ∨ (w = encode .clr ∧ t.freq = FreqTable.cleared) ∨
      ∃ x, w = encode (.cnt x) ∧ s.phase = .count ∧ t.freq = writeSym s.freq x (s.freqAt x + 1) := by
  rcases acceptWord_cases w s with ⟨i, hd, e⟩ | ⟨_, -, e⟩ <;> rw [e] at h
  · have hw := (encode_of_decodeWord hd).symm
    rcases exec_cases h with ⟨-, hl, rfl⟩ | ⟨-, -, rfl⟩ | ⟨-, rfl⟩
    · rcases effect_freq i s with hf | ⟨rfl, hf⟩ | ⟨x, rfl, hf⟩
      · exact .inl hf
      · exact .inr (.inl ⟨hw, hf⟩)
      · exact .inr (.inr ⟨x, hw, by simpa [legalIn] using hl, hf⟩)
    · exact .inl rfl
    · exact .inl rfl
  · cases h
    exact .inl rfl

/-- Settles O14: the counters stay, or reset or `CLR` zeroes them, or a `CNT` in phase `COUNT` raises one. -/
theorem countersMoveOnlyByCntClrReset : Obligations.CountersMoveOnlyByCntClrReset := by
  intro s
  obtain ⟨t, ht, ⟨-, rfl⟩ | ⟨rest, hin, rfl⟩ | ⟨w, rest, hin, hw⟩⟩ := step_next s
  · exact ⟨t, ht, .inl fun _ => rfl⟩
  · exact ⟨_, ht, .inr (.inl ⟨rest, .inl hin, by simp [State.freqAt]⟩)⟩
  · refine ⟨t, ht, ?_⟩
    rcases acceptWord_freq hw with hf | ⟨rfl, hf⟩ | ⟨x, rfl, hp, hf⟩
    · exact .inl fun y => by simp [State.freqAt, hf]
    · exact .inr (.inl ⟨rest, .inr hin, by simp [State.freqAt, hf]⟩)
    · refine .inr (.inr ⟨x, rest, hin, hp, by simp [State.freqAt, hf], fun y hy => ?_⟩)
      simp [State.freqAt, hf, readSym_writeSym_ne _ hy.symm]

/-! ### The reset state -/

/-- A cleared state is zero in every element (10_state.md R42). -/
theorem clear_elementsZero (s : State) : ElementsZero s.clear := by
  constructor <;> simp [State.freqAt, State.nodeAt, State.codeAt, Node.invalid, CodeEntry.zero]

theorem respond_elementsZero {s : State} (h : ElementsZero s) (st : Status) (v : Nat) (a : Aux) :
    ElementsZero (s.respond st v a) :=
  ⟨h.phase, h.freq, h.node, h.root, h.nsym, h.empty, h.code, h.bitlen, h.ostream, h.unk, h.lovf, h.fcode⟩

theorem exec_clr (s : State) : exec .clr s = .next (s.clear.respond .ok 0 0) := rfl

/-- The reset state is one that clearing leaves as it is. -/
theorem clear_reset : State.reset.clear = State.reset := rfl

/-- Settles O9: reset and `CLR` both clear, and the reset state is clear. -/
theorem resetAndClrZeroEveryElement : Obligations.ResetAndClrZeroEveryElement := by
  refine ⟨?_, fun s rest h => ⟨_, step_reset h, clear_elementsZero _⟩, fun s => ⟨_, exec_clr s, ?_⟩⟩
  · rw [← clear_reset]
    exact clear_elementsZero _
  · exact respond_elementsZero (clear_elementsZero s) _ _ _

/-! ### The invariant -/

/-- A response keeps the invariant, which does not speak of the ports. -/
theorem Inv.respond {s : State} (h : Inv s) (st : Status) (v : Nat) (a : Aux) : Inv (s.respond st v a) :=
  ⟨h.config, h.counts, h.stream, h.bitlen, h.row⟩

theorem Inv.raise {s : State} (h : Inv s) (st : Status) : Inv (s.raise st) := h.respond st 0 0

/-- Clearing gives a state of the invariant whenever the parameters are legal (10_state.md R42, R43). -/
theorem clear_inv {s : State} (h : s.config.Legal) : Inv s.clear where
  config := h
  counts x := by simp [State.freqAt]
  stream := rfl
  bitlen := Nat.two_pow_pos _
  row := ⟨⟨rfl, rfl⟩, rfl, rfl, rfl, ⟨rfl, rfl, rfl, rfl⟩, rfl⟩

/-- Settles O19: the reset state is clear and its parameters are the defaults. -/
theorem resetMeetsInvariant : Obligations.ResetMeetsInvariant :=
  clear_inv (s := State.reset) (by decide)

/-- Settles O21: row by row of the phase table. -/
theorem fcodeNonzeroExactlyInFault : Obligations.FcodeNonzeroExactlyInFault := by
  intro s h
  have hrow := h.row
  cases hp : s.phase <;> simp only [PhaseRow, hp] at hrow
  case count =>
    obtain ⟨-, -, -, -, -, hf⟩ := hrow
    simp [hf, FCode.bits]
  case tree =>
    obtain ⟨-, -, -, hf⟩ := hrow
    simp [hf, FCode.bits]
  case ready =>
    obtain ⟨-, -, -, -, hf⟩ := hrow
    simp [hf, FCode.bits]
  case fault =>
    obtain ⟨-, -, -, ⟨hf, -⟩ | ⟨hf, -⟩⟩ := hrow <;> simp [hf, FCode.bits]

/-- `CNT` counts, the counter staying within its width, or ends in the row of CountOverflow (10_state.md R43). -/
theorem Inv.countByte {s : State} (h : Inv s) (hp : s.phase = .count) (x : Symbol) : Inv (s.countByte x) := by
  have hrow := h.row
  simp only [PhaseRow, hp] at hrow
  obtain ⟨htree, hnsym, hempty, hcode, hstring, hfcode⟩ := hrow
  rcases countByte_cases s x with ⟨hx, e⟩ | ⟨hx, e⟩ <;> rw [e]
  · apply Inv.raise
    exact ⟨h.config, h.counts, h.stream, h.bitlen, ⟨htree, hcode, hstring, .inr ⟨rfl, hnsym, hempty, x, hx⟩⟩⟩
  · apply Inv.respond
    refine ⟨h.config, fun y => ?_, h.stream, h.bitlen, ?_⟩
    · have hlt := h.counts x
      simp only [Config.maxCount] at hx
      simp only [State.freqAt, State.setFreq_freq, State.setFreq_config, readSym_writeSym]
      split
      · simp only [State.freqAt] at *
        omega
      · exact h.counts y
    · simp only [PhaseRow, State.setFreq_phase, hp]
      exact ⟨htree, hnsym, hempty, hcode, hstring, hfcode⟩

/-- `BUILD` leaves the tree that the row of phase `TREE` asks for. -/
theorem Inv.build {s : State} (h : Inv s) (hp : s.phase = .count) : Inv s.build := by
  have hrow := h.row
  simp only [PhaseRow, hp] at hrow
  obtain ⟨-, -, -, hcode, hstring, hfcode⟩ := hrow
  apply Inv.respond
  exact ⟨h.config, h.counts, h.stream, h.bitlen, ⟨⟨rfl, rfl, rfl, rfl⟩, hcode, hstring, hfcode⟩⟩

/-- The empty tree is all zero (41_tree_builder.md R158). -/
theorem buildTree_of_empty {f : FreqTable} (h : (buildTree f).empty = true) :
    buildTree f = { node := Arena.cleared, root := 0, nsym := 0, empty := true } :=
  buildTree_none ((buildTree_empty f).1 h)

/-- `ASSIGN` leaves the codes of the tree, or the row of CodeOverflow when the tree is too deep (10_state.md R43). -/
theorem Inv.assign {s : State} (h : Inv s) (hp : s.phase = .tree) : Inv s.assign := by
  have hrow := h.row
  simp only [PhaseRow, hp] at hrow
  obtain ⟨⟨hnode, hroot, hnsym, hempty⟩, hcode, hstring, hfcode⟩ := hrow
  rcases assign_cases s with ⟨he, e⟩ | ⟨he, hd, e⟩ | ⟨he, hd, e⟩ <;> rw [e] <;> rw [hempty] at he
  · apply Inv.respond
    refine ⟨h.config, h.counts, h.stream, h.bitlen, ?_⟩
    rw [buildTree_of_empty he] at hnode hroot
    refine ⟨⟨hnode, hroot⟩, ⟨hnsym, hempty⟩, ?_, ?_, hfcode⟩
    · simp [codesOf, he, hcode]
    · simp [depthOf, he]
  · apply Inv.raise
    refine ⟨h.config, h.counts, h.stream, h.bitlen, ?_⟩
    refine ⟨⟨rfl, rfl⟩, rfl, hstring, .inl ⟨rfl, ⟨hnsym, hempty⟩, ?_⟩⟩
    simpa [depthOf, he, ← hnode, ← hroot] using hd
  · apply Inv.respond
    refine ⟨h.config, h.counts, h.stream, h.bitlen, ?_⟩
    refine ⟨⟨rfl, rfl⟩, ⟨hnsym, hempty⟩, ?_, ?_, hfcode⟩
    · simp [codesOf, he, ← hnode, ← hroot]
    · simpa [depthOf, he, ← hnode, ← hroot] using hd

/-- The row of phase `READY` does not speak of the string, so a string may change within its bounds. -/
theorem Inv.setString {s : State} (h : Inv s) (hp : s.phase = .ready) {n : Nat} {q : List Bool} (hq : q.length = n)
    (hn : n < 2 ^ s.config.bitlenW) (u l : Bool) : Inv { s with bitlen := n, ostream := q, unk := u, lovf := l } where
  config := h.config
  counts := h.counts
  stream := hq
  bitlen := hn
  row := by
    have hrow := h.row
    simp only [PhaseRow, hp] at hrow ⊢
    exact hrow

/-- `ENC` emits a code only when `BITLEN` stays within its width (43_encoder.md R214). -/
theorem Inv.encodeByte {s : State} (h : Inv s) (hp : s.phase = .ready) (x : Symbol) : Inv (s.encodeByte x) := by
  rcases encodeByte_cases s x with ⟨-, e⟩ | ⟨-, -, e⟩ | ⟨-, hle, e⟩ <;> rw [e]
  · exact .raise (h.setString hp h.stream h.bitlen true s.lovf) _
  · exact .raise (h.setString hp h.stream h.bitlen s.unk true) _
  · have hpos := Nat.two_pow_pos s.config.bitlenW
    refine .respond (h.setString hp ?_ ?_ s.unk s.lovf) _ _ _
    · simp [h.stream]
    · simp only [Config.maxBitlen] at hle
      omega

/-- A command's own work, done in a phase where it is legal, keeps the invariant. -/
theorem Inv.effect {s : State} (h : Inv s) {i : Instr} (hl : legalIn i s.phase = true) : Inv (effect i s) := by
  cases i with
  | clr => exact (clear_inv h.config).respond _ _ _
  | cnt x => exact h.countByte (by simpa [legalIn] using hl) x
  | build => exact h.build (by simpa [legalIn] using hl)
  | assign => exact h.assign (by simpa [legalIn] using hl)
  | estart =>
    have hp : s.phase = .ready := by simpa [legalIn] using hl
    exact .respond (h.setString hp (q := []) rfl (Nat.two_pow_pos _) false false) _ _ _
  | enc x => exact h.encodeByte (by simpa [legalIn] using hl) x
  | elen | qfreq _ | qnode _ | qcode _ | qstat => exact h.respond _ _ _

/-- So does every command in every phase. -/
theorem Inv.exec {i : Instr} {s t : State} (h : Inv s) (ht : exec i s = .next t) : Inv t := by
  rcases exec_cases ht with ⟨-, hl, rfl⟩ | ⟨-, -, rfl⟩ | ⟨-, rfl⟩
  · exact h.effect hl
  · exact h.raise _
  · exact h.raise _

/-- And so does every 16-bit word. -/
theorem Inv.acceptWord {w : CmdWord} {s t : State} (h : Inv s) (ht : acceptWord w s = .next t) : Inv t := by
  rcases acceptWord_cases w s with ⟨i, -, e⟩ | ⟨_, -, e⟩ <;> rw [e] at ht
  · exact h.exec ht
  · cases ht
    exact h.raise _

/-- Settles O20: waiting changes nothing, reset clears, and every accepted word keeps the invariant. -/
theorem stepKeepsInvariant : Obligations.StepKeepsInvariant := by
  intro s h
  obtain ⟨t, ht, ⟨-, rfl⟩ | ⟨rest, -, rfl⟩ | ⟨w, rest, -, hw⟩⟩ := step_next s
  · exact ⟨t, ht, h⟩
  · exact ⟨_, ht, clear_inv h.config⟩
  · exact ⟨t, ht, h.pop.acceptWord hw⟩

/-- Settles O60: from the bounds of the depth check, as `LEN_W` bits hold `MAX_CODE_LEN`. -/
theorem codeEntriesFitTheirFields : Obligations.CodeEntriesFitTheirFields := by
  intro s h x
  obtain ⟨hlen, hval⟩ := h.code_bounds x
  refine ⟨hlen, ?_, hval, hval.trans_le (Nat.pow_le_pow_right Nat.two_pos hlen), fun h0 => ?_⟩
  · calc (s.codeAt x).len < s.config.maxCodeLen + 1 := Nat.lt_succ_of_le hlen
      _ ≤ 2 ^ s.config.lenW := Nat.le_pow_clog Nat.one_lt_two _
  · rw [h0] at hval
    omega

end Sys2Proof.Machine
end

section
/-! PROOFS. Family 10_state: the tree in phase TREE (R26, R27, R28), by an invariant of BUILD's merge loop. -/

namespace Sys2Proof.Machine

/-! ### The slots of the arena -/

/-- A node id is a leaf's, an internal node's, or 511, which names nothing (10_state.md R27). -/
theorem nodeId_cases (i : NodeId) : (∃ x, i = leafId x) ∨ (∃ k < 255, i = innerId k) ∨ i = 511#9 := by
  have hi : i.toNat < 512 := i.isLt
  by_cases hl : i.toNat < 256
  · exact .inl ⟨BitVec.ofNat 8 i.toNat, BitVec.eq_of_toNat_eq (by rw [leafId_toNat]; simp; omega)⟩
  · by_cases h511 : i.toNat = 511
    · exact .inr (.inr (BitVec.eq_of_toNat_eq h511))
    · exact .inr (.inl ⟨i.toNat - 256, by omega, BitVec.eq_of_toNat_eq (by rw [innerId_toNat] <;> omega)⟩)

@[simp] theorem Arena.read_511 (a : Arena) : a.read 511#9 = Node.invalid := rfl

theorem innerId_lt {k : Nat} (h : k < 255) : (innerId k).toNat < 511 := by
  rw [innerId_toNat] <;> omega

theorem innerId_inj {j k : Nat} (hj : j < 256) (hk : k < 256) (h : innerId j = innerId k) : j = k := by
  have := congrArg BitVec.toNat h
  rw [innerId_toNat hj, innerId_toNat hk] at this
  omega

/-! ### The leaf loop -/

/-- The arena after the leaves of a list of symbols are written. -/
theorem read_writeLeaves (f : FreqTable) (l : List Symbol) (a : Arena) (x : Symbol) :
    Arena.read (l.foldl (fun a s => a.write (leafId s) (leafNode f s)) a) (leafId x) =
      if x ∈ l then leafNode f x else a.read (leafId x) := by
  induction l generalizing a with
  | nil => simp
  | cons y l ih =>
    have hy : (leafId y).toNat < 511 := (leafId_lt y).trans (by decide)
    rw [List.foldl_cons, ih, a.read_write hy]
    by_cases hx : x = y
    · subst hx
      simp
    · have hid : leafId y ≠ leafId x := fun e => hx (leafId_injective e).symm
      simp [hx, hid]

/-- A symbol's slot after the leaf loop (41_tree_builder.md R152). -/
theorem leafArena_leaf (f : FreqTable) (x : Symbol) :
    (leafArena f).read (leafId x) = if readSym f x = 0 then Node.invalid else leafNode f x := by
  rw [leafArena, read_writeLeaves]
  simp

/-- The leaf loop writes no internal node. -/
theorem leafArena_inner (f : FreqTable) {k : Nat} (h : k < 256) : (leafArena f).read (innerId k) = Node.invalid := by
  unfold leafArena
  refine List.foldlRecOn (motive := fun a : Arena => a.read (innerId k) = Node.invalid) _ _ (Arena.read_cleared _) ?_
  intro a ha x _
  rw [a.read_write_ne (innerId_ne_leafId h x).symm, ha]

/-! ### Adding an internal node -/

/-- Every valid slot of `a` stands in `b` as it is: `b` comes from `a` by creating nodes. -/
def Arena.Grows (a b : Arena) : Prop := ∀ i, (a.read i).valid = true → b.read i = a.read i

theorem Arena.grows_write {a : Arena} {c : NodeId} (hc : (a.read c).valid = false) (n : Node) :
    a.Grows (a.write c n) := by
  intro i hi
  exact a.read_write_ne (by rintro rfl; simp [hc] at hi) n

/-- A path stays a path. -/
theorem PathTo.grows {a b : Arena} (h : a.Grows b) {i j : NodeId} {e : List Bool} (hp : PathTo a i e j) :
    PathTo b i e j := by
  induction hp with
  | here i => exact .here i
  | left hv hl _ ih =>
    have hi := h _ hv
    exact .left (by rw [hi, hv]) (by rw [hi, hl]) (by rw [hi]; exact ih)
  | right hv hl _ ih =>
    have hi := h _ hv
    exact .right (by rw [hi, hv]) (by rw [hi, hl]) (by rw [hi]; exact ih)

/-- Slot `p` holds a merge of two valid nodes (10_state.md R25, R26). -/
structure IsMerge (a : Arena) (p : NodeId) : Prop where
  valid       : (a.read p).valid = true
  leaf        : (a.read p).leaf = false
  sym         : (a.read p).sym = 0
  distinct    : (a.read p).left ≠ (a.read p).right
  left_valid  : (a.read (a.read p).left).valid = true
  right_valid : (a.read (a.read p).right).valid = true
  weight      : (a.read p).weight = (a.read (a.read p).left).weight + (a.read (a.read p).right).weight

theorem IsMerge.grows {a b : Arena} (h : a.Grows b) {p : NodeId} (hm : IsMerge a p) : IsMerge b p := by
  have hp := h p hm.valid
  have hl := h _ hm.left_valid
  have hr := h _ hm.right_valid
  constructor <;> simp only [hp, hl, hr]
  exacts [hm.valid, hm.leaf, hm.sym, hm.distinct, hm.left_valid, hm.right_valid, hm.weight]

/-- A fresh internal node is a parent of its two children, and no other parent changes. -/
theorem isChild_write {a : Arena} {c : NodeId} (hc : (a.read c).valid = false) (hlt : c.toNat < 511) (m n : QEntry)
    (i p : NodeId) :
    IsChild (a.write c (innerNode m n)) i p ↔ IsChild a i p ∨ (p = c ∧ (m.id = i ∨ n.id = i)) := by
  by_cases hp : p = c
  · subst hp
    simp [IsChild, a.read_write_self hlt, hc, innerNode]
  · simp [IsChild, a.read_write_ne (Ne.symm hp), hp]

/-! ### The merge loop -/

/-- The invariant of the merge loop of 41_tree_builder.md R151 before round `k`: the arena is a forest with the layout
of 10_state.md R27 whose roots are the queued nodes, and each round joins two of its trees. -/
structure Forest (f : FreqTable) (k : Nat) (a : Arena) (q : List QEntry) : Prop where
  count       : q.length + k = (present f).length
  distinct    : (q.map QEntry.id).Nodup
  valid       : ∀ e ∈ q, (a.read e.id).valid = true
  weight      : ∀ e ∈ q, (a.read e.id).weight = e.weight
  leaf_slot   : ∀ x, a.read (leafId x) = if readSym f x = 0 then Node.invalid else leafNode f x
  inner_slot  : ∀ j < k, IsMerge a (innerId j)
  unused_slot : ∀ j, k ≤ j → j < 255 → a.read (innerId j) = Node.invalid
  newest      : ∀ j, j + 1 = k → ∃ e ∈ q, e.id = innerId j
  one_parent  : ∀ i, (a.read i).valid = true → (∀ e ∈ q, e.id ≠ i) → ∃! p, IsChild a i p
  no_parent   : ∀ e ∈ q, ∀ p, ¬ IsChild a e.id p
  reached     : ∀ i, (a.read i).valid = true → ∃ e ∈ q, ∃ b, PathTo a e.id b i

section
variable {f : FreqTable} {k : Nat} {a : Arena} {q q₂ : List QEntry} {m n : QEntry}

/-- A valid slot is the leaf of a counted symbol or a merge made so far. -/
theorem Forest.valid_cases (h : Forest f k a q) {i : NodeId} (hi : (a.read i).valid = true) :
    (∃ x, readSym f x ≠ 0 ∧ i = leafId x) ∨ ∃ j < k, i = innerId j := by
  rcases nodeId_cases i with ⟨x, rfl⟩ | ⟨j, hj, rfl⟩ | rfl
  · refine .inl ⟨x, fun hx => ?_, rfl⟩
    simp [h.leaf_slot, hx, Node.invalid] at hi
  · refine .inr ⟨j, ?_, rfl⟩
    by_contra hk
    simp [h.unused_slot j (Nat.le_of_not_lt hk) hj, Node.invalid] at hi
  · simp [Node.invalid] at hi

/-- A child of a node is valid. -/
theorem Forest.child_valid (h : Forest f k a q) {i p : NodeId} (hc : IsChild a i p) : (a.read i).valid = true := by
  obtain ⟨hv, hl, hi⟩ := hc
  rcases h.valid_cases hv with ⟨x, hx, rfl⟩ | ⟨j, hj, rfl⟩
  · simp [h.leaf_slot, hx, leafNode] at hl
  · have hm := h.inner_slot j hj
    rcases hi with rfl | rfl
    · exact hm.left_valid
    · exact hm.right_valid

/-- After the leaf loop every tree of the forest is a leaf. -/
theorem forest_leaves (f : FreqTable) : Forest f 0 (leafArena f) (leafQueue f) := by
  have hmem : ∀ e, e ∈ leafQueue f ↔ ∃ x, readSym f x ≠ 0 ∧ e = ⟨readSym f x, leafId x⟩ := by
    simp [leafQueue, eq_comm]
  have hvalid : ∀ i, ((leafArena f).read i).valid = true → ∃ x, readSym f x ≠ 0 ∧ i = leafId x := by
    intro i hi
    rcases nodeId_cases i with ⟨x, rfl⟩ | ⟨j, hj, rfl⟩ | rfl
    · refine ⟨x, fun hx => ?_, rfl⟩
      simp [leafArena_leaf, hx, Node.invalid] at hi
    · simp [leafArena_inner f (hj.trans (by decide)), Node.invalid] at hi
    · simp [Node.invalid] at hi
  exact {
    count := by simp [leafQueue]
    distinct := by
      simpa [leafQueue, Function.comp_def] using (present_nodup f).map fun _ _ => leafId_injective
    valid := by
      intro e he
      obtain ⟨x, hx, rfl⟩ := (hmem e).1 he
      simp [leafArena_leaf, hx, leafNode]
    weight := by
      intro e he
      obtain ⟨x, hx, rfl⟩ := (hmem e).1 he
      simp [leafArena_leaf, hx, leafNode]
    leaf_slot := leafArena_leaf f
    inner_slot := by simp
    unused_slot := fun j _ hj => leafArena_inner f (hj.trans (by decide))
    newest := by simp
    one_parent := by
      intro i hi hq
      obtain ⟨x, hx, rfl⟩ := hvalid i hi
      exact absurd rfl (hq _ ((hmem _).2 ⟨x, hx, rfl⟩))
    no_parent := by
      rintro e - p ⟨hv, hl, -⟩
      obtain ⟨x, hx, rfl⟩ := hvalid p hv
      simp [leafArena_leaf, hx, leafNode] at hl
    reached := by
      intro i hi
      obtain ⟨x, hx, rfl⟩ := hvalid i hi
      exact ⟨_, (hmem _).2 ⟨x, hx, rfl⟩, [], .here _⟩ }

/-- A round starts only while an internal slot is free. -/
theorem Forest.round_lt (h : Forest f k a q) (hq : 2 ≤ q.length) : k < 255 := by
  have := h.count
  have := present_length_le f
  omega

/-- The arena after round `k` has joined two queued nodes. -/
abbrev Arena.join (a : Arena) (k : Nat) (m n : QEntry) : Arena := a.write (innerId k) (innerNode m n)

/-- The slot that round `k` writes is free before it. -/
theorem Forest.free (h : Forest f k a q) (hk : k < 255) : (a.read (innerId k)).valid = false := by
  simp [h.unused_slot k le_rfl hk, Node.invalid]

theorem Forest.join_grows (h : Forest f k a q) (hk : k < 255) : a.Grows (a.join k m n) :=
  Arena.grows_write (h.free hk) _

theorem Arena.read_join_new (hk : k < 255) : (a.join k m n).read (innerId k) = innerNode m n :=
  a.read_write_self (innerId_lt hk) _

theorem Arena.join_valid_iff (hk : k < 255) {i : NodeId} :
    ((a.join k m n).read i).valid = true ↔ i = innerId k ∨ (a.read i).valid = true := by
  rw [a.read_write (innerId_lt hk)]
  by_cases hi : innerId k = i
  · simp [hi, innerNode]
  · simp [hi, Ne.symm hi]

/-- The fresh node joins two queued nodes as 10_state.md R26 asks. -/
theorem Forest.join_isMerge (h : Forest f k a q) (hk : k < 255) (hm : m ∈ q) (hn : n ∈ q) (hmn : m.id ≠ n.id) :
    IsMerge (a.join k m n) (innerId k) := by
  have hl := h.join_grows (m := m) (n := n) hk _ (h.valid m hm)
  have hr := h.join_grows (m := m) (n := n) hk _ (h.valid n hn)
  constructor <;> simp only [Arena.read_join_new hk, innerNode, hl, hr]
  · exact hmn
  · exact h.valid m hm
  · exact h.valid n hn
  · rw [h.weight m hm, h.weight n hn]

/-- No entry of the queue is the fresh node. -/
theorem Forest.id_ne_new (h : Forest f k a q) (hk : k < 255) {e : QEntry} (he : e ∈ q) : e.id ≠ innerId k := by
  intro hid
  have hv := h.valid e he
  rw [hid, h.free hk] at hv
  cases hv

/-- A node out of the new queue was out of the old one, and keeps its parent, or is one of the two joined, and has the
fresh node as its only parent. -/
theorem Forest.join_one_parent (h : Forest f k a q) (hk : k < 255) (hp : q.Perm (m :: n :: q₂)) {i : NodeId}
    (hi : (a.read i).valid = true) (hq : ∀ e ∈ q₂, e.id ≠ i) : ∃! p, IsChild (a.join k m n) i p := by
  simp only [isChild_write (h.free hk) (innerId_lt hk)]
  by_cases hmn : m.id = i ∨ n.id = i
  · have hno : ∀ p, ¬ IsChild a i p := by
      rcases hmn with rfl | rfl
      · exact h.no_parent m (hp.mem_iff.2 (by simp))
      · exact h.no_parent n (hp.mem_iff.2 (by simp))
    simp [hno, hmn]
  · have hout : ∀ e ∈ q, e.id ≠ i := by
      intro e he
      rw [not_or] at hmn
      rcases List.mem_cons.1 (hp.mem_iff.1 he) with rfl | he
      · exact hmn.1
      · rcases List.mem_cons.1 he with rfl | he
        · exact hmn.2
        · exact hq e he
    simpa [hmn] using h.one_parent i hi hout

/-- A node that some queued node reaches is still reached: from the fresh node when its root was joined. -/
theorem Forest.join_reached (h : Forest f k a q) (hk : k < 255) (hp : q.Perm (m :: n :: q₂)) {i : NodeId}
    (hi : (a.read i).valid = true) :
    (∃ e ∈ q₂, ∃ b, PathTo (a.join k m n) e.id b i) ∨ ∃ b, PathTo (a.join k m n) (innerId k) b i := by
  obtain ⟨e, he, b, hb⟩ := h.reached i hi
  have hb' := hb.grows (h.join_grows (m := m) (n := n) hk)
  rcases List.mem_cons.1 (hp.mem_iff.1 he) with rfl | he
  · refine .inr ⟨false :: b, .left ?_ ?_ ?_⟩ <;> rw [Arena.read_join_new hk]
    exacts [rfl, rfl, hb']
  · rcases List.mem_cons.1 he with rfl | he
    · refine .inr ⟨true :: b, .right ?_ ?_ ?_⟩ <;> rw [Arena.read_join_new hk]
      exacts [rfl, rfl, hb']
    · exact .inl ⟨e, he, b, hb'⟩

/-- Joining two trees of the forest gives a forest with one tree less (41_tree_builder.md R151). -/
theorem Forest.join (h : Forest f k a q) (hp : q.Perm (m :: n :: q₂)) :
    Forest f (k + 1) (a.join k m n) (q₂ ++ [⟨m.weight + n.weight, innerId k⟩]) := by
  have hlen : q.length = q₂.length + 2 := by simpa using hp.length_eq
  have hk : k < 255 := h.round_lt (by omega)
  have hm : m ∈ q := hp.mem_iff.2 (by simp)
  have hn : n ∈ q := hp.mem_iff.2 (by simp)
  have hrest : ∀ e ∈ q₂, e ∈ q := fun e he => hp.mem_iff.2 (by simp [he])
  have hnd : ((m :: n :: q₂).map QEntry.id).Nodup := (hp.map QEntry.id).nodup_iff.1 h.distinct
  simp only [List.map_cons, List.nodup_cons, List.mem_cons, not_or, List.mem_map, not_exists, not_and] at hnd
  obtain ⟨⟨hmn, hmq⟩, hnq, hq₂⟩ := hnd
  have hold : ∀ i, i ≠ innerId k → (a.join k m n).read i = a.read i := fun i hi => a.read_write_ne hi.symm _
  constructor
  case count =>
    have hcount := h.count
    simp only [List.length_append, List.length_singleton]
    omega
  case distinct =>
    simpa [List.nodup_append, hq₂] using fun e he => h.id_ne_new hk (hrest e he)
  case valid =>
    simp only [List.mem_append, List.mem_singleton]
    rintro e (he | rfl)
    · exact (Arena.join_valid_iff hk).2 (.inr (h.valid e (hrest e he)))
    · exact (Arena.join_valid_iff hk).2 (.inl rfl)
  case weight =>
    simp only [List.mem_append, List.mem_singleton]
    rintro e (he | rfl)
    · rw [hold _ (h.id_ne_new hk (hrest e he)), h.weight e (hrest e he)]
    · rw [Arena.read_join_new hk, innerNode]
  case leaf_slot =>
    intro x
    rw [hold _ (innerId_ne_leafId (by omega) x).symm, h.leaf_slot]
  case inner_slot =>
    intro j hj
    rcases Nat.lt_succ_iff_lt_or_eq.1 hj with hj | rfl
    · exact (h.inner_slot j hj).grows (h.join_grows hk)
    · exact h.join_isMerge hk hm hn hmn
  case unused_slot =>
    intro j hkj hj
    have hne : innerId j ≠ innerId k := by
      intro e
      have := innerId_inj (by omega) (by omega) e
      omega
    rw [hold _ hne, h.unused_slot j (by omega) hj]
  case newest =>
    intro j hj
    obtain rfl : j = k := by omega
    exact ⟨⟨m.weight + n.weight, innerId j⟩, by simp, rfl⟩
  case one_parent =>
    intro i hi hq
    have hi' := ((Arena.join_valid_iff hk).1 hi).resolve_left fun e =>
      hq ⟨m.weight + n.weight, innerId k⟩ (by simp) e.symm
    exact h.join_one_parent hk hp hi' fun e he => hq e (by simp [he])
  case no_parent =>
    simp only [List.mem_append, List.mem_singleton, isChild_write (h.free hk) (innerId_lt hk), not_or,
      not_and]
    rintro e (he | rfl) p
    · exact ⟨h.no_parent e (hrest e he) p, fun _ => ⟨fun e' => hmq e he e'.symm, fun e' => hnq e he e'.symm⟩⟩
    · refine ⟨fun hc => ?_, fun _ => ⟨h.id_ne_new hk hm, h.id_ne_new hk hn⟩⟩
      have := h.child_valid hc
      simp [h.free hk] at this
  case reached =>
    intro i hi
    rcases (Arena.join_valid_iff hk).1 hi with rfl | hi
    · exact ⟨⟨m.weight + n.weight, innerId k⟩, by simp, [], .here _⟩
    · rcases h.join_reached hk hp hi with ⟨e, he, hb⟩ | hb
      · exact ⟨e, by simp [he], hb⟩
      · exact ⟨⟨m.weight + n.weight, innerId k⟩, by simp, hb⟩

/-- With one tree left the loop ends (41_tree_builder.md R151). -/
theorem Forest.mergeRounds_one (h : Forest f k a q) (hone : q.length = 1) (fuel : Nat) :
    ∃ e j, (mergeRounds fuel k a q).2 = [e] ∧ Forest f j (mergeRounds fuel k a q).1 [e] := by
  obtain ⟨e, rfl⟩ := List.length_eq_one_iff.1 hone
  rw [mergeRounds_done fuel k a hone.le]
  exact ⟨e, k, rfl, h⟩

/-- The loop ends with one tree, of all the symbols counted (41_tree_builder.md R157). -/
theorem Forest.mergeRounds (fuel : Nat) (h : Forest f k a q) (hq : q ≠ []) (hfuel : q.length ≤ fuel + 1) :
    ∃ e j, (mergeRounds fuel k a q).2 = [e] ∧ Forest f j (mergeRounds fuel k a q).1 [e] := by
  induction fuel generalizing k a q with
  | zero =>
    have hpos := List.length_pos_iff.2 hq
    exact h.mergeRounds_one (by omega) 0
  | succ fuel ih =>
    obtain ⟨⟨m, q₁⟩, h₁⟩ := Option.ne_none_iff_exists'.1 (mt (extractMin_eq_none q).1 hq)
    have hl₁ := extractMin_length h₁
    by_cases hq₁ : q₁ = []
    · exact h.mergeRounds_one (by simp [hl₁, hq₁]) (fuel + 1)
    · obtain ⟨⟨n, q₂⟩, h₂⟩ := Option.ne_none_iff_exists'.1 (mt (extractMin_eq_none q₁).1 hq₁)
      have hl₂ := extractMin_length h₂
      have hperm : q.Perm (m :: n :: q₂) := (extractMin_perm h₁).trans ((extractMin_perm h₂).cons m)
      rw [mergeRounds_round h₁ h₂]
      refine ih (h.join hperm) (by simp) ?_
      simp only [List.length_append, List.length_singleton]
      omega

end

/-! ### The finished tree -/

/-- A forest of one tree is the tree of 10_state.md R26, rooted at the one queued node (R28). -/
theorem Forest.isTree {s : State} {k : Nat} {e : QEntry} (h : Forest s.freq k s.node [e]) (hroot : s.root = e.id)
    (hnsym : s.nsym.toNat = (present s.freq).length) : IsTree s := by
  have hk : s.nsym.toNat = k + 1 := by
    have hcount := h.count
    simp at hcount
    omega
  constructor
  case nsym_eq => exact ⟨hnsym.trans (by rw [present_eq_counted]), by omega⟩
  case leaf_slot =>
    intro x hx
    exact (h.leaf_slot x).trans (if_neg hx)
  case absent_slot =>
    intro x hx
    exact (h.leaf_slot x).trans (if_pos hx)
  case inner_slot =>
    intro j hj
    have hm := h.inner_slot j (by omega)
    exact ⟨hm.valid, hm.leaf, hm.sym, hm.distinct, hm.left_valid, hm.right_valid, hm.weight⟩
  case unused_slot =>
    intro j hj hlt
    exact h.unused_slot j (by omega) hlt
  case root_sole =>
    intro h1
    rcases h.valid_cases (h.valid e (List.mem_singleton_self e)) with ⟨x, hx, hid⟩ | ⟨j, hj, -⟩
    · exact ⟨x, hx, hroot.trans hid⟩
    · omega
  case root_last =>
    intro h2
    obtain ⟨e', he', hid⟩ := h.newest (k - 1) (by omega)
    obtain rfl := List.mem_singleton.1 he'
    have hle := present_length_le s.freq
    rw [hroot, hid, innerId_toNat] <;> omega
  case one_parent =>
    intro i hi hne
    exact h.one_parent i hi (by simpa [hroot] using hne.symm)
  case root_no_parent => simpa [hroot] using h.no_parent
  case reachable => simpa [hroot, State.nodeAt] using h.reached

/-- `BUILD` makes one tree of the symbols counted, when there are any (41_tree_builder.md R151). -/
theorem buildTree_forest {f : FreqTable} (h : present f ≠ []) :
    ∃ e k, (buildTree f).root = e.id ∧ Forest f k (buildTree f).node [e] := by
  obtain ⟨e, k, hq, hf⟩ := (forest_leaves f).mergeRounds (present f).length (by simpa [leafQueue] using h)
    (by simp [leafQueue])
  rw [buildTree_some h]
  exact ⟨e, k, by simp [hq, lastId], hf⟩

/-- `NSYM` as `BUILD` sets it counts the symbols of nonzero frequency (10_state.md R29). -/
theorem buildTree_nsym (f : FreqTable) : (buildTree f).nsym.toNat = (present f).length := by
  by_cases h : present f = []
  · simp [buildTree_none h, h]
  · have hle := present_length_le f
    rw [buildTree_some h, BitVec.toNat_ofNat]
    omega

/-- The tree that the row of phase `TREE` asks for is the tree of 10_state.md R26, unless there is no symbol. -/
theorem HasTree.isTree {s : State} (h : HasTree s) (he : s.empty = false) : IsTree s := by
  obtain ⟨hnode, hroot, hnsym, hempty⟩ := h
  have hp : present s.freq ≠ [] := by
    intro hp
    rw [hempty, (buildTree_empty _).2 hp] at he
    cases he
  obtain ⟨e, k, hid, hf⟩ := buildTree_forest hp
  rw [← hnode] at hf
  exact hf.isTree (hroot.trans hid) (hnsym ▸ buildTree_nsym _)

/-- Settles O32: in phase `TREE` by the invariant of `BUILD`'s merge loop; everywhere else by the phase table. -/
theorem treePhaseHoldsTree : Obligations.TreePhaseHoldsTree := by
  intro s h
  have hrow := h.row
  cases hp : s.phase <;> simp only [PhaseRow, hp] at hrow
  case tree =>
    obtain ⟨htree, -⟩ := hrow
    refine ⟨fun _ he => htree.isTree he, fun hne => ?_⟩
    obtain ⟨-, hroot, -, hempty⟩ := htree
    have he : (buildTree s.freq).empty = true := by simpa [hempty] using hne
    rw [hroot, buildTree_of_empty he]
  case count | ready | fault =>
    obtain ⟨⟨-, hroot⟩, -⟩ := hrow
    exact ⟨nofun, fun _ => hroot⟩

end Sys2Proof.Machine
end

section
/-! PROOFS. Family 20_memory: node weights (R81), queries without side effect (R67), packing (R64), and a step as the
execution of one command (R70). -/

namespace Sys2Proof.Machine

/-! ### Node weights -/

/-- With no symbol counted every counter is 0. -/
theorem readSym_of_present_nil {f : FreqTable} (h : present f = []) (x : Symbol) : readSym f x = 0 := by
  by_contra hx
  have hmem := (mem_present f x).2 hx
  rw [h] at hmem
  cases hmem

/-- The tree of no symbol has no node (41_tree_builder.md R158). -/
theorem HasTree.of_empty {s : State} (h : HasTree s) (he : s.empty = true) :
    (∀ x, s.freqAt x = 0) ∧ ∀ i, s.nodeAt i = Node.invalid := by
  obtain ⟨hnode, -, -, hempty⟩ := h
  have hp : present s.freq = [] := (buildTree_empty s.freq).1 (hempty ▸ he)
  refine ⟨readSym_of_present_nil hp, fun i => ?_⟩
  rw [State.nodeAt, hnode, buildTree_none hp]
  exact Arena.read_cleared i

/-- A valid slot of a tree that is no leaf is one of its internal nodes (10_state.md R27). -/
theorem IsTree.inner_cases {s : State} (h : IsTree s) {i : NodeId} (hv : (s.nodeAt i).valid = true)
    (hl : (s.nodeAt i).leaf = false) : ∃ k, k + 1 < s.nsym.toNat ∧ i = innerId k := by
  rcases nodeId_cases i with ⟨x, rfl⟩ | ⟨k, hk, rfl⟩ | rfl
  · by_cases hx : s.freqAt x = 0
    · simp [h.absent_slot x hx, Node.invalid] at hv
    · simp [h.leaf_slot x hx] at hl
  · refine ⟨k, ?_, rfl⟩
    by_contra hn
    simp [h.unused_slot k (Nat.le_of_not_lt hn) hk, Node.invalid] at hv
  · simp [State.nodeAt, Node.invalid] at hv

/-- An internal node's weight is the sum of its children's (20_memory.md R81). -/
theorem IsTree.weight_sum {s : State} (h : IsTree s) {i : NodeId} (hv : (s.nodeAt i).valid = true)
    (hl : (s.nodeAt i).leaf = false) :
    (s.nodeAt i).weight = (s.nodeAt (s.nodeAt i).left).weight + (s.nodeAt (s.nodeAt i).right).weight := by
  obtain ⟨k, hk, rfl⟩ := h.inner_cases hv hl
  obtain ⟨-, -, -, -, -, -, hsum⟩ := h.inner_slot k hk
  exact hsum

/-- Settles O33: the width by the invariant, the rest by the tree of phase `TREE`, which is empty or that of R26. -/
theorem weightsFitTheirWidth : Obligations.WeightsFitTheirWidth := by
  intro s h hp
  have hrow := h.row
  simp only [PhaseRow, hp] at hrow
  obtain ⟨htree, -⟩ := hrow
  refine ⟨h.weight_lt, ?_⟩
  cases he : s.empty with
  | true =>
    obtain ⟨hzero, hnone⟩ := htree.of_empty he
    exact ⟨fun x hx => absurd (hzero x) hx, fun i hv => by simp [hnone, Node.invalid] at hv⟩
  | false =>
    have ht := htree.isTree he
    exact ⟨fun x hx => by rw [ht.leaf_slot x hx], fun i hv hl => ht.weight_sum hv hl⟩

/-! ### Queries -/

/-- The commands that only read (20_memory.md R67). -/
def IsQuery (i : Instr) : Prop :=
  (∃ x, i = .qfreq x) ∨ (∃ n, i = .qnode n) ∨ (∃ x, i = .qcode x) ∨ i = .qstat ∨ i = .elen

/-- A query's own work is its response, which does not depend on the responses given before. -/
theorem effect_query {i : Instr} (h : IsQuery i) (s : State) :
    ∃ r, ∀ out, effect i { s with outbox := out } = { s with outbox := out ++ [r] } := by
  rcases h with ⟨x, rfl⟩ | ⟨n, rfl⟩ | ⟨x, rfl⟩ | rfl | rfl
  · exact ⟨⟨.ok, s.freqAt x, 0⟩, fun _ => rfl⟩
  · exact ⟨⟨.ok, (s.nodeAt n).weight, (s.nodeAt n).word⟩, fun _ => rfl⟩
  · exact ⟨⟨.ok, (s.codeAt x).val, BitVec.ofNat 32 (s.codeAt x).len⟩, fun _ => rfl⟩
  · exact ⟨⟨.ok, 0, s.statusWord⟩, fun _ => rfl⟩
  · exact ⟨⟨s.elenStatus, s.bitlen, BitVec.ofNat 32 (byteLen s.bitlen)⟩, fun _ => rfl⟩

/-- In every phase a query does no more than answer, and answers the same after any responses (20_memory.md R67). -/
theorem exec_query {i : Instr} (h : IsQuery i) (s : State) :
    ∃ r, ∀ out, exec i { s with outbox := out } = .next { s with outbox := out ++ [r] } := by
  cases hw : i.wellFormed with
  | false => exact ⟨⟨.errIllegal, 0, 0⟩, fun _ => exec_not_wellFormed hw _⟩
  | true =>
    simp only [exec_eq_gated hw]
    cases hl : legalIn i s.phase with
    | false => exact ⟨⟨.errPhase, 0, 0⟩, fun out => gated_refused (s := { s with outbox := out }) hl _⟩
    | true =>
      obtain ⟨r, hr⟩ := effect_query h s
      exact ⟨r, fun out => (gated_legal (s := { s with outbox := out }) hl _).trans (congrArg _ (hr out))⟩

/-- Settles O16: a query's response is the same before and after it is given. -/
theorem queriesHaveNoSideEffect : Obligations.QueriesHaveNoSideEffect := by
  intro i s h
  obtain ⟨r, hr⟩ := exec_query h s
  exact ⟨r, hr s.outbox, hr (s.outbox ++ [r])⟩

/-! ### Packing -/

/-- Bit `i` of a byte sequence, bit 7 of byte 0 first; false beyond its end (20_memory.md R64). -/
def bitAt (l : List Byte) (i : Nat) : Bool := (l.getD (i / 8) 0#8).getLsbD (7 - i % 8)

@[simp] theorem bitAt_nil (i : Nat) : bitAt [] i = false := by
  simp [bitAt]

theorem bitAt_cons (c : Byte) (l : List Byte) (i : Nat) :
    bitAt (c :: l) i = if i < 8 then c.getLsbD (7 - i) else bitAt l (i - 8) := by
  unfold bitAt
  split
  · next h => simp [Nat.div_eq_of_lt h, Nat.mod_eq_of_lt h]
  · next h =>
    obtain ⟨j, rfl⟩ := Nat.exists_eq_add_of_le (Nat.le_of_not_lt h)
    simp [Nat.add_comm 8 j]

/-- The byte under construction after its `k`-th bit from the top, `b`, is put in. -/
def putBit (k : Nat) (acc : Byte) (b : Bool) : Byte := if b then acc ||| (0x80#8 >>> k) else acc

theorem packFrom_cons (k : Nat) (acc : Byte) (b : Bool) (bs : List Bool) :
    packFrom k acc (b :: bs) =
      if k = 7 then putBit k acc b :: packFrom 0 0#8 bs else packFrom (k + 1) (putBit k acc b) bs := rfl

/-- `putBit` writes `b` at the `k`-th place from the top, free before, and changes no other place. -/
theorem getLsbD_putBit {k : Nat} {acc : Byte} (hk : k < 8) (hfree : acc.getLsbD (7 - k) = false) (b : Bool) {j : Nat}
    (hj : j < 8) : (putBit k acc b).getLsbD (7 - j) = if j = k then b else acc.getLsbD (7 - j) := by
  have hmask : (0x80#8 >>> k).getLsbD (7 - j) = decide (j = k) := by
    have h80 : 0x80#8 = BitVec.twoPow 8 7 := rfl
    rw [BitVec.getLsbD_ushiftRight, h80, BitVec.getLsbD_twoPow]
    simp
    omega
  by_cases e : j = k
  · subst e
    cases b <;> simp [putBit, hfree, hmask]
  · cases b <;> simp [putBit, hmask, e]

/-- Putting the next bit in moves one bit from those to come to those in hand. -/
theorem putBit_moves {k : Nat} {acc : Byte} (hk : k < 8) (hfree : acc.getLsbD (7 - k) = false) (b : Bool)
    (bs : List Bool) (i : Nat) :
    (if i < k + 1 then (putBit k acc b).getLsbD (7 - i) else bs.getD (i - (k + 1)) false) =
      if i < k then acc.getLsbD (7 - i) else (b :: bs).getD (i - k) false := by
  rcases lt_trichotomy i k with h | rfl | h
  · have hi : i < k + 1 := by omega
    simp [h, hi, h.ne, getLsbD_putBit hk hfree b (h.trans hk)]
  · simp [getLsbD_putBit hk hfree b hk]
  · have hsub : i - k = i - (k + 1) + 1 := by omega
    rw [if_neg (by omega), if_neg h.not_gt, hsub, List.getD_cons_succ]

/-- `pack` in the middle of a byte: the `k` bits in hand come first, then the bits to come, then zeros. -/
theorem bitAt_packFrom (q : List Bool) {k : Nat} {acc : Byte} (hk : k < 8)
    (hfree : ∀ j, k ≤ j → j < 8 → acc.getLsbD (7 - j) = false) (i : Nat) :
    bitAt (packFrom k acc q) i = if i < k then acc.getLsbD (7 - i) else q.getD (i - k) false := by
  induction q generalizing k acc i with
  | nil =>
    by_cases h0 : k = 0
    · simp [packFrom, h0]
    · have hin : i < k → i < 8 := fun h => h.trans hk
      simp only [packFrom, h0, if_false, bitAt_cons, bitAt_nil, List.getD_nil]
      split
      · next h8 =>
        split
        · rfl
        · next hik => exact hfree i (Nat.le_of_not_lt hik) h8
      · next h8 => rw [if_neg (mt hin h8)]
  | cons b bs ih =>
    have hk_free := hfree k le_rfl hk
    rw [packFrom_cons, ← putBit_moves hk hk_free b bs i]
    split
    · next h7 =>
      subst h7
      rw [bitAt_cons, ih (by decide) (by simp)]
      simp
    · next h7 =>
      refine ih (by omega) (fun j hkj hj => ?_) i
      rw [getLsbD_putBit hk hk_free b hj, if_neg (by omega)]
      exact hfree j (by omega) hj

/-- `k` bits in hand and those to come, rounded up to whole bytes. -/
theorem packFrom_length (q : List Bool) {k : Nat} (hk : k < 8) (acc : Byte) :
    (packFrom k acc q).length = (k + q.length + 7) / 8 := by
  induction q generalizing k acc with
  | nil =>
    by_cases h0 : k = 0
    · simp [packFrom, h0]
    · simp [packFrom, h0]
      omega
  | cons b bs ih =>
    rw [packFrom_cons]
    split
    · rw [List.length_cons, List.length_cons, ih (by decide)]
      omega
    · rw [List.length_cons, ih (by omega)]
      omega

/-- The bits of `pack q` are those of `q`, then zeros (20_memory.md R64). -/
theorem bitAt_pack (q : List Bool) (i : Nat) : bitAt (pack q) i = q.getD i false :=
  bitAt_packFrom q (by decide) (by simp) i

/-- Settles O52: byte and bit of every index, through the bits of `pack` from the middle of a byte on. -/
theorem packFillsFromTheTop : Obligations.PackFillsFromTheTop := by
  intro q
  refine ⟨(packFrom_length q (by decide) 0#8).trans (by simp), fun i _ => bitAt_pack q i, fun i hi _ => ?_⟩
  exact (bitAt_pack q i).trans (List.getD_eq_default _ _ hi)

/-! ### A step on a command word -/

/-- Accepting a word that decodes to a command is executing the command. -/
theorem acceptWord_instr {w : CmdWord} {i : Instr} (h : decodeWord w = .instr i) (s : State) :
    acceptWord w s = exec i s := by
  simp [acceptWord, h]

/-- A step on an offered word executes its command at the state whose inbox has lost that word (20_memory.md R70). -/
theorem step_instr {s : State} {w : CmdWord} {rest : List HostEvent} {i : Instr} (hin : s.inbox = .command w :: rest)
    (h : decodeWord w = .instr i) : step s = exec i { s with inbox := rest } := by
  rw [step_command hin, acceptWord_instr h, State.pop, hin, List.tail_cons]

/-- Settles O1: the word put first by `withFetchWord` is taken off again by the step. -/
theorem stepRunsDecodedCommand : Obligations.StepRunsDecodedCommand := by
  refine ⟨fun s w rest i => step_instr, fun s i h => ?_⟩
  exact step_instr (s := s.withFetchWord 16 (encode i).toNat) (rest := s.inbox)
    (by simp [State.withFetchWord]) h

end Sys2Proof.Machine
end

section
/-! PROOFS. Family 30_encoding: the decoder against the encoder (R91 to R106), the numbers in an error response (R100),
the block at its ports (R95, R96), the text form and the pseudo-commands (R108, R109). -/

namespace Sys2Proof

/-! ### Decoding an encoding -/

/-- The one check of a command's form: `QNODE` takes no node id 511 (30_encoding.md R93). -/
theorem wellFormed_qnode (n : NodeId) : (Instr.qnode n).wellFormed = true ↔ n.toNat ≠ 511 := by
  simp [Instr.wellFormed, BitVec.toNat_eq]

/-- A zero-extended symbol is a symbol operand, and its own (30_encoding.md R93). -/
theorem symbolOperand_zeroExtend (x : Symbol) (mk : Symbol → Instr) :
    symbolOperand (x.zeroExtend 9) mk = .instr (mk x) := by
  have hbit : (x.zeroExtend 9).extractLsb' 8 1 = 0#1 := by
    apply BitVec.eq_of_toNat_eq
    simp [Nat.shiftRight_eq_div_pow]
    omega
  have hsym : (x.zeroExtend 9).extractLsb' 0 8 = x := by
    apply BitVec.eq_of_toNat_eq
    simp
    omega
  rw [symbolOperand, if_pos hbit, hsym]

/-- A command's own opcode and operand pass the operand check when the command is well formed (30_encoding.md R92,
R93). -/
theorem decodeOp_encode {i : Instr} (h : i.wellFormed = true) :
    decodeOp (opcodeOf i) (operandOf i) = some (.instr i) := by
  cases i with
  | cnt x | enc x | qfreq x | qcode x => exact congrArg some (symbolOperand_zeroExtend x _)
  | qnode n =>
    have hn : n ≠ 511#9 := by
      rintro rfl
      cases h
    exact congrArg some (if_neg hn)
  | clr | build | assign | estart | elen | qstat => rfl

theorem decodeWord_encode {i : Instr} (h : i.wellFormed = true) : decodeWord (encode i) = .instr i := by
  simp [decodeWord, decodeOp_encode h]

/-- The decoder makes no command that is not well formed: the one there is, `QNODE 511`, has an illegal word
(30_encoding.md R105). -/
theorem wellFormed_of_decodeWord {w : CmdWord} {i : Instr} (h : decodeWord w = .instr i) : i.wellFormed = true := by
  have hw := encode_of_decodeWord h
  cases i with
  | qnode n =>
    refine (wellFormed_qnode n).2 fun e => ?_
    obtain rfl : n = 511#9 := BitVec.eq_of_toNat_eq e
    rw [← hw] at h
    exact absurd h (by decide)
  | _ => rfl

/-- Settles O3: the fields of the word, one way and the other. -/
theorem decodeInvertsEncode : Obligations.DecodeInvertsEncode := by
  intro w i
  constructor
  · exact fun h => ⟨wellFormed_of_decodeWord h, encode_of_decodeWord h⟩
  · rintro ⟨hwf, rfl⟩
    exact decodeWord_encode hwf

/-- Settles O2: each word is the encoding of its command. -/
theorem writtenWordsDecode : Obligations.WrittenWordsDecode := by
  unfold Obligations.WrittenWordsDecode
  simp only [decodeInvertsEncode _ _]
  decide

/-- The number of a command's word (30_encoding.md R91). -/
theorem encode_toNat (i : Instr) : (encode i).toNat = (opcodeOf i).toNat * 4096 + (operandOf i).toNat := by
  have h := (operandOf i).isLt
  rw [encode, BitVec.toNat_append, BitVec.toNat_append, ← Nat.shiftLeft_add_eq_or_of_lt h]
  simp [Nat.shiftLeft_eq]
  omega

/-- The numbers of a legal word (30_encoding.md R91 to R93): its opcode is from 1 to 0xB, its reserved bits are 0, and
its operand is what the opcode takes. -/
structure LegalNumbers (op rsv opd : Nat) : Prop where
  opcode : 0x1 ≤ op ∧ op ≤ 0xB
  rsv    : rsv = 0
  bare   : op ∈ [0x1, 0x3, 0x4, 0x5, 0x7, 0xB] → opd = 0
  symbol : op ∈ [0x2, 0x6, 0x8, 0xA] → opd < 256
  node   : op = 0x9 → opd ≠ 511

theorem encode_legalNumbers {i : Instr} (h : i.wellFormed = true) :
    LegalNumbers ((encode i).toNat / 4096) ((encode i).toNat / 512 % 8) ((encode i).toNat % 512) := by
  have hopd := (operandOf i).isLt
  have hop : (encode i).toNat / 4096 = (opcodeOf i).toNat := by rw [encode_toNat]; omega
  have hrsv : (encode i).toNat / 512 % 8 = 0 := by rw [encode_toNat]; omega
  have hlow : (encode i).toNat % 512 = (operandOf i).toNat := by rw [encode_toNat]; omega
  rw [hop, hrsv, hlow]
  cases i with
  | qnode n =>
    have hn := (wellFormed_qnode n).1 h
    constructor <;> simp [opcodeOf, operandOf, hn]
  | cnt x | enc x | qfreq x | qcode x =>
    have hx := x.isLt
    constructor <;> simp [opcodeOf, operandOf]
    omega
  | clr | build | assign | estart | elen | qstat => constructor <;> simp [opcodeOf, operandOf]

end Sys2Proof

namespace Sys2Proof.Machine

/-- Settles O4: a word with such numbers is no command's, so it is refused. -/
theorem illegalWordsAnswerErrIllegal : Obligations.IllegalWordsAnswerErrIllegal := by
  rintro s w rest op rsv opd hin rfl rfl rfl hbad
  rw [step_command hin]
  rcases acceptWord_cases w s.pop with ⟨i, hd, -⟩ | ⟨_, -, e⟩
  · obtain ⟨hwf, rfl⟩ := (decodeInvertsEncode w i).1 hd
    obtain ⟨hop, hrsv, hbare, hsym, hnode⟩ := encode_legalNumbers hwf
    rcases hbad with h | h | h | ⟨h, h'⟩ | ⟨h, h'⟩ | ⟨h, h'⟩
    · omega
    · omega
    · exact absurd hrsv h
    · exact absurd (hbare h) h'
    · exact absurd (hsym h) (Nat.not_lt.2 h')
    · exact absurd h' (hnode h)
  · rw [e, State.pop, hin, List.tail_cons]
    rfl

/-! ### How many words are legal -/

/-- The well-formed commands, form by form (30_encoding.md R106): six without operand, four with a symbol, and
`QNODE`. -/
def legalCommands : List Instr :=
  [.clr, .build, .assign, .estart, .elen, .qstat] ++ allSymbols.map .cnt ++ allSymbols.map .enc ++
    allSymbols.map .qfreq ++ allSymbols.map .qcode ++ (List.range 511).map fun n => .qnode (BitVec.ofNat 9 n)

theorem legalCommands_length : legalCommands.length = 1541 := by
  simp [legalCommands]

theorem mem_legalCommands (i : Instr) : i ∈ legalCommands ↔ i.wellFormed = true := by
  cases i with
  | qnode n =>
    have hlt := n.isLt
    have hin : .qnode n ∈ legalCommands ↔ ∃ k < 511, BitVec.ofNat 9 k = n := by simp [legalCommands]
    rw [hin, wellFormed_qnode]
    constructor
    · rintro ⟨k, hk, rfl⟩
      simp
      omega
    · exact fun h => ⟨n.toNat, by omega, by simp⟩
  | _ => simp [legalCommands, Instr.wellFormed]

theorem legalCommands_nodup : legalCommands.Nodup := by
  have hmap {mk : Symbol → Instr} (h : Function.Injective mk) : (allSymbols.map mk).Nodup := allSymbols_nodup.map h
  have hq : ((List.range 511).map fun n => Instr.qnode (BitVec.ofNat 9 n)).Nodup := by
    refine List.Nodup.map_on (fun a ha b hb h => ?_) List.nodup_range
    have := congrArg BitVec.toNat (Instr.qnode.inj h)
    simp at this ha hb
    omega
  simp [legalCommands, List.nodup_append, hq, hmap (fun _ _ => Instr.cnt.inj), hmap (fun _ _ => Instr.enc.inj),
    hmap (fun _ _ => Instr.qfreq.inj), hmap (fun _ _ => Instr.qcode.inj), or_imp,
    forall_and]

/-- The encoder gives different words to different legal commands, as the decoder tells them apart. -/
theorem encode_injOn {i j : Instr} (hi : i.wellFormed = true) (hj : j.wellFormed = true) (h : encode i = encode j) :
    i = j := by
  have hd := decodeWord_encode hi
  rw [h, decodeWord_encode hj] at hd
  exact (Decoded.instr.inj hd).symm

/-- The numbers of the legal words are those of the legal commands' encodings. -/
theorem decodeTableWord_isSome_iff {n : Nat} (hn : n < 65536) :
    (decodeTableWord 16 n).isSome = true ↔ ∃ i ∈ legalCommands, (encode i).toNat = n := by
  have hdec : decodeTableWord 16 n = (decodeWord (BitVec.ofNat 16 n)).toOption := by
    simp [decodeTableWord, hn]
  have hword (i : Instr) : encode i = BitVec.ofNat 16 n ↔ (encode i).toNat = n := by
    simp [BitVec.toNat_eq, Nat.mod_eq_of_lt hn]
  simp only [mem_legalCommands, ← hword, ← decodeInvertsEncode _ _, hdec]
  cases decodeWord (BitVec.ofNat 16 n) <;> simp [Decoded.toOption]

theorem legalWords_perm :
    ((List.range 65536).filter fun n => (decodeTableWord 16 n).isSome).Perm
      (legalCommands.map fun i => (encode i).toNat) := by
  refine (List.perm_ext_iff_of_nodup (List.nodup_range.filter _) ?_).2 fun n => ?_
  · refine legalCommands_nodup.map_on fun i hi j hj h => ?_
    exact encode_injOn ((mem_legalCommands i).1 hi) ((mem_legalCommands j).1 hj) (BitVec.eq_of_toNat_eq h)
  · rw [List.mem_filter, List.mem_range, List.mem_map]
    constructor
    · exact fun ⟨hn, h⟩ => (decodeTableWord_isSome_iff hn).1 h
    · rintro ⟨i, hi, rfl⟩
      exact ⟨(encode i).isLt, (decodeTableWord_isSome_iff (encode i).isLt).2 ⟨i, hi, rfl⟩⟩

/-- Settles O5: the decoder's two answers, and the legal words counted as the well-formed commands. -/
theorem legalWordsNumber1541 : Obligations.LegalWordsNumber1541 := by
  constructor
  · intro w
    cases hd : decodeWord w with
    | instr i =>
      obtain ⟨hwf, he⟩ := (decodeInvertsEncode w i).1 hd
      exact .inl ⟨i, hwf, he, rfl⟩
    | illegal why => exact .inr ⟨why, rfl, fun s => by rw [acceptWord, hd]; rfl⟩
  · rw [legalWords_perm.length_eq, List.length_map, legalCommands_length]

/-! ### The numbers in an error response -/

theorem Status.bits_lt (st : Status) : st.bits.toNat < 8 := by
  cases st <;> decide

/-- The numbers `val` and `aux` that the response `r` to the command `i` may carry, by its status (30_encoding.md R100,
43_encoder.md R216). -/
structure CarriesZeros (i : Instr) (s : State) (r : Response) : Prop where
  refusal : r.st ∈ [.errIllegal, .errPhase, .errCodeOverflow, .errCountOverflow] → r.val = 0 ∧ r.aux = 0
  enc     : (∃ x, i = .enc x) → r.st ≠ .ok → r.val = 0 ∧ r.aux = 0
  elen    : i = .elen → r.st ≠ .errPhase → r.val = s.bitlen ∧ r.aux = BitVec.ofNat 32 ((s.bitlen + 7) / 8)
  empty   : r.st = .empty → (i = .build ∨ i = .assign) ∧ r.val = 0 ∧ r.aux = 0

/-- An `OK` may carry any numbers, but for `ELEN`'s. -/
theorem carriesZeros_ok {i : Instr} (h : i ≠ .elen) (s : State) (v : Nat) (a : Aux) : CarriesZeros i s ⟨.ok, v, a⟩ := by
  constructor <;> simp [h]

/-- Zeros go with every status but `EMPTY`, again but for `ELEN`'s. -/
theorem carriesZeros_zero {i : Instr} {st : Status} (h : i ≠ .elen) (hst : st ≠ .empty) (s : State) :
    CarriesZeros i s ⟨st, 0, 0⟩ := by
  constructor <;> simp [h, hst]

theorem carriesZeros_empty {i : Instr} (h : i = .build ∨ i = .assign) (s : State) :
    CarriesZeros i s ⟨.empty, 0, 0⟩ := by
  have hi : i ≠ .elen := by rcases h with rfl | rfl <;> simp
  constructor <;> simp [h, hi]

theorem carriesZeros_errPhase (i : Instr) (s : State) : CarriesZeros i s ⟨.errPhase, 0, 0⟩ := by
  constructor <;> simp

/-- `ELEN` carries its lengths under whatever status it forms from the flags. -/
theorem carriesZeros_elen (s : State) :
    CarriesZeros .elen s ⟨s.elenStatus, s.bitlen, BitVec.ofNat 32 (byteLen s.bitlen)⟩ := by
  have hst : s.elenStatus = .errUnknownSymbol ∨ s.elenStatus = .errLenOverflow ∨ s.elenStatus = .ok := by
    unfold State.elenStatus
    cases s.unk <;> cases s.lovf <;> simp
  rcases hst with e | e | e <;> constructor <;> simp [e, byteLen]

/-- A command's own work answers with such numbers. -/
theorem effect_carriesZeros (i : Instr) (s : State) :
    ∃ r, (effect i s).outbox = s.outbox ++ [r] ∧ CarriesZeros i s r := by
  cases i with
  | clr | estart | qfreq _ | qnode _ | qcode _ | qstat => exact ⟨_, rfl, carriesZeros_ok (by simp) s _ _⟩
  | elen => exact ⟨_, rfl, carriesZeros_elen s⟩
  | build =>
    refine ⟨⟨if (buildTree s.freq).empty then .empty else .ok, 0, 0⟩, rfl, ?_⟩
    split
    · exact carriesZeros_empty (.inl rfl) s
    · exact carriesZeros_ok (by simp) s _ _
  | cnt x =>
    simp only [effect]
    rcases countByte_cases s x with ⟨-, e⟩ | ⟨-, e⟩ <;> rw [e] <;>
      exact ⟨_, rfl, carriesZeros_zero (by simp) (by simp) s⟩
  | assign =>
    simp only [effect]
    rcases assign_cases s with ⟨-, e⟩ | ⟨-, -, e⟩ | ⟨-, -, e⟩ <;> rw [e]
    · exact ⟨_, rfl, carriesZeros_empty (.inr rfl) s⟩
    · exact ⟨_, rfl, carriesZeros_zero (by simp) (by simp) s⟩
    · exact ⟨_, rfl, carriesZeros_ok (by simp) s _ _⟩
  | enc x =>
    simp only [effect]
    rcases encodeByte_cases s x with ⟨-, e⟩ | ⟨-, -, e⟩ | ⟨-, -, e⟩ <;> rw [e]
    · exact ⟨_, rfl, carriesZeros_zero (by simp) (by simp) s⟩
    · exact ⟨_, rfl, carriesZeros_zero (by simp) (by simp) s⟩
    · exact ⟨_, rfl, carriesZeros_ok (by simp) s _ _⟩

/-- And so does every command in every phase. -/
theorem exec_carriesZeros (i : Instr) (s : State) :
    ∃ t r, exec i s = .next t ∧ t.outbox = s.outbox ++ [r] ∧ CarriesZeros i s r := by
  cases hw : i.wellFormed with
  | false =>
    have hi : i ≠ .elen := by
      rintro rfl
      cases hw
    exact ⟨_, _, exec_not_wellFormed hw s, rfl, carriesZeros_zero hi (by simp) s⟩
  | true =>
    cases hl : legalIn i s.phase with
    | false => exact ⟨_, _, (exec_eq_gated hw s).trans (gated_refused hl _), rfl, carriesZeros_errPhase i s⟩
    | true =>
      obtain ⟨r, ho, hr⟩ := effect_carriesZeros i s
      exact ⟨_, r, exec_legal hw hl, ho, hr⟩

/-- Settles O18: command by command, through the work of each and the two refusals. -/
theorem errorResponsesCarryZeros : Obligations.ErrorResponsesCarryZeros := by
  intro i s
  obtain ⟨t, r, ht, ho, hr⟩ := exec_carriesZeros i s
  exact ⟨t, r, ht, ho, r.st.bits_lt, hr.refusal, hr.enc, hr.elen, hr.empty⟩

/-! ### The block at its ports -/

/-- Settles O54: an offering port neither accepts nor moves but by `rsp_ready`. -/
theorem responseIsHeldUntilTaken : Obligations.ResponseIsHeldUntilTaken := by
  intro b p r hp hr
  refine ⟨by simp [Block.cmdReady, hp], by simp [Block.rspValid, hp, hr], fun hd => ?_, fun hd => ?_⟩
  · simp [Block.edge, hp, hr, hd]
  · simp [Block.edge, hp, hr, hd]

/-- What the host has still to offer. -/
def State.withInbox (s : State) (q : List HostEvent) : State := { s with inbox := q }

/-- A command's work does not depend on what the host has still to offer. -/
theorem effect_withInbox (i : Instr) (s : State) (q : List HostEvent) :
    effect i (s.withInbox q) = (effect i s).withInbox q := by
  cases i with
  | cnt x =>
    show State.countByte _ x = (State.countByte s x).withInbox q
    unfold State.countByte
    rw [apply_ite (State.withInbox · q)]
    rfl
  | assign =>
    show State.assign _ = s.assign.withInbox q
    unfold State.assign
    rw [apply_ite (State.withInbox · q), apply_ite (State.withInbox · q)]
    rfl
  | enc x =>
    show State.encodeByte _ x = (State.encodeByte s x).withInbox q
    unfold State.encodeByte
    simp only [apply_ite (State.withInbox · q)]
    rfl
  | clr | build | estart | elen | qfreq _ | qnode _ | qcode _ | qstat => rfl

theorem exec_withInbox {i : Instr} {s t : State} (h : exec i s = .next t) (q : List HostEvent) :
    exec i (s.withInbox q) = .next (t.withInbox q) := by
  rcases exec_cases h with ⟨hw, hl, rfl⟩ | ⟨hw, hl, rfl⟩ | ⟨hw, rfl⟩
  · rw [exec_legal (s := s.withInbox q) hw hl, effect_withInbox]
  · rw [exec_eq_gated hw, gated_refused (s := s.withInbox q) hl]
    rfl
  · rw [exec_not_wellFormed hw]
    rfl

theorem acceptWord_withInbox {w : CmdWord} {s t : State} (h : acceptWord w s = .next t) (q : List HostEvent) :
    acceptWord w (s.withInbox q) = .next (t.withInbox q) := by
  unfold acceptWord at h ⊢
  cases hd : decodeWord w with
  | instr i =>
    simp only [hd] at h ⊢
    exact exec_withInbox h q
  | illegal why =>
    simp only [hd] at h ⊢
    cases h
    rfl

/-- A step takes the first of the words offered. -/
theorem step_withInbox {w : CmdWord} {s t : State} (h : acceptWord w s = .next t) (q : List HostEvent) :
    step (s.withInbox (.command w :: q)) = .next (t.withInbox q) :=
  (step_command rfl).trans (acceptWord_withInbox h q)

/-- A run goes on from where its first step leads. -/
theorem core_run_succ {s t : State} (h : step s = .next t) (n : Nat) :
    Host.Core.run Sys2Proof.core (n + 1) s = Host.Core.run Sys2Proof.core n t := by
  have hcore : Sys2Proof.core.step s = .next t := h
  simp only [Host.Core.run, hcore]

theorem Block.accepted_cons_taken {b : Block} {p : Pins} (h : (b.cmdReady p && p.cmdValid) = true) (ps : List Pins) :
    b.accepted (p :: ps) = p.cmd :: (b.edge p).accepted ps := by
  simp only [Block.accepted, h, if_true]

theorem Block.accepted_cons_not_taken {b : Block} {p : Pins} (h : (b.cmdReady p && p.cmdValid) = false)
    (ps : List Pins) : b.accepted (p :: ps) = (b.edge p).accepted ps := by
  simp [Block.accepted, h]

/-- The state of a block with the response in flight, if there is one, taken as delivered: where `step` is when the
block has accepted the same words. -/
def Block.settled (b : Block) : State :=
  match b.port with
  | .idle => b.state
  | .working r | .offering r => { b.state with outbox := b.state.outbox ++ [r] }

theorem Block.settled_idle {b : Block} (h : b.port = .idle) : b.settled = b.state := by
  simp [Block.settled, h]

theorem Block.settled_inFlight (s : State) (done : Bool) (r : Response) :
    (Block.mk s (.inFlight done r)).settled = { s with outbox := s.outbox ++ [r] } := by
  cases done <;> rfl

/-- An edge that accepts a word settles the block where the word's acceptance leads. -/
theorem Block.settled_edge_taken {b : Block} {p : Pins} (h : (b.cmdReady p && p.cmdValid) = true) :
    ∃ r, acceptWord p.cmd b.settled = .next (b.edge p).settled ∧
      (b.edge p).settled.outbox = b.settled.outbox ++ [r] := by
  obtain ⟨hc, hv⟩ := Bool.and_eq_true_iff.1 h
  obtain ⟨hrst, hw, hidle⟩ := (b.cmdReady_iff p).1 hc
  obtain ⟨t, r, ht, ha, -⟩ := acceptWord_answered p.cmd b.state
  have hedge : b.edge p = b.accept p.cmd p.done := by simp [Block.edge, hrst, hidle, hw, hv]
  have hset : (b.edge p).settled = t := by
    rw [hedge, Block.accept_eq ht ha.outbox, Block.settled_inFlight, ← ha.outbox]
  rw [hset, Block.settled_idle hidle]
  exact ⟨r, ht, ha.outbox⟩

/-- Without reset, an edge that accepts no word leaves the block settled where it was. -/
theorem Block.settled_edge {b : Block} {p : Pins} (hr : p.rst = false) (h : (b.cmdReady p && p.cmdValid) = false) :
    (b.edge p).settled = b.settled := by
  rcases b.edge_cases p with ⟨h', -⟩ | ⟨hc, hv, -⟩ | ⟨-, -, -, e⟩ | ⟨r, -, hp, e⟩ | ⟨r, -, -, -, e⟩ | ⟨r, -, hp, -, e⟩
  · simp [hr] at h'
  · simp [hc, hv] at h
  · rw [e]
  · rw [e, Block.settled_inFlight, Block.settled, hp]
  · rw [e]
  · rw [e, Block.settled_idle rfl, Block.settled, hp]
    rfl

/-- Over edges without reset the block settles where stepping through the accepted words leads. -/
theorem Block.settled_run (ps : List Pins) (b : Block) (h : ∀ p ∈ ps, p.rst = false) :
    Host.Core.run Sys2Proof.core (b.accepted ps).length (b.settled.withInbox ((b.accepted ps).map .command)) =
      .next ((b.run ps).settled.withInbox []) ∧
    (b.run ps).settled.outbox.length = b.settled.outbox.length + (b.accepted ps).length := by
  induction ps generalizing b with
  | nil => exact ⟨rfl, rfl⟩
  | cons p ps ih =>
    obtain ⟨hp, hps⟩ := List.forall_mem_cons.1 h
    obtain ⟨hrun, hlen⟩ := ih (b.edge p) hps
    cases hacc : b.cmdReady p && p.cmdValid with
    | false =>
      rw [Block.settled_edge hp hacc] at hrun hlen
      rw [Block.accepted_cons_not_taken hacc]
      exact ⟨hrun, hlen⟩
    | true =>
      obtain ⟨r, hword, hout⟩ := Block.settled_edge_taken hacc
      rw [Block.accepted_cons_taken hacc]
      constructor
      · exact (core_run_succ (step_withInbox hword _) _).trans hrun
      · rw [hout, List.length_append] at hlen
        exact hlen.trans (Nat.add_right_comm _ _ _)

/-- Settles O56: at an idle port nothing is in flight, so the settled state is the state. -/
theorem portRunIsStepRun : Obligations.PortRunIsStepRun := by
  intro b ps hidle hrst hend
  have h := Block.settled_run ps b hrst
  rwa [Block.settled_idle hidle, Block.settled_idle hend] at h

/-! ### The pseudo-commands -/

/-- The number of a symbol command's word: its opcode over the symbol (30_encoding.md R91, R93). -/
theorem encode_toNat_of_symbol {i : Instr} {x : Symbol} (h : operandOf i = leafId x) :
    (encode i).toNat = (opcodeOf i).toNat * 4096 + x.toNat := by
  rw [encode_toNat, h, leafId_toNat]

/-- Settles O58: word by word of the expansion. -/
theorem pseudoCommandsExpand : Obligations.PseudoCommandsExpand := by
  have hcnt (x : Symbol) : (encode (.cnt x)).toNat = 0x2000 + x.toNat := by
    rw [encode_toNat_of_symbol (x := x) rfl, opcodeOf, BitVec.toNat_ofNat]
  have henc (x : Symbol) : (encode (.enc x)).toNat = 0x6000 + x.toNat := by
    rw [encode_toNat_of_symbol (x := x) rfl, opcodeOf, BitVec.toNat_ofNat]
  have hestart : (encode .estart).toNat = 0x5000 := by decide
  have helen : (encode .elen).toNat = 0x7000 := by decide
  refine ⟨fun bytes => ?_, fun bytes => ?_, by decide⟩
  · simp [Pseudo.expand, hcnt]
  · simp [Pseudo.expand, henc, hestart, helen]

/-! ### The text form -/

/-- A decimal digit as the library knows it is one to the assembler (30_encoding.md R108). -/
theorem digitIn_ten {c : Char} (h : c.isDigit = true) : digitIn 10 c = some (c.toNat - '0'.toNat) := by
  have h09 := Char.isDigit_iff_toNat.1 h
  have hle : '0' ≤ c ∧ c ≤ '9' := h09
  have hlt : c.toNat - '0'.toNat < 10 := by
    simp at h09 ⊢
    omega
  rw [digitIn, digitValue, if_pos hle, Option.filter_some_pos]
  simpa using hlt

/-- The assembler reads digits as the library's `Nat.ofDigitChars` does. -/
theorem readDigits_ten {cs : List Char} (h : ∀ c ∈ cs, c.isDigit = true) (acc : Nat) :
    readDigits 10 acc cs = (Nat.ofDigitChars 10 cs acc, []) := by
  induction cs generalizing acc with
  | nil => rfl
  | cons c cs ih =>
    obtain ⟨hc, hcs⟩ := List.forall_mem_cons.1 h
    simp only [readDigits, digitIn_ten hc, ih hcs, Nat.ofDigitChars_cons, Nat.mul_comm acc 10]

/-- Digits alone are neither a character literal nor a hexadecimal number. -/
theorem readOperand_digits {cs : List Char} (h : ∀ c ∈ cs, c.isDigit = true) : readOperand cs = readNumber 10 cs := by
  unfold readOperand
  split
  · exact absurd (h '\'' (by simp)) (by decide)
  · exact absurd (h 'x' (by simp)) (by decide)
  · rfl

theorem readNumber_digits {cs : List Char} (hne : cs ≠ []) (h : ∀ c ∈ cs, c.isDigit = true) :
    readNumber 10 cs = some (Nat.ofDigitChars 10 cs 0, []) := by
  cases cs with
  | nil => exact absurd rfl hne
  | cons c cs =>
    obtain ⟨hc, hcs⟩ := List.forall_mem_cons.1 h
    simp [readNumber, digitIn_ten hc, readDigits_ten hcs, Nat.ofDigitChars_cons]

theorem isBlank_digit {c : Char} (h : c.isDigit = true) : isBlank c = false := by
  have hspace : c ≠ ' ' := by
    rintro rfl
    exact absurd h (by decide)
  have htab : c ≠ '\t' := by
    rintro rfl
    exact absurd h (by decide)
  simp [isBlank, hspace, htab]

theorem skipBlanks_digits {cs : List Char} (h : ∀ c ∈ cs, c.isDigit = true) : skipBlanks cs = cs := by
  cases cs with
  | nil => rfl
  | cons c cs => simp [skipBlanks, isBlank_digit (h c List.mem_cons_self)]

theorem isDigit_toDigits (n : Nat) : ∀ c ∈ Nat.toDigits 10 n, c.isDigit = true :=
  fun _ => Nat.isDigit_of_mem_toDigits (by decide) (by decide)

/-- A decimal number is an operand, read whole (30_encoding.md R108). -/
theorem readOperand_decimal (n : Nat) : readOperand (Nat.toDigits 10 n) = some (n, []) := by
  rw [readOperand_digits (isDigit_toDigits n), readNumber_digits Nat.toDigits_ne_nil (isDigit_toDigits n),
    Nat.ofDigitChars_ten_toDigits]

theorem operandText_decimal (n : Nat) : operandText (' ' :: Nat.toDigits 10 n) = some (Nat.toDigits 10 n) :=
  congrArg some (skipBlanks_digits (isDigit_toDigits n))

theorem symbolLine_decimal (mk : Symbol → Instr) (x : Symbol) :
    symbolLine mk (' ' :: Nat.toDigits 10 x.toNat) = some [mk x] := by
  have hx : x.toNat < 256 := x.isLt
  have hread : symbolLine mk (' ' :: Nat.toDigits 10 x.toNat) =
      if x.toNat < 256 then finish [mk (BitVec.ofNat 8 x.toNat)] [] else none := by
    rw [symbolLine, operandText_decimal, Option.bind_eq_bind, Option.bind_some, readOperand_decimal]
    rfl
  rw [hread, if_pos hx, BitVec.ofNat_toNat, BitVec.setWidth_eq]
  rfl

theorem nodeLine_decimal {n : NodeId} (h : n.toNat < 511) :
    nodeLine (' ' :: Nat.toDigits 10 n.toNat) = some [.qnode n] := by
  have hread : nodeLine (' ' :: Nat.toDigits 10 n.toNat) =
      if n.toNat < 511 then finish [.qnode (BitVec.ofNat 9 n.toNat)] [] else none := by
    rw [nodeLine, operandText_decimal, Option.bind_eq_bind, Option.bind_some, readOperand_decimal]
    rfl
  rw [hread, if_pos h, BitVec.ofNat_toNat, BitVec.setWidth_eq]
  rfl

/-- A line of a mnemonic, a blank and more is the line of that command's operand form. -/
theorem assembleLine_operand :
    (∀ cs, assembleLine ("CNT".toList ++ ' ' :: cs) = symbolLine .cnt (' ' :: cs)) ∧
    (∀ cs, assembleLine ("ENC".toList ++ ' ' :: cs) = symbolLine .enc (' ' :: cs)) ∧
    (∀ cs, assembleLine ("QFREQ".toList ++ ' ' :: cs) = symbolLine .qfreq (' ' :: cs)) ∧
    (∀ cs, assembleLine ("QNODE".toList ++ ' ' :: cs) = nodeLine (' ' :: cs)) ∧
    (∀ cs, assembleLine ("QCODE".toList ++ ' ' :: cs) = symbolLine .qcode (' ' :: cs)) :=
  ⟨fun _ => rfl, fun _ => rfl, fun _ => rfl, fun _ => rfl, fun _ => rfl⟩

/-- Settles O59: the mnemonic picks the operand form, which reads the decimal number back. -/
theorem textReadsBack : Obligations.TextReadsBack := by
  intro i h
  obtain ⟨hcnt, henc, hqfreq, hqnode, hqcode⟩ := assembleLine_operand
  cases i with
  | cnt x => exact (hcnt _).trans (symbolLine_decimal .cnt x)
  | enc x => exact (henc _).trans (symbolLine_decimal .enc x)
  | qfreq x => exact (hqfreq _).trans (symbolLine_decimal .qfreq x)
  | qcode x => exact (hqcode _).trans (symbolLine_decimal .qcode x)
  | qnode n =>
    have hn := (wellFormed_qnode n).1 h
    have hlt := n.isLt
    exact (hqnode _).trans (nodeLine_decimal (by omega))
  | clr | build | assign | estart | elen | qstat => rfl

end Sys2Proof.Machine
end

section
/-! PROOFS. Family 40_frequency_counter: one `CNT` (R131, R132), `QFREQ` (R134), the end of a run by CountOverflow (R132),
and the counters over a sequence of commands (R133). -/

namespace Sys2Proof.Machine

/-! ### One command -/

/-- `CNT` below `2^FREQ_W - 1` counts (40_frequency_counter.md R131). -/
theorem exec_cnt_counts {s : State} {x : Symbol} (hp : s.phase = .count) (hx : s.freqAt x ≠ s.config.maxCount) :
    exec (.cnt x) s = .next ((s.setFreq x (s.freqAt x + 1)).respond .ok 0 0) := by
  rw [exec_legal rfl (by simp [legalIn, hp])]
  simp [effect, State.countByte, hx]

/-- `CNT` at `2^FREQ_W - 1` raises CountOverflow (40_frequency_counter.md R132). -/
theorem exec_cnt_overflows {s : State} {x : Symbol} (hp : s.phase = .count) (hx : s.freqAt x = s.config.maxCount) :
    exec (.cnt x) s = .next ((s.enterFault .countOverflow).raise .errCountOverflow) := by
  rw [exec_legal rfl (by simp [legalIn, hp])]
  simp [effect, State.countByte, hx]

/-- In a phase where it is not legal a command is refused (44_control_status.md R243). -/
theorem exec_refused {i : Instr} {s : State} (hw : i.wellFormed = true) (hl : legalIn i s.phase = false) :
    exec i s = .next (s.raise .errPhase) := by
  rw [exec_eq_gated hw, gated_refused hl]

/-- `QFREQ` is legal in every phase (40_frequency_counter.md R134). -/
theorem exec_qfreq (x : Symbol) (s : State) : exec (.qfreq x) s = .next (s.respond .ok (s.freqAt x) 0) := rfl

theorem encode_cnt_toNat (x : Symbol) : (encode (.cnt x)).toNat = 0x2000 + x.toNat := by
  rw [encode_toNat_of_symbol (x := x) rfl, opcodeOf, BitVec.toNat_ofNat]

theorem encode_qfreq_toNat (x : Symbol) : (encode (.qfreq x)).toNat = 0x8000 + x.toNat := by
  rw [encode_toNat_of_symbol (x := x) rfl, opcodeOf, BitVec.toNat_ofNat]

/-- Settles O23: by the phase gate and the two cases of `CNT`'s work. -/
theorem cntCountsOneByte : Obligations.CntCountsOneByte := by
  refine ⟨encode_cnt_toNat, fun x s => ⟨exec_cnt_counts, exec_cnt_overflows, fun hp => ?_⟩⟩
  exact exec_refused rfl (by simpa [legalIn] using hp)

/-- Settles O26: its work is one response. -/
theorem qfreqReadsCounter : Obligations.QfreqReadsCounter :=
  ⟨encode_qfreq_toNat, exec_qfreq⟩

/-! ### Phase FAULT -/

/-- In phase `FAULT` every command but `CLR` reads or is refused (60_exceptions.md R265). -/
theorem exec_sameElements_of_fault {i : Instr} {s t : State} (hp : s.phase = .fault) (hi : i ≠ .clr)
    (h : exec i s = .next t) : SameElements s t := by
  rcases exec_cases h with ⟨-, hl, rfl⟩ | ⟨-, -, rfl⟩ | ⟨-, rfl⟩
  · cases i with
    | clr => exact absurd rfl hi
    | qfreq _ | qstat => exact respond_sameElements s _ _ _
    | cnt _ | build | assign | estart | enc _ | elen | qnode _ | qcode _ => simp [legalIn, hp] at hl
  · exact respond_sameElements s _ _ _
  · exact respond_sameElements s _ _ _

/-- So does every word but `CLR`'s. -/
theorem acceptWord_sameElements_of_fault {w : CmdWord} {s t : State} (hp : s.phase = .fault) (hw : w ≠ encode .clr)
    (h : acceptWord w s = .next t) : SameElements s t := by
  rcases acceptWord_cases w s with ⟨i, hd, e⟩ | ⟨_, -, e⟩ <;> rw [e] at h
  · refine exec_sameElements_of_fault hp ?_ h
    rintro rfl
    exact hw (encode_of_decodeWord hd).symm
  · cases h
    exact respond_sameElements s _ _ _

/-- `CLR`'s word clears in every phase (44_control_status.md R240). -/
theorem acceptWord_clr (s : State) : acceptWord (encode .clr) s = .next (s.clear.respond .ok 0 0) :=
  (acceptWord_instr (decodeWord_encode rfl) s).trans (exec_clr s)

/-- Settles O24: the `CNT` enters phase `FAULT`, where only `CLR` and reset change an element. -/
theorem countOverflowEndsTheRun : Obligations.CountOverflowEndsTheRun := by
  intro x s hp hx
  have hclr : encode .clr = 0x1000#16 := rfl
  refine ⟨_, exec_cnt_overflows hp hx, rfl, hx, rfl, rfl, rfl, exec_refused rfl rfl, fun y => exec_qfreq y _,
    clear_elementsZero _, fun w => ?_⟩
  obtain ⟨u, _, hu, -, -⟩ := acceptWord_answered w ((s.enterFault .countOverflow).raise .errCountOverflow)
  refine ⟨u, hu, fun hw => ?_, fun hw => acceptWord_sameElements_of_fault rfl (hclr ▸ hw) hu⟩
  rw [hw, ← hclr, acceptWord_clr] at hu
  cases hu
  exact respond_elementsZero (clear_elementsZero _) _ _ _

/-! ### The counters over a sequence of commands -/

/-- Raising one counter raises the sum by as much (40_frequency_counter.md R133). -/
theorem totalCount_writeSym (f : FreqTable) (x : Symbol) (n : Nat) :
    totalCount (writeSym f x (readSym f x + n)) = totalCount f + n := by
  have hrest : (allSymbols.erase x).map (readSym (writeSym f x (readSym f x + n))) =
      (allSymbols.erase x).map (readSym f) :=
    List.map_congr_left fun y hy => readSym_writeSym_ne f (allSymbols_nodup.mem_erase_iff.1 hy).1.symm _
  have hold : _ = totalCount f := List.sum_map_erase (readSym f) (mem_allSymbols x)
  have hnew : _ = totalCount (writeSym f x (readSym f x + n)) := List.sum_map_erase (readSym _) (mem_allSymbols x)
  rw [hrest, readSym_writeSym_self] at hnew
  omega

/-- The counters after one command but `CLR`, by the command and its response `r`: an `OK` to a `CNT` raises its counter
by one, and nothing else moves any (10_state.md R23, R24). -/
structure Counts (i : Instr) (r : Response) (s t : State) : Prop where
  counter : ∀ x, t.freqAt x = s.freqAt x + if i = .cnt x ∧ r.st = .ok then 1 else 0
  total   : totalCount t.freq = totalCount s.freq + if (∃ x ∈ allSymbols, i = .cnt x) ∧ r.st = .ok then 1 else 0

theorem counts_raised (x : Symbol) (v : Nat) (a : Aux) {s t : State}
    (h : t.freq = writeSym s.freq x (s.freqAt x + 1)) : Counts (.cnt x) ⟨.ok, v, a⟩ s t where
  counter y := by
    rw [State.freqAt, h, readSym_writeSym]
    by_cases hxy : x = y <;> simp [hxy, State.freqAt]
  total := by simp [h, State.freqAt, totalCount_writeSym]

theorem counts_unchanged {i : Instr} {r : Response} (h : ∀ x, i = .cnt x → r.st ≠ .ok) {s t : State}
    (hf : t.freq = s.freq) : Counts i r s t where
  counter x := by
    have hn : ¬ (i = .cnt x ∧ r.st = .ok) := fun ⟨hi, hr⟩ => h x hi hr
    rw [if_neg hn, State.freqAt, State.freqAt, hf, Nat.add_zero]
  total := by
    have hn : ¬ ((∃ x ∈ allSymbols, i = .cnt x) ∧ r.st = .ok) := fun ⟨⟨x, _, hi⟩, hr⟩ => h x hi hr
    rw [if_neg hn, hf, Nat.add_zero]

/-- A `CNT` is answered `OK` exactly when it counts. -/
theorem exec_cnt_counted (x : Symbol) (s : State) :
    ∃ t r, exec (.cnt x) s = .next t ∧ t.outbox = s.outbox ++ [r] ∧ Counts (.cnt x) r s t := by
  by_cases hp : s.phase = .count
  · by_cases hx : s.freqAt x = s.config.maxCount
    · exact ⟨_, _, exec_cnt_overflows hp hx, rfl, counts_unchanged (by simp) rfl⟩
    · exact ⟨_, _, exec_cnt_counts hp hx, rfl, counts_raised x 0 0 rfl⟩
  · exact ⟨_, _, exec_refused rfl (by simpa [legalIn] using hp), rfl, counts_unchanged (by simp) rfl⟩

/-- Every command but `CLR` moves the counters as its response says: one that is no `CNT` writes none (10_state.md R20). -/
theorem exec_counted {i : Instr} (hi : i ≠ .clr) (s : State) :
    ∃ t r, exec i s = .next t ∧ t.outbox = s.outbox ++ [r] ∧ Counts i r s t := by
  by_cases hc : ∃ x, i = .cnt x
  · obtain ⟨x, rfl⟩ := hc
    exact exec_cnt_counted x s
  · obtain ⟨t, r, ht, ha, -⟩ := exec_answered i s
    have hf : t.freq = s.freq := by
      by_contra hne
      exact ((exec_writesListed ht).freq hne).elim hi hc
    exact ⟨t, r, ht, ha.outbox, counts_unchanged (fun x hx => absurd ⟨x, hx⟩ hc) hf⟩

theorem execAll_cons {i : Instr} {s t : State} (h : exec i s = .next t) (is : List Instr) :
    execAll (i :: is) s = execAll is t := by
  simp [execAll, h]

/-- Over a sequence of commands without `CLR` each counter, and their sum, goes up by the number of `CNT` commands
answered `OK` (10_state.md R23, 40_frequency_counter.md R133). -/
theorem execAll_counted (cmds : List Instr) (s : State) (h : .clr ∉ cmds) :
    ∃ (t : State) (rs : List Response), execAll cmds s = .next t ∧ t.outbox = s.outbox ++ rs ∧ rs.length = cmds.length ∧
      (∀ x, t.freqAt x = s.freqAt x + (cmds.zip rs).countP fun p => p.1 = .cnt x ∧ p.2.st = .ok) ∧
      totalCount t.freq =
        totalCount s.freq + (cmds.zip rs).countP fun p => (∃ x ∈ allSymbols, p.1 = .cnt x) ∧ p.2.st = .ok := by
  induction cmds generalizing s with
  | nil => exact ⟨s, [], rfl, by simp⟩
  | cons i is ih =>
    obtain ⟨hi, his⟩ := not_or.1 (mt List.mem_cons.2 h)
    obtain ⟨u, r, hu, ho, hc⟩ := exec_counted (Ne.symm hi) s
    obtain ⟨t, rs, ht, hos, hlen, hfreq, htotal⟩ := ih u his
    refine ⟨t, r :: rs, (execAll_cons hu is).trans ht, by simp [hos, ho], by simp [hlen], fun x => ?_, ?_⟩
    · simp only [List.zip_cons_cons, List.countP_cons, decide_eq_true_eq, hfreq, hc.counter]
      omega
    · simp only [List.zip_cons_cons, List.countP_cons, decide_eq_true_eq, htotal, hc.total]
      omega

/-- With room for every byte, a sequence of `CNT` commands adds to each counter the number of its bytes, whatever their
order (40_frequency_counter.md R133). -/
theorem execAll_cnt (bytes : List Symbol) {s : State} (hp : s.phase = .count)
    (hroom : ∀ x, s.freqAt x + bytes.count x ≤ s.config.maxCount) :
    ∃ t, execAll (bytes.map .cnt) s = .next t ∧ ∀ x, t.freqAt x = s.freqAt x + bytes.count x := by
  induction bytes generalizing s with
  | nil => exact ⟨s, rfl, by simp⟩
  | cons b bs ih =>
    have hb : s.freqAt b ≠ s.config.maxCount := by
      have := hroom b
      rw [List.count_cons_self] at this
      omega
    have hnext (x : Symbol) : ((s.setFreq b (s.freqAt b + 1)).respond .ok 0 0).freqAt x + bs.count x =
        s.freqAt x + (b :: bs).count x := by
      simp only [State.freqAt, State.respond_freq, State.setFreq_freq, readSym_writeSym, List.count_cons, beq_iff_eq]
      split
      · next h =>
        subst h
        omega
      · rfl
    obtain ⟨t, ht, hfreq⟩ := ih (s := (s.setFreq b (s.freqAt b + 1)).respond .ok 0 0) hp fun x => hnext x ▸ hroom x
    exact ⟨t, (execAll_cons (exec_cnt_counts hp hb) _).trans ht, fun x => (hfreq x).trans (hnext x)⟩

theorem totalCount_zero {f : FreqTable} (h : ∀ x, readSym f x = 0) : totalCount f = 0 :=
  List.sum_eq_zero (by simpa using h)

/-- Settles O25: the counters start at zero, and a permutation keeps the number of each byte. -/
theorem countersCountOkCommands : Obligations.CountersCountOkCommands := by
  refine ⟨fun s cmds h0 hclr => ?_, fun s bytes bytes' hp h0 hroom hperm => ?_⟩
  · have h := execAll_counted cmds s hclr
    simp only [h0, totalCount_zero h0, Nat.zero_add] at h
    exact h
  · obtain ⟨t, ht, hf⟩ := execAll_cnt bytes hp fun x => by
      rw [h0, Nat.zero_add]
      exact hroom x
    obtain ⟨t', ht', hf'⟩ := execAll_cnt bytes' hp fun x => by
      rw [h0, Nat.zero_add, ← hperm.count_eq]
      exact hroom x
    exact ⟨t, t', ht, ht', table_ext fun x => (hf x).trans (hperm.count_eq x ▸ hf' x).symm, by simpa [h0] using hf⟩

end Sys2Proof.Machine
end

section
/-! PROOFS. Family 41_tree_builder: `BUILD` and its edge cases (R151, R158, R159), the merge order (R155), rounds and
root (R157), determinism (R161) and `QNODE` (R163). -/

namespace Sys2Proof.Machine

/-! ### BUILD -/

/-- `BUILD` in phase `COUNT` does its work (41_tree_builder.md R151). -/
theorem exec_build {s : State} (hp : s.phase = .count) : exec .build s = .next s.build :=
  exec_legal rfl (by simp [legalIn, hp])

theorem present_ne_nil {f : FreqTable} (h : ∃ x, readSym f x ≠ 0) : present f ≠ [] := by
  obtain ⟨x, hx⟩ := h
  exact List.ne_nil_of_mem ((mem_present f x).2 hx)

/-- With a symbol counted the tree is not the empty one. -/
theorem buildTree_nonempty {f : FreqTable} (h : ∃ x, readSym f x ≠ 0) : (buildTree f).empty = false := by
  rw [Bool.eq_false_iff]
  exact mt (buildTree_empty f).1 (present_ne_nil h)

theorem build_of_nonempty {s : State} (h : (buildTree s.freq).empty = false) :
    s.build = (s.setTree (buildTree s.freq)).respond .ok 0 0 := by
  simp [State.build, h]

/-- `BUILD` leaves the tree of its counters, which it does not write. -/
theorem build_hasTree (s : State) : HasTree s.build := ⟨rfl, rfl, rfl, rfl⟩

/-- With a symbol counted that is a tree as 10_state.md R26 asks. -/
theorem build_isTree {s : State} (h : ∃ x, s.freqAt x ≠ 0) : IsTree s.build :=
  (build_hasTree s).isTree (buildTree_nonempty h)

/-- Settles O29: the tree is that of the merge loop's invariant; the rest is the phase gate. -/
theorem buildMakesTree : Obligations.BuildMakesTree := by
  refine ⟨by decide, fun s hp hx => ?_, fun s hp => exec_refused rfl (by simpa [legalIn] using hp)⟩
  have he := buildTree_nonempty hx
  exact ⟨s.build, exec_build hp, rfl, he, build_isTree hx, by rw [build_of_nonempty he]; rfl⟩

/-- Settles O27: the scan finds nothing. -/
theorem buildWithNoSymbol : Obligations.BuildWithNoSymbol := by
  intro s hp h0
  have hnone : present s.freq = [] := List.eq_nil_iff_forall_not_mem.2 fun x hx => (mem_present _ x).1 hx (h0 x)
  rw [exec_build hp, State.build, buildTree_none hnone]
  rfl

/-- The scan of a table with one symbol counted finds that symbol. -/
theorem present_sole {f : FreqTable} {x : Symbol} (hx : readSym f x ≠ 0) (h : ∀ y, y ≠ x → readSym f y = 0) :
    present f = [x] := by
  refine List.perm_singleton.1 ((List.perm_ext_iff_of_nodup (present_nodup f) (List.nodup_singleton x)).2 fun y => ?_)
  rw [mem_present, List.mem_singleton]
  exact ⟨fun hy => by_contra fun hne => hy (h y hne), fun e => e ▸ hx⟩

/-- `BUILD` with one symbol: its leaf, after no merge round (41_tree_builder.md R159). -/
theorem buildTree_sole {f : FreqTable} {x : Symbol} (h : present f = [x]) :
    buildTree f =
      { node := Arena.cleared.write (leafId x) (leafNode f x), root := leafId x, nsym := 1, empty := false } := by
  rw [buildTree_some (by simp [h]), mergeRounds_done _ _ _ (by simp [leafQueue, h])]
  simp [leafArena, leafQueue, h, lastId]

/-- Settles O28: the queue starts with one entry, so the loop runs zero times. -/
theorem buildWithOneSymbol : Obligations.BuildWithOneSymbol := by
  intro s x hp hx h0
  rw [exec_build hp, State.build, buildTree_sole (present_sole hx h0)]
  rfl

/-- The row of phase `TREE` (10_state.md R43). -/
theorem Inv.hasTree {s : State} (h : Inv s) (hp : s.phase = .tree) : HasTree s := by
  have hrow := h.row
  simp only [PhaseRow, hp] at hrow
  exact hrow.1

/-- The row of phase `READY` (10_state.md R43). -/
theorem Inv.hasCodes {s : State} (h : Inv s) (hp : s.phase = .ready) : HasCounts s ∧ s.code = codesOf s.freq := by
  have hrow := h.row
  simp only [PhaseRow, hp] at hrow
  obtain ⟨-, hcounts, hcode, -⟩ := hrow
  exact ⟨hcounts, hcode⟩

/-- Settles O34: the tree is a function of the counters, and so are the codes of phase `READY`. -/
theorem equalCountsGiveEqualTreesAndCodes : Obligations.EqualCountsGiveEqualTreesAndCodes := by
  refine ⟨fun s u hs hu hf => ⟨s.build, u.build, exec_build hs, exec_build hu, ?_⟩, fun s u is iu _ hf => ⟨?_, ?_⟩⟩
  · simp [State.build, hf]
  · intro hs hu
    obtain ⟨hnode, hroot, hnsym, hempty⟩ := is.hasTree hs
    obtain ⟨hnode', hroot', hnsym', hempty'⟩ := iu.hasTree hu
    simp [hnode, hroot, hnsym, hempty, hnode', hroot', hnsym', hempty', hf]
  · intro hs hu
    rw [(is.hasCodes hs).2, (iu.hasCodes hu).2, hf]

/-! ### QNODE -/

/-- `QNODE` of a slot in phase `TREE` (41_tree_builder.md R163). -/
theorem exec_qnode {i : NodeId} {s : State} (hi : i ≠ 511#9) (hp : s.phase = .tree) :
    exec (.qnode i) s = .next (s.respond .ok (s.nodeAt i).weight (s.nodeAt i).word) :=
  exec_legal (by simpa [Instr.wellFormed] using hi) (by simp [legalIn, hp])

/-- The number of two fields put together (30_encoding.md R91). -/
theorem toNat_append_eq {v w : Nat} (x : BitVec v) (y : BitVec w) : (x ++ y).toNat = x.toNat * 2 ^ w + y.toNat := by
  rw [BitVec.toNat_append, ← Nat.shiftLeft_add_eq_or_of_lt y.isLt, Nat.shiftLeft_eq]

/-- The node word by its numbers: `left` in 8:0, `right` in 17:9, `sym` in 25:18, `leaf` in 26, `valid` in 27
(30_encoding.md R103). -/
theorem word_eq_ofNat (n : Node) :
    n.word = BitVec.ofNat 32 (n.left.toNat + 2 ^ 9 * n.right.toNat + 2 ^ 18 * n.sym.toNat + 2 ^ 26 * n.leaf.toNat +
      2 ^ 27 * n.valid.toNat) := by
  apply BitVec.eq_of_toNat_eq
  have hl := n.left.isLt
  have hr := n.right.isLt
  have hs := n.sym.isLt
  have hleaf := n.leaf.toNat_lt
  have hvalid := n.valid.toNat_lt
  simp only [Node.word, flagBit, toNat_append_eq, BitVec.toNat_ofBool, BitVec.toNat_ofNat]
  omega

/-- A slot of a tree that is not valid has every field 0 (10_state.md R25). -/
theorem IsTree.eq_invalid {s : State} (h : IsTree s) {i : NodeId} (hv : (s.nodeAt i).valid = false) :
    s.nodeAt i = Node.invalid := by
  rcases nodeId_cases i with ⟨x, rfl⟩ | ⟨k, hk, rfl⟩ | rfl
  · refine h.absent_slot x (by_contra fun hx => ?_)
    simp [h.leaf_slot x hx] at hv
  · refine h.unused_slot k (Nat.le_of_not_lt fun hlt => ?_) hk
    simp [(h.inner_slot k hlt).1] at hv
  · rfl

/-- A slot of phase `TREE` that is not valid has every field 0, and with `EMPTY = 1` every slot does. -/
theorem Inv.eq_invalid {s : State} (h : Inv s) (hp : s.phase = .tree) {i : NodeId}
    (hi : (s.nodeAt i).valid = false ∨ s.empty = true) : s.nodeAt i = Node.invalid := by
  have htree := h.hasTree hp
  cases he : s.empty with
  | true => exact (htree.of_empty he).2 i
  | false => exact (htree.isTree he).eq_invalid (by simpa [he] using hi)

theorem exec_qnode_invalid {i : NodeId} {s : State} (hi : i ≠ 511#9) (hp : s.phase = .tree)
    (hn : s.nodeAt i = Node.invalid) : exec (.qnode i) s = .next (s.respond .ok 0 0) := by
  rw [exec_qnode hi hp, hn]
  rfl

/-- Settles O35: through the node word's numbers; an invalid slot of phase `TREE` has every field 0. -/
theorem qnodeReadsSlot : Obligations.QnodeReadsSlot := by
  refine ⟨fun i _ => ?_, fun i s hi hp => ?_, fun i s hi hp => exec_qnode_invalid hi hp,
    fun i s hi h hp hv => exec_qnode_invalid hi hp (h.eq_invalid hp hv), fun i s hi hp => ?_,
    exec_not_wellFormed rfl⟩
  · rw [encode_toNat]
    simp [opcodeOf, operandOf]
  · rw [exec_qnode hi hp, word_eq_ofNat]
    rfl
  · exact exec_refused (by simpa [Instr.wellFormed] using hi) (by simpa [legalIn] using hp)

/-! ### One round of the merge loop -/

/-- What one round takes off the queue `q`: the least entry `m`, then the least `n` of the others (41_tree_builder.md
R155), which leaves `q₂`. -/
structure Round (q : List QEntry) (m n : QEntry) (q₂ : List QEntry) : Prop where
  perm   : q.Perm (m :: n :: q₂)
  first  : m.before n = true
  second : ∀ e ∈ q₂, n.before e = true

theorem round_of_extractMin {q q₁ q₂ : List QEntry} {m n : QEntry} (hd : (q.map QEntry.id).Nodup)
    (h₁ : extractMin q = some (m, q₁)) (h₂ : extractMin q₁ = some (n, q₂)) : Round q m n q₂ := by
  have hp₁ := extractMin_perm h₁
  have hp₂ := extractMin_perm h₂
  have hd₁ : (q₁.map QEntry.id).Nodup := (List.nodup_cons.1 ((hp₁.map QEntry.id).nodup_iff.1 hd)).2
  exact ⟨hp₁.trans (hp₂.cons m), extractMin_before_rest h₁ hd n (hp₂.mem_iff.2 (.head _)),
    extractMin_before_rest h₂ hd₁⟩

/-- What every round keeps, the loop keeps. -/
theorem mergeRounds_invariant {P : Nat → Arena → List QEntry → Prop}
    (hstep : ∀ {k a q m n q₁ q₂}, P k a q → extractMin q = some (m, q₁) → extractMin q₁ = some (n, q₂) →
      P (k + 1) (a.join k m n) (q₂ ++ [⟨m.weight + n.weight, innerId k⟩]))
    (fuel : Nat) {k : Nat} {a : Arena} {q : List QEntry} (h : P k a q) :
    ∃ j, P j (mergeRounds fuel k a q).1 (mergeRounds fuel k a q).2 := by
  induction fuel generalizing k a q with
  | zero => exact ⟨k, h⟩
  | succ fuel ih =>
    cases h₁ : extractMin q with
    | none => exact ⟨k, by simpa [mergeRounds, h₁] using h⟩
    | some p =>
      obtain ⟨m, q₁⟩ := p
      cases h₂ : extractMin q₁ with
      | none => exact ⟨k, by simpa [mergeRounds, h₁, h₂] using h⟩
      | some p =>
        rw [mergeRounds_round h₁ h₂]
        exact ih (hstep h h₁ h₂)

/-- What holds after the leaf loop and is kept by every round holds of the finished tree (41_tree_builder.md R151). -/
theorem buildTree_invariant {f : FreqTable} {P : Nat → Arena → List QEntry → Prop} (hp : present f ≠ [])
    (hleaves : P 0 (leafArena f) (leafQueue f))
    (hround : ∀ {k a q m n q₂}, Forest f k a q → P k a q → Round q m n q₂ →
      P (k + 1) (a.join k m n) (q₂ ++ [⟨m.weight + n.weight, innerId k⟩])) :
    ∃ e k, (buildTree f).root = e.id ∧ Forest f k (buildTree f).node [e] ∧ P k (buildTree f).node [e] := by
  obtain ⟨e, -, hq, -⟩ := (forest_leaves f).mergeRounds (present f).length (by simpa [leafQueue] using hp)
    (by simp [leafQueue])
  obtain ⟨k, hf, hP⟩ := mergeRounds_invariant (P := fun k a q => Forest f k a q ∧ P k a q)
    (fun ⟨hf, hP⟩ h₁ h₂ => by
      have hr := round_of_extractMin hf.distinct h₁ h₂
      exact ⟨hf.join hr.perm, hround hf hP hr⟩) (present f).length ⟨forest_leaves f, hleaves⟩
  rw [hq] at hf hP
  rw [buildTree_some hp]
  exact ⟨e, k, by simp [hq, lastId], hf, hP⟩

/-- `n` symbols take `n - 1` rounds (41_tree_builder.md R157). -/
theorem Forest.rounds {f : FreqTable} {k : Nat} {a : Arena} {e : QEntry} (h : Forest f k a [e]) :
    k + 1 = (buildTree f).nsym.toNat := by
  rw [buildTree_nsym, ← h.count, List.length_singleton, Nat.add_comm]

/-! ### The order of the merges -/

section
variable {f : FreqTable} {k j : Nat} {a : Arena} {q q₂ : List QEntry} {m n : QEntry} {i i' : NodeId}

/-- The queue of the loop is the one read off the arena (41_tree_builder.md R155). -/
theorem Forest.queued_iff (h : Forest f k a q) : Queued a k i ↔ ∃ e ∈ q, e.id = i := by
  have hle := present_length_le f
  have hcount := h.count
  constructor
  · rintro ⟨hv, -, hno⟩
    by_contra hq
    simp only [not_exists, not_and] at hq
    obtain ⟨p, hc, -⟩ := h.one_parent i hv hq
    obtain ⟨hpv, hpl, -⟩ := id hc
    rcases h.valid_cases hpv with ⟨x, hx, rfl⟩ | ⟨j, hj, rfl⟩
    · simp [h.leaf_slot, hx, leafNode] at hpl
    · exact hno j hj hc
  · rintro ⟨e, he, rfl⟩
    refine ⟨h.valid e he, ?_, fun j _ => h.no_parent e he _⟩
    rcases h.valid_cases (h.valid e he) with ⟨x, -, hid⟩ | ⟨j, hj, hid⟩
    · rw [hid]
      exact (leafId_lt x).trans_le (Nat.le_add_right _ _)
    · rw [hid, innerId_toNat] <;> omega

/-- A later round leaves the queues of the rounds before it as they were. -/
theorem Forest.queued_join_iff (h : Forest f k a q) (hk : k < 255) (hj : j ≤ k) :
    Queued (a.join k m n) j i ↔ Queued a j i := by
  have hnew : i.toNat < 256 + j → i ≠ innerId k := by
    rintro hlt rfl
    rw [innerId_toNat] at hlt <;> omega
  have hparent : ∀ p < j, (IsChild (a.join k m n) i (innerId p) ↔ IsChild a i (innerId p)) := by
    intro p hp
    have hne : innerId p ≠ innerId k := fun e => by
      have := innerId_inj (by omega) (by omega) e
      omega
    simp [isChild_write (h.free hk) (innerId_lt hk), hne]
  simp only [Queued, Arena.join_valid_iff hk]
  constructor
  · rintro ⟨hv, hlt, hno⟩
    exact ⟨hv.resolve_left (hnew hlt), hlt, fun p hp => mt (hparent p hp).2 (hno p hp)⟩
  · rintro ⟨hv, hlt, hno⟩
    exact ⟨.inr hv, hlt, fun p hp => mt (hparent p hp).1 (hno p hp)⟩

/-- The order of two nodes does not change once they are made. -/
theorem KeyBefore.grows {b : Arena} (hg : a.Grows b) (hi : (a.read i).valid = true) (hi' : (a.read i').valid = true)
    (h : KeyBefore a i i') : KeyBefore b i i' := by
  simpa [KeyBefore, hg i hi, hg i' hi'] using h

/-- The order of the entries is that of their nodes (41_tree_builder.md R154). -/
theorem Forest.keyBefore (h : Forest f k a q) (hm : m ∈ q) (hn : n ∈ q) (hb : m.before n = true) :
    KeyBefore a m.id n.id := by
  simpa [KeyBefore, h.weight m hm, h.weight n hn] using (before_iff m n).1 hb

/-- Round `k` merged the two least of its queue, the least on the left (41_tree_builder.md R155, R156). -/
def MergesTwoLeast (a : Arena) (k : Nat) : Prop :=
  Queued a k (a.read (innerId k)).left ∧ Queued a k (a.read (innerId k)).right ∧
    KeyBefore a (a.read (innerId k)).left (a.read (innerId k)).right ∧
    ∀ i, Queued a k i → i ≠ (a.read (innerId k)).left → i ≠ (a.read (innerId k)).right →
      KeyBefore a (a.read (innerId k)).right i

/-- What an earlier round merged stays merged so. -/
theorem Forest.join_mergesTwoLeast_old (h : Forest f k a q) (hk : k < 255) (hj : j < k) (hm : MergesTwoLeast a j) :
    MergesTwoLeast (a.join k m n) j := by
  have hg : a.Grows (a.join k m n) := h.join_grows hk
  obtain ⟨hl, hr, hlr, hrest⟩ := hm
  simp only [MergesTwoLeast, hg _ (h.inner_slot j hj).valid, h.queued_join_iff hk hj.le]
  exact ⟨hl, hr, hlr.grows hg hl.1 hr.1, fun i hi hil hir => (hrest i hi hil hir).grows hg hr.1 hi.1⟩

/-- A round merges the two least of the queue. -/
theorem Forest.join_mergesTwoLeast_new (h : Forest f k a q) (hk : k < 255) (hr : Round q m n q₂) :
    MergesTwoLeast (a.join k m n) k := by
  have hg : a.Grows (a.join k m n) := h.join_grows hk
  have hm : m ∈ q := hr.perm.mem_iff.2 (by simp)
  have hn : n ∈ q := hr.perm.mem_iff.2 (by simp)
  simp only [MergesTwoLeast, Arena.read_join_new hk, innerNode, h.queued_join_iff hk le_rfl, h.queued_iff]
  refine ⟨⟨m, hm, rfl⟩, ⟨n, hn, rfl⟩, (h.keyBefore hm hn hr.first).grows hg (h.valid m hm) (h.valid n hn), ?_⟩
  rintro _ ⟨e, he, rfl⟩ hem hen
  have he₂ : e ∈ q₂ := by
    rcases List.mem_cons.1 (hr.perm.mem_iff.1 he) with rfl | he'
    · exact absurd rfl hem
    · exact (List.mem_cons.1 he').resolve_left fun e' => hen (congrArg QEntry.id e')
  exact (h.keyBefore hn he (hr.second e he₂)).grows hg (h.valid n hn) (h.valid e he)

/-- A round starts from two entries, so its internal slot is free. -/
theorem Forest.round_lt_of_round (h : Forest f k a q) (hr : Round q m n q₂) : k < 255 :=
  h.round_lt (by simp [hr.perm.length_eq])

end

/-- Every round of a finished tree merged the two least of its queue. -/
theorem buildTree_mergesTwoLeast {f : FreqTable} (h : present f ≠ []) {k : Nat}
    (hk : k + 1 < (buildTree f).nsym.toNat) : MergesTwoLeast (buildTree f).node k := by
  obtain ⟨e, r, -, hf, hP⟩ := buildTree_invariant (P := fun k a _ => ∀ j < k, MergesTwoLeast a j) h (by simp)
    (fun hf hP hr j hj => by
      have hlt := hf.round_lt_of_round hr
      rcases Nat.lt_succ_iff_lt_or_eq.1 hj with hj | rfl
      · exact hf.join_mergesTwoLeast_old hlt hj (hP j hj)
      · exact hf.join_mergesTwoLeast_new hlt hr)
  have hr := hf.rounds
  exact hP k (by omega)

/-- Settles O30: round by round of the merge loop, no later round disturbing an earlier queue. -/
theorem buildMergesTwoLeast : Obligations.BuildMergesTwoLeast := by
  intro s hp hx
  exact ⟨s.build, exec_build hp, fun k hk => buildTree_mergesTwoLeast (present_ne_nil hx) hk⟩

/-! ### Weights -/

/-- What a round's queue holds after the merge: its new node, and what was queued and not merged. -/
theorem queued_succ {a : Arena} {k : Nat} {i : NodeId} (h : Queued a (k + 1) i)
    (hv : (a.read (innerId k)).valid = true) (hl : (a.read (innerId k)).leaf = false) (hk : k < 256) :
    i = innerId k ∨
      (Queued a k i ∧ i ≠ (a.read (innerId k)).left ∧ i ≠ (a.read (innerId k)).right) := by
  obtain ⟨hi, hlt, hno⟩ := h
  by_cases hnew : i = innerId k
  · exact .inl hnew
  · have hne : i.toNat ≠ 256 + k := fun e => hnew (BitVec.eq_of_toNat_eq (e.trans (innerId_toNat hk).symm))
    have hout := hno k (Nat.lt_succ_self k)
    refine .inr ⟨⟨hi, by omega, fun j hj => hno j (hj.trans (Nat.lt_succ_self k))⟩, ?_, ?_⟩
    · exact fun e => hout ⟨hv, hl, .inl e.symm⟩
    · exact fun e => hout ⟨hv, hl, .inr e.symm⟩

theorem KeyBefore.weight_le {a : Arena} {i j : NodeId} (h : KeyBefore a i j) :
    (a.read i).weight ≤ (a.read j).weight := by
  rcases h with h | ⟨h, -⟩ <;> omega

/-- In a tree made by merging the two least, no node queued after a round weighs less than the heavier of the two that
round merged. -/
theorem MergesTwoLeast.right_le {a : Arena} {k : Nat} {i : NodeId} (h : MergesTwoLeast a k) (hm : IsMerge a (innerId k))
    (hk : k < 256) (hi : Queued a (k + 1) i) : (a.read (a.read (innerId k)).right).weight ≤ (a.read i).weight := by
  obtain ⟨-, -, -, hrest⟩ := h
  rcases queued_succ hi hm.valid hm.leaf hk with rfl | ⟨hq, hl, hr⟩
  · rw [hm.weight]
    exact Nat.le_add_left _ _
  · exact (hrest i hq hl hr).weight_le

/-- So the next merge weighs no less (41_tree_builder.md R157). -/
theorem MergesTwoLeast.weight_le_succ {a : Arena} {k : Nat} (h : MergesTwoLeast a k) (h' : MergesTwoLeast a (k + 1))
    (hm : IsMerge a (innerId k)) (hm' : IsMerge a (innerId (k + 1))) (hk : k < 256) :
    (a.read (innerId k)).weight ≤ (a.read (innerId (k + 1))).weight := by
  obtain ⟨-, -, hlr, -⟩ := id h
  obtain ⟨hl', hr', -, -⟩ := h'
  have := hlr.weight_le
  have := h.right_le hm hk hl'
  have := h.right_le hm hk hr'
  rw [hm.weight, hm'.weight]
  omega

/-- A sum over the symbols counted is one over all symbols, when the others add nothing. -/
theorem sum_counted {f : FreqTable} {g : Symbol → Nat} (h : ∀ x, readSym f x = 0 → g x = 0) :
    ((counted f).map g).sum = (allSymbols.map g).sum := by
  rw [counted]
  induction allSymbols with
  | nil => rfl
  | cons x l ih =>
    by_cases hx : readSym f x = 0
    · simp [hx, h x hx, ih]
    · simp [hx, ih]

/-- The queue of the leaf loop weighs the sum of all counters. -/
theorem leafQueue_weight (f : FreqTable) : queueWeight (leafQueue f) = totalCount f := by
  rw [queueWeight, leafQueue, present_eq_counted, List.map_map, totalCount, ← sum_counted fun _ h => h]
  rfl

/-- The root weighs the sum of all counters: a round keeps the weight of the queue (41_tree_builder.md R157). -/
theorem buildTree_root_weight {f : FreqTable} (h : present f ≠ []) :
    ((buildTree f).node.read (buildTree f).root).weight = totalCount f := by
  obtain ⟨e, k, hroot, hf, hw⟩ := buildTree_invariant (P := fun _ _ q => queueWeight q = totalCount f) h
    (leafQueue_weight f) (fun {k a q m n q₂} _ hw hr => by
      have hsum : queueWeight q = m.weight + (n.weight + queueWeight q₂) := by
        simpa [queueWeight] using (hr.perm.map QEntry.weight).sum_eq
      simp only [queueWeight, List.map_append, List.sum_append, List.map_singleton, List.sum_singleton] at *
      omega)
  rw [hroot, hf.weight e (List.mem_singleton_self e), ← hw]
  simp [queueWeight]

/-- Settles O31: rounds and root by the tree's layout, its weight by the queue's, the order by the merges'. -/
theorem rootWeighsAllCounts : Obligations.RootWeighsAllCounts := by
  intro s hp hx
  have ht := build_isTree hx
  have hne := present_ne_nil hx
  obtain ⟨e, r, -, hf⟩ := buildTree_forest hne
  have hr : r + 1 = s.build.nsym.toNat := hf.rounds
  have hle := present_length_le s.freq
  have hcount := hf.count
  refine ⟨s.build, exec_build hp, ht.nsym_eq.1, fun k hk => ⟨fun hv => ?_, fun hlt => ?_⟩, ht.root_last, ht.root_sole,
    buildTree_root_weight hne, fun k hk => ?_⟩
  · by_contra hlt
    simp [ht.unused_slot k (Nat.le_of_not_lt hlt) hk, Node.invalid] at hv
  · exact (ht.inner_slot k hlt).1
  · exact (buildTree_mergesTwoLeast hne (show k + 1 < s.build.nsym.toNat by omega)).weight_le_succ
      (buildTree_mergesTwoLeast hne (show k + 1 + 1 < s.build.nsym.toNat by omega)) (hf.inner_slot k (by omega))
      (hf.inner_slot (k + 1) (by omega)) (by simp at hcount; omega)

end Sys2Proof.Machine
end

section
/-! PROOFS. Family 41_tree_builder: the paths of a tree and what the traversal makes of them, as the cost of the codes
(R162) needs them. -/

namespace Sys2Proof.Machine

/-! ### Paths -/

/-- A path goes no further than a leaf or an invalid slot. -/
theorem PathTo.eq_nil {a : Arena} {i j : NodeId} {b : List Bool} (h : PathTo a i b j)
    (hi : ¬ ((a.read i).valid = true ∧ (a.read i).leaf = false)) : b = [] ∧ i = j := by
  cases h with
  | here => exact ⟨rfl, rfl⟩
  | left hv hl _ => exact absurd ⟨hv, hl⟩ hi
  | right hv hl _ => exact absurd ⟨hv, hl⟩ hi

/-- A path that does not end where it starts goes left or right first. -/
theorem pathTo_iff {a : Arena} {i j : NodeId} {b : List Bool} (hv : (a.read i).valid = true)
    (hl : (a.read i).leaf = false) :
    PathTo a i b j ↔ (b = [] ∧ i = j) ∨ (∃ b', b = false :: b' ∧ PathTo a (a.read i).left b' j) ∨
      ∃ b', b = true :: b' ∧ PathTo a (a.read i).right b' j := by
  constructor
  · intro h
    cases h with
    | here => exact .inl ⟨rfl, rfl⟩
    | left _ _ h => exact .inr (.inl ⟨_, rfl, h⟩)
    | right _ _ h => exact .inr (.inr ⟨_, rfl, h⟩)
  · rintro (⟨rfl, rfl⟩ | ⟨b', rfl, h⟩ | ⟨b', rfl, h⟩)
    exacts [.here _, .left hv hl h, .right hv hl h]

/-- The child that an edge leads to, 0 left and 1 right (42_code_assigner.md R184). -/
def Node.child (n : Node) (e : Bool) : NodeId := bif e then n.right else n.left

theorem Node.child_inj {n : Node} (h : n.left ≠ n.right) {e e' : Bool} (he : n.child e = n.child e') : e = e' := by
  cases e <;> cases e' <;> simp_all [Node.child, eq_comm]

/-- A path ends where it starts, or with an edge from a parent of its end. -/
theorem PathTo.last {a : Arena} {i j : NodeId} {b : List Bool} (h : PathTo a i b j) :
    (b = [] ∧ i = j) ∨ ∃ b' p e, b = b' ++ [e] ∧ PathTo a i b' p ∧ IsChild a j p ∧ (a.read p).child e = j := by
  induction h with
  | here i => exact .inl ⟨rfl, rfl⟩
  | @left i j b hv hl h ih =>
    rcases ih with ⟨rfl, hj⟩ | ⟨b', p, e, rfl, hp, hc⟩
    · exact .inr ⟨[], i, false, rfl, .here i, ⟨hv, hl, .inl hj⟩, hj⟩
    · exact .inr ⟨false :: b', p, e, rfl, .left hv hl hp, hc⟩
  | @right i j b hv hl h ih =>
    rcases ih with ⟨rfl, hj⟩ | ⟨b', p, e, rfl, hp, hc⟩
    · exact .inr ⟨[], i, true, rfl, .here i, ⟨hv, hl, .inr hj⟩, hj⟩
    · exact .inr ⟨true :: b', p, e, rfl, .right hv hl hp, hc⟩

/-- In a tree a node has at most one parent (10_state.md R26). -/
theorem IsTree.parent_unique {s : State} (h : IsTree s) {i p p' : NodeId} (hp : IsChild s.node i p)
    (hp' : IsChild s.node i p') : p = p' := by
  obtain ⟨hv, hl, hi⟩ := id hp
  obtain ⟨k, hk, rfl⟩ := h.inner_cases hv hl
  obtain ⟨-, -, -, -, hlv, hrv, -⟩ := h.inner_slot k hk
  have hiv : (s.nodeAt i).valid = true := by
    rcases hi with rfl | rfl
    exacts [hlv, hrv]
  exact (h.one_parent i hiv fun e => h.root_no_parent _ (e ▸ hp)).unique hp hp'

/-- In a tree one path leads from the root to a node (10_state.md R26). -/
theorem IsTree.path_unique {s : State} (h : IsTree s) {b b' : List Bool} {j : NodeId} (hb : PathTo s.node s.root b j)
    (hb' : PathTo s.node s.root b' j) : b = b' := by
  induction b using List.reverseRecOn generalizing b' j with
  | nil =>
    obtain ⟨-, rfl⟩ | ⟨_, _, _, e, -⟩ := hb.last
    · obtain ⟨rfl, -⟩ | ⟨_, p, _, -, -, hc, -⟩ := hb'.last
      · rfl
      · exact absurd hc (h.root_no_parent p)
    · simp at e
  | append_singleton b e ih =>
    obtain ⟨e', -⟩ | ⟨c, p, d, e', hp, hc, hd⟩ := hb.last
    · simp at e'
    · obtain ⟨rfl, e'⟩ : b = c ∧ [e] = [d] := List.append_inj' e' rfl
      obtain rfl : e = d := by simpa using e'
      obtain ⟨-, rfl⟩ | ⟨c, p', d, rfl, hp', hc', hd'⟩ := hb'.last
      · exact absurd hc (h.root_no_parent p)
      · obtain rfl := h.parent_unique hc hc'
        obtain ⟨hv, hl, -⟩ := hc
        obtain ⟨k, hk, rfl⟩ := h.inner_cases hv hl
        obtain ⟨-, -, -, hne, -⟩ := h.inner_slot k hk
        rw [ih hp hp', Node.child_inj hne (hd.trans hd'.symm)]

/-! ### The traversal -/

/-- The value accumulated along a path (20_memory.md R83). -/
def pathVal (v : Nat) (b : List Bool) : Nat := b.foldl (fun v e => 2 * v + e.toNat) v

/-- `c` is what the traversal records at a leaf that the path `b` leads to from node `i`, where it comes with the value
`v` and the length `l` (42_code_assigner.md R180, R184). -/
def RecordAt (a : Arena) (i : NodeId) (v l : Nat) (b : List Bool) (c : LeafCode) : Prop :=
  ∃ j, PathTo a i b j ∧ (a.read j).valid = true ∧ (a.read j).leaf = true ∧
    c = ⟨(a.read j).sym, pathVal v b, l + b.length⟩

/-- At a leaf the only record is its own; below an invalid slot there is none. -/
theorem recordAt_end {a : Arena} {i : NodeId} (hi : ¬ ((a.read i).valid = true ∧ (a.read i).leaf = false)) {v l : Nat}
    {b : List Bool} {c : LeafCode} :
    RecordAt a i v l b c ↔ b = [] ∧ (a.read i).valid = true ∧ (a.read i).leaf = true ∧ c = ⟨(a.read i).sym, v, l⟩ := by
  constructor
  · rintro ⟨j, hp, hv, hl, hc⟩
    obtain ⟨rfl, rfl⟩ := hp.eq_nil hi
    exact ⟨rfl, hv, hl, hc⟩
  · rintro ⟨rfl, hv, hl, hc⟩
    exact ⟨i, .here i, hv, hl, hc⟩

/-- At an internal node the records are those of its children, an edge further (20_memory.md R83). -/
theorem recordAt_inner {a : Arena} {i : NodeId} (hv : (a.read i).valid = true) (hl : (a.read i).leaf = false)
    {v l : Nat} {b : List Bool} {c : LeafCode} :
    RecordAt a i v l b c ↔ (∃ b', b = false :: b' ∧ RecordAt a (a.read i).left (2 * v) (l + 1) b' c) ∨
      ∃ b', b = true :: b' ∧ RecordAt a (a.read i).right (2 * v + 1) (l + 1) b' c := by
  have hlen (b' : List Bool) : l + 1 + b'.length = l + (b'.length + 1) := by omega
  constructor
  · rintro ⟨j, hp, hjv, hjl, rfl⟩
    obtain ⟨rfl, rfl⟩ | ⟨b', rfl, hp'⟩ | ⟨b', rfl, hp'⟩ := (pathTo_iff hv hl).1 hp
    · simp [hl] at hjl
    · exact .inl ⟨b', rfl, j, hp', hjv, hjl, by simp [pathVal, hlen]⟩
    · exact .inr ⟨b', rfl, j, hp', hjv, hjl, by simp [pathVal, hlen]⟩
  · rintro (⟨b', rfl, j, hp, hjv, hjl, rfl⟩ | ⟨b', rfl, j, hp, hjv, hjl, rfl⟩)
    · exact ⟨j, .left hv hl hp, hjv, hjl, by simp [pathVal, hlen]⟩
    · exact ⟨j, .right hv hl hp, hjv, hjl, by simp [pathVal, hlen]⟩

/-- The traversal finds the records of all paths within its bound. -/
theorem mem_walk {a : Arena} {c : LeafCode} (fuel : Nat) {i : NodeId} {v l : Nat} :
    c ∈ walk fuel a i v l ↔ ∃ b, RecordAt a i v l b c ∧ b.length < fuel := by
  induction fuel generalizing i v l with
  | zero => simp [walk]
  | succ fuel ih =>
    by_cases hi : (a.read i).valid = true ∧ (a.read i).leaf = false
    · obtain ⟨hv, hl⟩ := hi
      simp only [walk_inner hv hl, List.mem_append, ih, recordAt_inner hv hl]
      constructor
      · rintro (⟨b, hr, hb⟩ | ⟨b, hr, hb⟩)
        · exact ⟨false :: b, .inl ⟨b, rfl, hr⟩, Nat.succ_lt_succ hb⟩
        · exact ⟨true :: b, .inr ⟨b, rfl, hr⟩, Nat.succ_lt_succ hb⟩
      · rintro ⟨_, ⟨b, rfl, hr⟩ | ⟨b, rfl, hr⟩, hb⟩
        · exact .inl ⟨b, hr, Nat.lt_of_succ_lt_succ hb⟩
        · exact .inr ⟨b, hr, Nat.lt_of_succ_lt_succ hb⟩
    · simp only [recordAt_end hi]
      cases hv : (a.read i).valid with
      | false => simp [walk, hv]
      | true =>
        have hl : (a.read i).leaf = true := by simpa [hv] using hi
        simp [walk_leaf hv hl, hl]

/-- A symbol with one record gets its code (42_code_assigner.md R181). -/
theorem tableOf_of_mem {codes : List LeafCode} {c : LeafCode} (hc : c ∈ codes)
    (huniq : ∀ d ∈ codes, d.sym = c.sym → d = c) : readSym (tableOf codes) c.sym = ⟨c.len, c.val⟩ := by
  have gen : ∀ t : CodeTable, c ∈ codes ∨ readSym t c.sym = ⟨c.len, c.val⟩ →
      readSym (codes.foldl (fun t c => writeSym t c.sym ⟨c.len, c.val⟩) t) c.sym = ⟨c.len, c.val⟩ := by
    clear hc
    induction codes with
    | nil => simp
    | cons d ds ih =>
      intro t ht
      rw [List.foldl_cons]
      refine ih (fun x hx => huniq x (.tail _ hx)) _ ?_
      by_cases hd : d.sym = c.sym
      · obtain rfl := huniq d (.head _) hd
        exact .inr (readSym_writeSym_self _ _ _)
      · rw [readSym_writeSym_ne _ hd]
        refine ht.imp_left fun hc => (List.mem_cons.1 hc).resolve_left ?_
        rintro rfl
        exact hd rfl
  exact gen _ (.inl hc)

/-- A leaf of a tree is the leaf of a symbol counted (10_state.md R27). -/
theorem IsTree.leaf_cases {s : State} (h : IsTree s) {i : NodeId} (hv : (s.nodeAt i).valid = true)
    (hl : (s.nodeAt i).leaf = true) : ∃ x, s.freqAt x ≠ 0 ∧ i = leafId x := by
  rcases nodeId_cases i with ⟨x, rfl⟩ | ⟨k, hk, rfl⟩ | rfl
  · refine ⟨x, fun hx => ?_, rfl⟩
    simp [h.absent_slot x hx, Node.invalid] at hv
  · by_cases hlt : k + 1 < s.nsym.toNat
    · obtain ⟨-, hl', -⟩ := h.inner_slot k hlt
      simp [hl'] at hl
    · simp [h.unused_slot k (Nat.le_of_not_lt hlt) hk, Node.invalid] at hv
  · simp [State.nodeAt, Node.invalid] at hv

/-- With two symbols or more the root is no leaf (10_state.md R28). -/
theorem IsTree.root_not_leaf {s : State} (h : IsTree s) (h2 : 2 ≤ s.nsym.toNat) : (s.nodeAt s.root).leaf = false := by
  have hroot := h.root_last h2
  have hlt := s.root.isLt
  have hid : s.root = innerId (s.nsym.toNat - 2) :=
    BitVec.eq_of_toNat_eq (by rw [innerId_toNat] <;> omega)
  obtain ⟨-, hl, -⟩ := h.inner_slot (s.nsym.toNat - 2) (by omega)
  rw [hid, hl]

/-- A symbol's code is the path to its leaf (42_code_assigner.md R184). -/
theorem IsTree.code_of_path {s : State} (h : IsTree s) (h2 : 2 ≤ s.nsym.toNat) {x : Symbol} {b : List Bool}
    (hx : s.freqAt x ≠ 0) (hp : PathTo s.node s.root b (leafId x)) (hb : b.length < walkDepth) :
    readSym (tableOf (leafCodes s.node s.root)) x = ⟨b.length, pathVal 0 b⟩ := by
  have hleaf := h.leaf_slot x hx
  have hcodes : leafCodes s.node s.root = walk walkDepth s.node s.root 0 0 :=
    if_neg (ne_true_of_eq_false (h.root_not_leaf h2))
  rw [hcodes]
  refine tableOf_of_mem (c := ⟨x, pathVal 0 b, b.length⟩) ((mem_walk _).2 ?_) fun d hd hdx => ?_
  · exact ⟨b, ⟨leafId x, hp, by rw [← State.nodeAt, hleaf], by rw [← State.nodeAt, hleaf],
      by rw [← State.nodeAt, hleaf, Nat.zero_add]⟩, hb⟩
  · obtain ⟨b', ⟨j, hp', hv, hl, rfl⟩, -⟩ := (mem_walk _).1 hd
    obtain ⟨y, hy, rfl⟩ := h.leaf_cases hv hl
    rw [← State.nodeAt, h.leaf_slot y hy] at hdx ⊢
    obtain rfl : y = x := hdx
    rw [h.path_unique hp hp', Nat.zero_add]

end Sys2Proof.Machine
end

section
/-! PROOFS. Family 41_tree_builder: optimality (R162). The codes of a tree cost what its merges weigh together, and the
merges of the two least weigh together no more than any code costs in which no word begins another. -/

namespace Sys2Proof.Machine

/-- The weights of the first `k` internal nodes together. -/
def mergedWeight (a : Arena) (k : Nat) : Nat := ∑ j ∈ Finset.range k, (a.read (innerId j)).weight

/-- A round adds the weight of its new node. -/
theorem Forest.mergedWeight_join {f : FreqTable} {k : Nat} {a : Arena} {q : List QEntry} {m n : QEntry}
    (h : Forest f k a q) (hk : k < 255) :
    mergedWeight (a.join k m n) (k + 1) = mergedWeight a k + (m.weight + n.weight) := by
  have hg : a.Grows (a.join k m n) := h.join_grows hk
  rw [mergedWeight, Finset.sum_range_succ, Arena.read_join_new hk, innerNode]
  refine congrArg (· + _) (Finset.sum_congr rfl fun j hj => ?_)
  rw [hg _ (h.inner_slot j (Finset.mem_range.1 hj)).valid]

/-! ### The cost of the codes -/

/-- A sum over all symbols in which one symbol alone adds something. -/
theorem sum_symbols_single {g : Symbol → Nat} (x : Symbol) (h : ∀ y, y ≠ x → g y = 0) :
    (allSymbols.map g).sum = g x := by
  rw [List.sum_map_eq_nsmul_single x g fun y hy _ => h y hy,
    List.count_eq_one_of_mem allSymbols_nodup (mem_allSymbols x), one_smul]

/-- The counters of the symbols whose leaves stand in the tree with the root `i`, together; `top` gives each symbol the
root of its leaf's tree. -/
def weightUnder (f : FreqTable) (top : Symbol → NodeId) (i : NodeId) : Nat :=
  (allSymbols.map fun x => if top x = i then readSym f x else 0).sum

/-- Each leaf of the forest before round `k` with the root `top` above it, at the depth `depth`: a queued root weighs
its leaves, and the leaves' depths cost what the merges so far weigh. -/
structure Depths (f : FreqTable) (k : Nat) (a : Arena) (q : List QEntry) (top : Symbol → NodeId)
    (depth : Symbol → Nat) : Prop where
  path   : ∀ x, readSym f x ≠ 0 → ∃ b, PathTo a (top x) b (leafId x) ∧ b.length = depth x
  queued : ∀ x, readSym f x ≠ 0 → ∃ e ∈ q, e.id = top x
  weight : ∀ e ∈ q, weightUnder f top e.id = e.weight
  cost   : cost f depth = mergedWeight a k
  le     : ∀ x, depth x ≤ k

theorem depths_leaves (f : FreqTable) : Depths f 0 (leafArena f) (leafQueue f) leafId fun _ => 0 where
  path x _ := ⟨[], .here _, rfl⟩
  queued x hx := ⟨⟨readSym f x, leafId x⟩, List.mem_map.2 ⟨x, (mem_present f x).2 hx, rfl⟩, rfl⟩
  weight := by
    simp only [leafQueue, List.mem_map]
    rintro _ ⟨x, -, rfl⟩
    rw [weightUnder, sum_symbols_single x fun y hy => if_neg fun e => hy (leafId_injective e)]
    exact if_pos rfl
  cost := by
    refine List.sum_eq_zero fun v hv => ?_
    obtain ⟨x, -, rfl⟩ := List.mem_map.1 hv
    exact Nat.mul_zero _
  le _ := le_rfl

/-- A symbol's leaf stands in one of the two trees that a round joins. -/
abbrev Joined (top : Symbol → NodeId) (m n : QEntry) (x : Symbol) : Prop := top x = m.id ∨ top x = n.id

/-- The roots after round `k`. -/
def joinTop (top : Symbol → NodeId) (k : Nat) (m n : QEntry) (x : Symbol) : NodeId :=
  if Joined top m n x then innerId k else top x

/-- The depths after a round. -/
def joinDepth (top : Symbol → NodeId) (depth : Symbol → Nat) (m n : QEntry) (x : Symbol) : Nat :=
  depth x + if Joined top m n x then 1 else 0

section
variable {f : FreqTable} {k : Nat} {a : Arena} {q q₂ : List QEntry} {m n : QEntry} {top : Symbol → NodeId}
  {depth : Symbol → Nat}

/-- The symbols in the two trees joined weigh what the two roots do. -/
theorem weight_joined (hmn : m.id ≠ n.id) :
    (allSymbols.map fun x => if Joined top m n x then readSym f x else 0).sum =
      weightUnder f top m.id + weightUnder f top n.id := by
  rw [weightUnder, weightUnder, ← List.sum_map_add]
  refine congrArg List.sum (List.map_congr_left fun x _ => ?_)
  by_cases hm : top x = m.id
  · simp [Joined, hm, hmn]
  · simp [Joined, hm]

/-- A symbol counted keeps its path when its tree is not joined, and else gets the fresh node above it. -/
theorem Depths.join_path (h : Depths f k a q top depth) (hf : Forest f k a q) (hk : k < 255) {x : Symbol}
    (hx : readSym f x ≠ 0) :
    ∃ b, PathTo (a.join k m n) (joinTop top k m n x) b (leafId x) ∧ b.length = joinDepth top depth m n x := by
  obtain ⟨b, hb, hlen⟩ := h.path x hx
  have hb' := hb.grows (hf.join_grows (m := m) (n := n) hk)
  have hnew : (a.join k m n).read (innerId k) = innerNode m n := Arena.read_join_new hk
  by_cases hj : Joined top m n x
  · simp only [joinTop, joinDepth, hj, if_true]
    rcases hj with e | e <;> rw [e] at hb'
    · refine ⟨false :: b, .left ?_ ?_ ?_, by simp [hlen]⟩ <;> rw [hnew]
      exacts [rfl, rfl, hb']
    · refine ⟨true :: b, .right ?_ ?_ ?_, by simp [hlen]⟩ <;> rw [hnew]
      exacts [rfl, rfl, hb']
  · simp only [joinTop, joinDepth, hj, if_false]
    exact ⟨b, hb', hlen⟩

/-- A root that a round leaves alone keeps its leaves. -/
theorem weightUnder_joinTop_old {i : NodeId} (hm : m.id ≠ i) (hn : n.id ≠ i) (hi : i ≠ innerId k) :
    weightUnder f (joinTop top k m n) i = weightUnder f top i := by
  refine congrArg List.sum (List.map_congr_left fun x _ => ?_)
  by_cases hj : Joined top m n x
  · have hne : top x ≠ i := by
      rcases hj with e | e <;> rw [e]
      exacts [hm, hn]
    simp [joinTop, hj, hne, hi.symm]
  · simp [joinTop, hj]

/-- The fresh root has the leaves of the two joined. -/
theorem Depths.weightUnder_joinTop_new (h : Depths f k a q top depth) (hf : Forest f k a q) (hk : k < 255)
    (hmn : m.id ≠ n.id) :
    weightUnder f (joinTop top k m n) (innerId k) = weightUnder f top m.id + weightUnder f top n.id := by
  rw [← weight_joined hmn]
  refine congrArg List.sum (List.map_congr_left fun x _ => ?_)
  by_cases hj : Joined top m n x
  · simp [joinTop, hj]
  · by_cases hx : readSym f x = 0
    · simp [hx]
    · obtain ⟨e, he, hid⟩ := h.queued x hx
      have hne : top x ≠ innerId k := hid ▸ hf.id_ne_new hk he
      simp [joinTop, hj, hne]

/-- A round pushes the leaves of the two trees joined one edge down. -/
theorem cost_joinDepth (hmn : m.id ≠ n.id) :
    cost f (joinDepth top depth m n) =
      cost f depth + (weightUnder f top m.id + weightUnder f top n.id) := by
  rw [← weight_joined hmn, cost, cost, ← List.sum_map_add]
  refine congrArg List.sum (List.map_congr_left fun x _ => ?_)
  simp [joinDepth, Nat.mul_add]

/-- A round keeps the account of depths and weights. -/
theorem Depths.join (h : Depths f k a q top depth) (hf : Forest f k a q) (hr : Round q m n q₂) :
    Depths f (k + 1) (a.join k m n) (q₂ ++ [⟨m.weight + n.weight, innerId k⟩]) (joinTop top k m n)
      (joinDepth top depth m n) := by
  have hk := hf.round_lt_of_round hr
  have hm : m ∈ q := hr.perm.mem_iff.2 (by simp)
  have hn : n ∈ q := hr.perm.mem_iff.2 (by simp)
  have hrest : ∀ e ∈ q₂, e ∈ q := fun e he => hr.perm.mem_iff.2 (by simp [he])
  have hnd : ((m :: n :: q₂).map QEntry.id).Nodup := (hr.perm.map QEntry.id).nodup_iff.1 hf.distinct
  simp only [List.map_cons, List.nodup_cons, List.mem_cons, not_or, List.mem_map, not_exists, not_and] at hnd
  obtain ⟨⟨hmn, hmq⟩, hnq, -⟩ := hnd
  constructor
  case path => exact fun x hx => h.join_path hf hk hx
  case queued =>
    intro x hx
    by_cases hj : Joined top m n x
    · exact ⟨_, List.mem_append_right _ (List.mem_singleton_self _), by simp [joinTop, hj]⟩
    · obtain ⟨e, he, hid⟩ := h.queued x hx
      have he₂ : e ∈ q₂ := by
        rw [not_or] at hj
        rcases List.mem_cons.1 (hr.perm.mem_iff.1 he) with rfl | he
        · exact absurd hid.symm hj.1
        · exact (List.mem_cons.1 he).resolve_left fun e' => hj.2 (e' ▸ hid.symm)
      exact ⟨e, List.mem_append_left _ he₂, by simp [joinTop, hj, hid]⟩
  case weight =>
    simp only [List.mem_append, List.mem_singleton]
    rintro e (he | rfl)
    · rw [weightUnder_joinTop_old (fun e' => hmq e he e'.symm) (fun e' => hnq e he e'.symm)
        (hf.id_ne_new hk (hrest e he)), h.weight e (hrest e he)]
    · rw [h.weightUnder_joinTop_new hf hk hmn, h.weight m hm, h.weight n hn]
  case cost =>
    rw [cost_joinDepth hmn, h.cost, h.weight m hm, h.weight n hn, hf.mergedWeight_join hk]
  case le =>
    intro x
    have := h.le x
    simp only [joinDepth]
    split <;> omega

end

/-- The codes of two symbols or more cost what the merges weigh together. -/
theorem cost_codesOf {f : FreqTable} (h2 : 2 ≤ (buildTree f).nsym.toNat) :
    cost f (fun x => (readSym (codesOf f) x).len) =
      mergedWeight (buildTree f).node ((buildTree f).nsym.toNat - 1) := by
  have hp : present f ≠ [] := by
    rintro hp
    simp [buildTree_none hp] at h2
  have he : (buildTree f).empty = false := Bool.eq_false_iff.2 (mt (buildTree_empty f).1 hp)
  obtain ⟨e, k, hroot, hf, top, depth, hd⟩ := buildTree_invariant
    (P := fun k a q => ∃ top depth, Depths f k a q top depth) hp ⟨_, _, depths_leaves f⟩
    fun hf ⟨_, _, hd⟩ hr => ⟨_, _, hd.join hf hr⟩
  have hk := hf.rounds
  have hle : (buildTree f).nsym.toNat ≤ 256 := (buildTree_nsym f).trans_le (present_length_le f)
  have ht : IsTree { State.reset with freq := f }.build := (build_hasTree _).isTree he
  rw [← hk, Nat.add_sub_cancel, ← hd.cost, codesOf]
  simp only [he, Bool.false_eq_true, if_false]
  refine congrArg List.sum (List.map_congr_left fun x _ => ?_)
  by_cases hx : readSym f x = 0
  · simp [hx]
  · obtain ⟨b, hb, hlen⟩ := hd.path x hx
    obtain ⟨e', he', hid⟩ := hd.queued x hx
    obtain rfl := List.mem_singleton.1 he'
    rw [← hid, ← hroot] at hb
    have hbound := hd.le x
    have hcode := ht.code_of_path h2 hx hb (by rw [walkDepth]; omega)
    rw [← hlen]
    exact congrArg (readSym f x * CodeEntry.len ·) hcode

/-! ### The cost of any code -/

/-- The Kraft sum of a list of lengths. -/
noncomputable def kraft (ls : List Nat) : ℝ := (ls.map fun l => (1 / 2 : ℝ) ^ l).sum

theorem kraft_cons (l : Nat) (ls : List Nat) : kraft (l :: ls) = (1 / 2 : ℝ) ^ l + kraft ls := by
  simp [kraft]

theorem kraft_perm {ls ls' : List Nat} (h : ls.Perm ls') : kraft ls = kraft ls' := (h.map _).sum_eq

/-- A Kraft sum in units of the least term. -/
theorem kraft_scaled {l : Nat} {ls : List Nat} (h : ∀ x ∈ ls, x ≤ l) :
    2 ^ l * kraft ls = ((ls.map fun x => 2 ^ (l - x)).sum : ℕ) := by
  induction ls with
  | nil => simp [kraft]
  | cons x ls ih =>
    have hx : (2 : ℝ) ^ l * (1 / 2) ^ x = 2 ^ (l - x) := by
      rw [one_div, inv_pow, ← div_eq_mul_inv, pow_sub₀ _ two_ne_zero (h x (.head _)), div_eq_mul_inv]
    rw [kraft_cons, mul_add, hx, ih fun y hy => h y (.tail _ hy)]
    simp

/-- With the two greatest lengths made equal and joined into one a bit shorter, a Kraft sum of at most 1 stays so. -/
theorem kraft_join {L l : Nat} {ls : List Nat} (hls : ∀ x ∈ ls, x ≤ l) (h : kraft (L :: l :: ls) ≤ 1) :
    1 ≤ l ∧ kraft ((l - 1) :: ls) ≤ 1 := by
  have hpos : (0 : ℝ) < 2 ^ l := by positivity
  have hlt : kraft (l :: ls) < 1 := by
    have hL : (0 : ℝ) < (1 / 2) ^ L := by positivity
    rw [kraft_cons] at h
    linarith
  have hscaled := kraft_scaled (l := l) (ls := l :: ls) (by simpa using hls)
  have hroom : (ls.map fun x => 2 ^ (l - x)).sum + 2 ≤ 2 ^ l := by
    have hreal : ((((l :: ls).map fun x => 2 ^ (l - x)).sum : ℕ) : ℝ) < (2 ^ l : ℕ) := by
      rw [← hscaled, Nat.cast_pow, Nat.cast_ofNat]
      exact mul_lt_of_lt_one_right hpos hlt
    have hnat := Nat.cast_lt.1 hreal
    rw [List.map_cons, List.sum_cons, Nat.sub_self, pow_zero] at hnat
    omega
  have hl : 1 ≤ l := by
    by_contra h0
    obtain rfl : l = 0 := by omega
    omega
  refine ⟨hl, ?_⟩
  have hjoin := kraft_scaled (l := l) (ls := (l - 1) :: ls) (by simpa using hls)
  have hnat : (((l - 1) :: ls).map fun x => 2 ^ (l - x)).sum ≤ 2 ^ l := by
    rw [List.map_cons, List.sum_cons, Nat.sub_sub_self hl]
    omega
  refine le_of_mul_le_mul_left ?_ hpos
  rw [hjoin, mul_one]
  exact_mod_cast hnat

/-- The cost of weights with lengths, as pairs. -/
def pairCost (p : List (Nat × Nat)) : Nat := (p.map fun x => x.1 * x.2).sum

/-- A weight no greater than the others can take the greatest length, the others keeping their order: the lengths are
permuted and the cost does not rise. -/
theorem exists_longest {w : Nat} (l : Nat) (p : List (Nat × Nat)) (h : ∀ x ∈ p, w ≤ x.1) :
    ∃ (L : Nat) (p' : List (Nat × Nat)), p'.map Prod.fst = p.map Prod.fst ∧
      (L :: p'.map Prod.snd).Perm (l :: p.map Prod.snd) ∧ (∀ x ∈ l :: p'.map Prod.snd, x ≤ L) ∧
      w * L + pairCost p' ≤ w * l + pairCost p := by
  induction p generalizing l with
  | nil => exact ⟨l, [], rfl, .refl _, by simp, le_rfl⟩
  | cons y p ih =>
    obtain ⟨v, r⟩ := y
    obtain ⟨L, p', hfst, hsnd, hle, hcost⟩ := ih (max l r) fun x hx => h x (.tail _ hx)
    have hwv : w ≤ v := h _ (.head _)
    have hmax := hle _ (.head _)
    refine ⟨L, (v, min l r) :: p', by simp [hfst], ?_, ?_, ?_⟩
    · have hswap : (min l r :: max l r :: p.map Prod.snd).Perm (l :: r :: p.map Prod.snd) := by
        rcases le_total l r with hlr | hlr
        · simp [hlr]
        · simpa [hlr] using List.Perm.swap l r _
      exact ((List.Perm.swap _ _ _).trans (hsnd.cons _)).trans hswap
    · intro x hx
      simp only [List.map_cons, List.mem_cons] at hx
      rcases hx with rfl | rfl | hx
      · exact (le_max_left _ _).trans hmax
      · exact (min_le_left _ _).trans ((le_max_left _ _).trans hmax)
      · exact hle x (.tail _ hx)
    · have hexchange : w * max l r + v * min l r ≤ w * l + v * r := by
        rcases le_total l r with hlr | hlr
        · rw [max_eq_right hlr, min_eq_left hlr]
          exact mul_add_mul_le_mul_add_mul hwv hlr
        · rw [max_eq_left hlr, min_eq_right hlr]
      simp only [pairCost, List.map_cons, List.sum_cons] at hcost ⊢
      omega

/-- Some lengths with a Kraft sum of at most 1 let the weights `ws` cost at most `B`. -/
def KraftCost (ws : List Nat) (B : Nat) : Prop :=
  ∃ p : List (Nat × Nat), ws = p.map Prod.fst ∧ kraft (p.map Prod.snd) ≤ 1 ∧ pairCost p ≤ B

theorem KraftCost.perm {ws ws' : List Nat} {B : Nat} (h : KraftCost ws B) (hp : ws'.Perm ws) : KraftCost ws' B := by
  obtain ⟨p, rfl, hkraft, hcost⟩ := h
  obtain ⟨p', e, hp'⟩ := (congrFun₂ (List.eq_map_comp_perm Prod.fst) ws' p).mpr hp
  rw [pairCost, ← (hp'.map _).sum_eq] at hcost
  exact ⟨p', e, (kraft_perm (hp'.map _)).trans_le hkraft, hcost⟩

/-- Joining the two least weights saves what they weigh together. -/
theorem KraftCost.join {u v B : Nat} {ws : List Nat} (h : KraftCost (u :: v :: ws) B) (huv : u ≤ v)
    (hv : ∀ w ∈ ws, v ≤ w) : ∃ B', KraftCost ((u + v) :: ws) B' ∧ B' + (u + v) ≤ B := by
  obtain ⟨_ | ⟨⟨_, r⟩, p⟩, hfst, hkraft, hcost⟩ := h
  · cases hfst
  obtain ⟨rfl, hp⟩ := List.cons.inj hfst
  obtain ⟨L, p₁, hfst₁, hsnd₁, hle₁, hcost₁⟩ := exists_longest r p fun x hx => by
    have hx' : x.1 ∈ v :: ws := hp ▸ List.mem_map_of_mem hx
    rcases List.mem_cons.1 hx' with e | hw
    · exact huv.trans_eq e.symm
    · exact huv.trans (hv _ hw)
  rw [← hp] at hfst₁
  obtain _ | ⟨⟨_, t⟩, p₁⟩ := p₁
  · cases hfst₁
  obtain ⟨rfl, rfl⟩ := List.cons.inj hfst₁
  obtain ⟨l, p₂, hfst₂, hsnd₂, hle₂, hcost₂⟩ := exists_longest t p₁ fun x hx => hv _ (List.mem_map_of_mem hx)
  have hlL : l ≤ L := hle₁ l (.tail _ (hsnd₂.mem_iff.1 (.head _)))
  rw [List.map_cons, ← kraft_perm ((hsnd₂.cons L).trans hsnd₁)] at hkraft
  obtain ⟨hl, hkraft⟩ := kraft_join (fun x hx => hle₂ x (.tail _ hx)) hkraft
  refine ⟨_, ⟨(_, l - 1) :: p₂, by rw [List.map_cons, hfst₂], hkraft, le_rfl⟩, ?_⟩
  obtain ⟨d, rfl⟩ := Nat.exists_eq_add_of_le' hl
  have huL : u * (d + 1) ≤ u * L := Nat.mul_le_mul_left u hlL
  simp only [pairCost, List.map_cons, List.sum_cons, Nat.add_sub_cancel] at *
  linarith

/-- Merging the two least weighs no more altogether than lengths with a Kraft sum of at most 1 cost. -/
theorem mergedWeight_le {f : FreqTable} {B : Nat} (h : present f ≠ [])
    (hB : KraftCost ((leafQueue f).map QEntry.weight) B) :
    mergedWeight (buildTree f).node ((buildTree f).nsym.toNat - 1) ≤ B := by
  obtain ⟨e, k, -, hf, C, -, hC⟩ := buildTree_invariant
    (P := fun k a q => ∃ C, KraftCost (q.map QEntry.weight) C ∧ mergedWeight a k + C ≤ B) h
    ⟨B, hB, (Nat.zero_add B).le⟩
    (fun hf ⟨C, hC, hle⟩ hr => by
      have hweight {e e' : QEntry} (hb : e.before e' = true) : e.weight ≤ e'.weight := by
        rcases (before_iff e e').1 hb with h | ⟨h, -⟩ <;> omega
      obtain ⟨C', hC', hle'⟩ := (hC.perm (hr.perm.map QEntry.weight).symm).join (hweight hr.first) (by
        simpa using fun e he => hweight (hr.second e he))
      refine ⟨C', hC'.perm (by simp [List.perm_append_singleton]), ?_⟩
      rw [hf.mergedWeight_join (hf.round_lt_of_round hr)]
      omega)
  rw [← hf.rounds, Nat.add_sub_cancel]
  omega

/-! ### Codes of which no word begins another -/

/-- A code of nonempty words of which none begins another is uniquely decodable (43_encoder.md R222). -/
theorem uniquelyDecodable_of_prefixFree {S : Set (List Bool)} (hnil : [] ∉ S)
    (hfree : ∀ u ∈ S, ∀ v ∈ S, u <+: v → u = v) : InformationTheory.UniquelyDecodable S := by
  intro l₁
  have hempty {w : List Bool} {l : List (List Bool)} (hw : w ∈ S) : w ++ l.flatten ≠ [] := fun e =>
    hnil ((List.append_eq_nil_iff.1 e).1 ▸ hw)
  induction l₁ with
  | nil =>
    rintro (_ | ⟨v, l₂⟩) - h₂ e
    · rfl
    · exact absurd e.symm (hempty (h₂ v (.head _)))
  | cons u l₁ ih =>
    rintro (_ | ⟨v, l₂⟩) h₁ h₂ e
    · exact absurd e (hempty (h₁ u (.head _)))
    · have hu := h₁ u (.head _)
      have hv := h₂ v (.head _)
      rw [List.flatten_cons, List.flatten_cons] at e
      obtain rfl : u = v := by
        have hpv : v <+: u ++ l₁.flatten := e ▸ List.prefix_append v l₂.flatten
        rcases List.prefix_or_prefix_of_prefix (List.prefix_append u l₁.flatten) hpv with h | h
        · exact hfree u hu v hv h
        · exact (hfree v hv u hu h).symm
      rw [ih l₂ (fun w hw => h₁ w (.tail _ hw)) (fun w hw => h₂ w (.tail _ hw)) (List.append_cancel_left e)]

/-- Two code words or more, of which none begins another, have lengths with a Kraft sum of at most 1. -/
theorem kraft_le_one {c : Symbol → List Bool} {xs : List Symbol} (hnd : xs.Nodup) (h2 : 2 ≤ xs.length)
    (hfree : ∀ x ∈ xs, ∀ y ∈ xs, x ≠ y → ¬ c x <+: c y) : kraft (xs.map fun x => (c x).length) ≤ 1 := by
  have hinj : ∀ x ∈ xs, ∀ y ∈ xs, c x = c y → x = y := fun x hx y hy e =>
    by_contra fun hne => hfree x hx y hy hne (e ▸ List.prefix_refl _)
  have hwords : (xs.map c).Nodup := hnd.map_on hinj
  have hdec : InformationTheory.UniquelyDecodable (↑(xs.map c).toFinset : Set (List Bool)) := by
    apply uniquelyDecodable_of_prefixFree
    · simp only [Finset.mem_coe, List.mem_toFinset, List.mem_map, not_exists, not_and]
      intro x hx e
      obtain ⟨y, hy, hne⟩ := Finset.exists_mem_ne ((List.toFinset_card_of_nodup hnd).symm ▸ h2) x
      exact hfree x hx y (List.mem_toFinset.1 hy) hne.symm (e ▸ List.nil_prefix)
    · simp only [Finset.mem_coe, List.mem_toFinset, List.mem_map]
      rintro _ ⟨x, hx, rfl⟩ _ ⟨y, hy, rfl⟩ hp
      by_contra hne
      exact hfree x hx y hy (fun e => hne (e ▸ rfl)) hp
  have hkraft := InformationTheory.kraft_mcmillan_inequality hdec
  rw [List.sum_toFinset _ hwords] at hkraft
  simpa [kraft, Function.comp_def] using hkraft

/-- A code on the symbols counted, no word beginning another, costs what its lengths let the leaves' weights cost. -/
theorem kraftCost_of_prefixFree {f : FreqTable} {c : Symbol → List Bool} (h2 : 2 ≤ (counted f).length)
    (hfree : ∀ x y, readSym f x ≠ 0 → readSym f y ≠ 0 → x ≠ y → ¬ c x <+: c y) :
    KraftCost ((leafQueue f).map QEntry.weight) (cost f fun x => (c x).length) := by
  refine ⟨(counted f).map fun x => (readSym f x, (c x).length), ?_, ?_, ?_⟩
  · simp [leafQueue, present_eq_counted]
  · rw [List.map_map]
    refine kraft_le_one (allSymbols_nodup.filter _) h2 fun x hx y hy => ?_
    exact hfree x y ((mem_counted f x).1 hx) ((mem_counted f y).1 hy)
  · rw [pairCost, List.map_map, cost, ← sum_counted fun x hx => by rw [hx, Nat.zero_mul]]
    exact le_rfl

/-! ### One symbol -/

/-- The code of a sole symbol has length 1 (42_code_assigner.md R182). -/
theorem codesOf_sole_len {f : FreqTable} {x : Symbol} (h : present f = [x]) : (readSym (codesOf f) x).len = 1 := by
  have hroot : (Arena.cleared.write (leafId x) (leafNode f x)).read (leafId x) = leafNode f x :=
    Arena.read_write_self _ ((leafId_lt x).trans (by decide)) _
  simp only [codesOf, buildTree_sole h, Bool.false_eq_true, if_false]
  rw [leafCodes_sole (by rw [hroot]; rfl), hroot]
  simp [tableOf, leafNode]

/-- Settles O45: for two symbols or more through the weight of the merges, which the codes cost and no other code
undercuts. -/
theorem codeLengthsAreOptimal : Obligations.CodeLengthsAreOptimal := by
  intro s h hp
  obtain ⟨⟨hnsym, -⟩, hcode⟩ := h.hasCodes hp
  have hcount : s.nsym.toNat = (present s.freq).length := hnsym ▸ buildTree_nsym s.freq
  refine ⟨fun h2 c hfree => ?_, fun h1 x hx => ⟨?_, fun len hlen => ?_⟩⟩
  · simp only [State.codeAt, hcode]
    rw [cost_codesOf (hnsym ▸ h2)]
    rw [hcount] at h2
    exact mergedWeight_le (List.ne_nil_of_length_pos (by omega))
      (kraftCost_of_prefixFree (present_eq_counted s.freq ▸ h2) hfree)
  · obtain ⟨y, hy⟩ := List.length_eq_one_iff.1 (hcount ▸ h1)
    obtain rfl : x = y := by simpa [hy] using (mem_present s.freq x).2 hx
    rw [cost, sum_symbols_single x, State.codeAt, hcode, codesOf_sole_len hy, Nat.mul_one, State.freqAt]
    intro z hz
    have h0 : readSym s.freq z = 0 := by
      by_contra hz'
      exact hz (by simpa [hy] using (mem_present s.freq z).2 hz')
    rw [h0, Nat.zero_mul]
  · calc s.freqAt x ≤ s.freqAt x * len x := Nat.le_mul_of_pos_right _ hlen
      _ ≤ cost s.freq len :=
        List.le_sum_of_mem (List.mem_map_of_mem (f := fun x => readSym s.freq x * len x) (mem_allSymbols x))

end Sys2Proof.Machine
end

section
/-! PROOFS. Family 42_code_assigner: `ASSIGN` and its arms (R181, R182, R185, R191), and the codes as paths
(R184). -/

namespace Sys2Proof.Machine

/-! ### ASSIGN -/

/-- `ASSIGN` in phase `TREE` does its work (42_code_assigner.md R181). -/
theorem exec_assign {s : State} (hp : s.phase = .tree) : exec .assign s = .next s.assign :=
  exec_legal rfl (by simp [legalIn, hp])

/-- The arm without overflow. -/
theorem assign_fits {s : State} (he : s.empty = false) (hd : maxDepth s.node s.root ≤ s.config.maxCodeLen) :
    s.assign =
      { s.discardTree with code := tableOf (leafCodes s.node s.root), phase := .ready }.respond .ok 0 0 := by
  simp [State.assign, he, Nat.not_lt.2 hd]

/-- The arm of CodeOverflow. -/
theorem assign_overflows {s : State} (he : s.empty = false) (hd : s.config.maxCodeLen < maxDepth s.node s.root) :
    s.assign =
      (({ s.discardTree with code := CodeTable.cleared }).enterFault .codeOverflow).raise .errCodeOverflow := by
  simp [State.assign, he, hd]

/-- The arm of the empty tree. -/
theorem assign_empty {s : State} (he : s.empty = true) :
    s.assign = { s with phase := .ready }.respond .empty 0 0 := by
  simp [State.assign, he]

/-- Settles O36: by the arm of the empty tree. -/
theorem assignOfEmptyTree : Obligations.AssignOfEmptyTree := by
  intro s hp he
  rw [exec_assign hp, assign_empty he]
  rfl

/-- Settles O37: a root that is a leaf has depth 0 for the check and one record of length 1. -/
theorem assignOfSoleSymbol : Obligations.AssignOfSoleSymbol := by
  intro s hp he hl
  have hd : maxDepth s.node s.root = 0 := maxDepth_sole hl
  have hcodes : leafCodes s.node s.root = [⟨(s.nodeAt s.root).sym, 0, 1⟩] := leafCodes_sole hl
  rw [exec_assign hp, assign_fits he (hd ▸ Nat.zero_le _), hcodes]
  rfl

/-- Settles O38: arm by arm. -/
theorem assignDiscardsTree : Obligations.AssignDiscardsTree := by
  refine ⟨by decide, fun s hp he => ⟨s.assign, exec_assign hp, ?_⟩,
    fun s hp => exec_refused rfl (by simpa [legalIn] using hp)⟩
  rcases assign_cases s with ⟨he', -⟩ | ⟨-, -, e⟩ | ⟨-, -, e⟩
  · simp [he] at he'
  · rw [e]
    simp [State.nodeAt, Node.invalid]
  · rw [e]
    simp [State.nodeAt, Node.invalid]

/-! ### The depth of a tree -/

/-- `ASSIGN`'s records when the root is an internal node (42_code_assigner.md R181). -/
theorem leafCodes_inner {a : Arena} {root : NodeId} (hl : (a.read root).leaf = false) :
    leafCodes a root = walk walkDepth a root 0 0 := by
  simp [leafCodes, hl]

/-- A running maximum of lengths exceeds `M` when it started above it or a length does. -/
theorem lt_foldl_len_iff (codes : List LeafCode) (m M : Nat) :
    M < codes.foldl (fun m c => max m c.len) m ↔ M < m ∨ ∃ c ∈ codes, M < c.len := by
  induction codes generalizing m with
  | nil => simp
  | cons c codes ih => simp [ih, or_assoc]

/-- The depth that `ASSIGN` checks exceeds `M` exactly when a path within the bound of the traversal does. -/
theorem lt_maxDepth_iff {a : Arena} {root : NodeId} {M : Nat} :
    M < maxDepth a root ↔ ∃ b c, RecordAt a root 0 0 b c ∧ b.length < walkDepth ∧ M < b.length := by
  cases hl : (a.read root).leaf with
  | true =>
    rw [maxDepth_sole hl]
    refine iff_of_false (Nat.not_lt_zero M) ?_
    rintro ⟨b, c, hr, -, hM⟩
    obtain ⟨rfl, -⟩ := (recordAt_end (by simp [hl])).1 hr
    exact Nat.not_lt_zero M hM
  | false =>
    simp only [maxDepth, hl, Bool.false_eq_true, if_false, leafCodes_inner hl, lt_foldl_len_iff, Nat.not_lt_zero,
      false_or, mem_walk]
    constructor
    · rintro ⟨c, ⟨b, hr, hb⟩, hM⟩
      obtain ⟨j, -, -, -, rfl⟩ := id hr
      exact ⟨b, _, hr, hb, by simpa using hM⟩
    · rintro ⟨b, c, hr, hb, hM⟩
      obtain ⟨j, -, -, -, rfl⟩ := id hr
      exact ⟨_, ⟨b, hr, hb⟩, by simpa using hM⟩

/-- The records below a node of a tree are those of the symbols with a leaf below it. -/
theorem IsTree.recordAt_iff {s : State} (h : IsTree s) {i : NodeId} {v l : Nat} {b : List Bool} {c : LeafCode} :
    RecordAt s.node i v l b c ↔
      ∃ x, s.freqAt x ≠ 0 ∧ PathTo s.node i b (leafId x) ∧ c = ⟨x, pathVal v b, l + b.length⟩ := by
  constructor
  · rintro ⟨j, hp, hv, hl, rfl⟩
    obtain ⟨x, hx, rfl⟩ := h.leaf_cases hv hl
    exact ⟨x, hx, hp, by rw [← State.nodeAt, h.leaf_slot x hx]⟩
  · rintro ⟨x, hx, hp, rfl⟩
    have hleaf := h.leaf_slot x hx
    rw [State.nodeAt] at hleaf
    exact ⟨leafId x, hp, by rw [hleaf], by rw [hleaf], by rw [hleaf]⟩

section
variable {s : State} (h : HasTree s)
include h

theorem HasTree.nonempty {x : Symbol} (hx : s.freqAt x ≠ 0) : s.empty = false := by
  by_contra he
  exact hx ((h.of_empty (by simpa using he)).1 x)

theorem HasTree.nonempty_of_nsym (h1 : 1 ≤ s.nsym.toNat) : s.empty = false := by
  obtain ⟨-, -, hnsym, hempty⟩ := h
  by_contra he
  rw [hnsym, buildTree_of_empty (hempty ▸ by simpa using he)] at h1
  simp at h1

theorem HasTree.present_ne_nil (he : s.empty = false) : present s.freq ≠ [] := by
  obtain ⟨-, -, -, hempty⟩ := h
  rw [ne_eq, ← buildTree_empty, ← hempty, he]
  exact Bool.false_ne_true

/-- Every node of a tree merged the two least of its queue (41_tree_builder.md R155). -/
theorem HasTree.mergesTwoLeast {k : Nat} (hk : k + 1 < s.nsym.toNat) : MergesTwoLeast s.node k := by
  have hp := h.present_ne_nil (h.nonempty_of_nsym (by omega))
  obtain ⟨hnode, -, hnsym, -⟩ := h
  exact hnode ▸ buildTree_mergesTwoLeast hp (hnsym ▸ hk)

theorem HasTree.nsym_le : s.nsym.toNat ≤ 256 := by
  obtain ⟨-, -, hnsym, -⟩ := h
  exact hnsym ▸ (buildTree_nsym s.freq).trans_le (present_length_le s.freq)

/-- A child of a node was made before it, so its id is lower. -/
theorem HasTree.child_lt (he : s.empty = false) {i p : NodeId} (hc : IsChild s.node i p) :
    256 ≤ p.toNat ∧ i.toNat < p.toNat := by
  obtain ⟨hv, hl, hi⟩ := hc
  obtain ⟨k, hk, rfl⟩ := (h.isTree he).inner_cases hv hl
  have hle := h.nsym_le
  obtain ⟨⟨-, hleft, -⟩, ⟨-, hright, -⟩, -⟩ := h.mergesTwoLeast hk
  rw [innerId_toNat (by omega)]
  rcases hi with rfl | rfl <;> omega

/-- So a path from internal node `k` has at most `k + 1` edges, and one from a leaf none. -/
theorem HasTree.path_length_le (he : s.empty = false) {i j : NodeId} {b : List Bool} (hp : PathTo s.node i b j) :
    b.length ≤ i.toNat - 255 := by
  induction hp with
  | here i => exact Nat.zero_le _
  | left hv hl _ ih =>
    have := h.child_lt he ⟨hv, hl, .inl rfl⟩
    simp only [List.length_cons]
    omega
  | right hv hl _ ih =>
    have := h.child_lt he ⟨hv, hl, .inr rfl⟩
    simp only [List.length_cons]
    omega

/-- A path of a tree of `n` symbols has at most `n - 1` edges (42_code_assigner.md R188). -/
theorem HasTree.root_path_length_le (he : s.empty = false) {j : NodeId} {b : List Bool}
    (hp : PathTo s.node s.root b j) : b.length ≤ s.nsym.toNat - 1 := by
  have ht := h.isTree he
  have hlen := h.path_length_le he hp
  obtain ⟨-, h1⟩ := ht.nsym_eq
  rcases Nat.eq_or_lt_of_le h1 with h1 | h2
  · obtain ⟨x, -, hroot⟩ := ht.root_sole h1.symm
    have := leafId_lt x
    rw [hroot] at hlen
    omega
  · rw [ht.root_last h2] at hlen
    omega

/-- So the traversal reaches the end of every path (42_code_assigner.md R183). -/
theorem HasTree.root_path_length_lt (he : s.empty = false) {j : NodeId} {b : List Bool}
    (hp : PathTo s.node s.root b j) : b.length < walkDepth := by
  have := h.root_path_length_le he hp
  have := h.nsym_le
  rw [walkDepth]
  omega

/-- `ASSIGN` finds the depth of the deepest leaf (42_code_assigner.md R185). -/
theorem HasTree.lt_maxDepth_iff {M : Nat} : (s.empty = false ∧ M < maxDepth s.node s.root) ↔
    ∃ x b, s.freqAt x ≠ 0 ∧ PathTo s.node s.root b (leafId x) ∧ M < b.length := by
  rw [Machine.lt_maxDepth_iff]
  constructor
  · rintro ⟨he, b, c, hr, -, hM⟩
    obtain ⟨x, hx, hp, -⟩ := (h.isTree he).recordAt_iff.1 hr
    exact ⟨x, b, hx, hp, hM⟩
  · rintro ⟨x, b, hx, hp, hM⟩
    have he := h.nonempty hx
    exact ⟨he, b, _, (h.isTree he).recordAt_iff.2 ⟨x, hx, hp, rfl⟩, h.root_path_length_lt he hp, hM⟩

/-- The records of the traversal are those of the symbols counted, each with the path to its leaf (42_code_assigner.md
R184). -/
theorem HasTree.mem_walk (he : s.empty = false) {c : LeafCode} : c ∈ walk walkDepth s.node s.root 0 0 ↔
    ∃ x b, s.freqAt x ≠ 0 ∧ PathTo s.node s.root b (leafId x) ∧ c = ⟨x, pathVal 0 b, b.length⟩ := by
  simp only [Machine.mem_walk, (h.isTree he).recordAt_iff, Nat.zero_add]
  constructor
  · rintro ⟨b, ⟨x, hx, hp, hc⟩, -⟩
    exact ⟨x, b, hx, hp, hc⟩
  · rintro ⟨x, b, hx, hp, hc⟩
    exact ⟨b, ⟨x, hx, hp, hc⟩, h.root_path_length_lt he hp⟩

end

/-! ### The bits of a path -/

/-- Only the low `n` bits of a value are emitted. -/
theorem msbFirst_mod (n v : Nat) : msbFirst n (v % 2 ^ n) = msbFirst n v := by
  refine List.ext_getElem (by simp) fun j h₁ h₂ => ?_
  have hj : n - 1 - j < n := by
    simp at h₁
    omega
  simp [msbFirst_getElem, hj]

/-- What the path adds goes below the value it starts from. -/
theorem pathVal_div (v : Nat) (b : List Bool) : pathVal v b / 2 ^ b.length = v := by
  induction b generalizing v with
  | nil => exact Nat.div_one v
  | cons e b ih =>
    have hv : (2 * v + e.toNat) / 2 = v := by
      have := e.toNat_lt
      omega
    rw [List.length_cons, pow_succ, ← Nat.div_div_eq_div_mul]
    exact (congrArg (· / 2) (ih _)).trans hv

/-- The value of a path, emitted with its length, is the path (42_code_assigner.md R184). -/
theorem msbFirst_pathVal (v : Nat) (b : List Bool) : msbFirst b.length (pathVal v b) = b := by
  induction b generalizing v with
  | nil => rfl
  | cons e b ih =>
    have hbit : (pathVal (2 * v + e.toNat) b).testBit b.length = e := by
      rw [Nat.testBit_eq_decide_div_mod_eq, pathVal_div]
      cases e <;> simp
    exact congrArg₂ List.cons hbit (ih _)

/-- The value of a path, bit by bit (42_code_assigner.md R184). -/
theorem pathVal_eq_sum (v : Nat) (b : List Bool) : pathVal v b =
    v * 2 ^ b.length + ∑ k ∈ Finset.range b.length, (b.getD k false).toNat * 2 ^ (b.length - 1 - k) := by
  induction b generalizing v with
  | nil => simp [pathVal]
  | cons e b ih =>
    have hsub (k : Nat) : b.length + 1 - 1 - (k + 1) = b.length - 1 - k := by omega
    rw [pathVal, List.foldl_cons, ← pathVal, ih, List.length_cons, Finset.sum_range_succ']
    simp only [List.getD_cons_succ, List.getD_cons_zero, hsub]
    rw [Nat.add_sub_cancel, Nat.sub_zero, pow_succ]
    ring

/-! ### The codes of a tree -/

section
variable {s : State} (h : HasTree s)
include h

/-- A symbol not counted has no code (42_code_assigner.md R184). -/
theorem HasTree.code_absent (h2 : 2 ≤ s.nsym.toNat) {x : Symbol} (hx : s.freqAt x = 0) :
    readSym (tableOf (leafCodes s.node s.root)) x = CodeEntry.zero := by
  have he := h.nonempty_of_nsym (by omega)
  rw [leafCodes_inner ((h.isTree he).root_not_leaf h2)]
  refine tableOf_absent fun c hc e => ?_
  obtain ⟨y, b, hy, -, rfl⟩ := (h.mem_walk he).1 hc
  obtain rfl : y = x := e
  exact hy hx

theorem HasTree.code_of_path (h2 : 2 ≤ s.nsym.toNat) {x : Symbol} {b : List Bool} (hx : s.freqAt x ≠ 0)
    (hp : PathTo s.node s.root b (leafId x)) :
    readSym (tableOf (leafCodes s.node s.root)) x = ⟨b.length, pathVal 0 b⟩ :=
  have he := h.nonempty hx
  (h.isTree he).code_of_path h2 hx hp (h.root_path_length_lt he hp)

theorem HasTree.exists_path {x : Symbol} (hx : s.freqAt x ≠ 0) : ∃ b, PathTo s.node s.root b (leafId x) := by
  have ht := h.isTree (h.nonempty hx)
  exact ht.reachable _ (by rw [ht.leaf_slot x hx])

end

/-- Settles O39: the traversal's records are the paths, and no leaf is too deep. -/
theorem assignGivesPathCodes : Obligations.AssignGivesPathCodes := by
  intro s h hp h2 hfits
  have ht := h.hasTree hp
  have he := ht.nonempty_of_nsym (by omega)
  have hd : maxDepth s.node s.root ≤ s.config.maxCodeLen := Nat.le_of_not_lt fun hlt => by
    obtain ⟨x, b, hx, hb, hM⟩ := ht.lt_maxDepth_iff.1 ⟨he, hlt⟩
    exact Nat.not_le.2 hM (hfits x b hx hb)
  refine ⟨_, (exec_assign hp).trans (congrArg _ (assign_fits he hd)), rfl, rfl, fun x hx => ht.code_absent h2 hx,
    fun x b hx hb => ?_, fun x hx => ht.exists_path hx⟩
  rw [State.codeAt, State.respond_code, ht.code_of_path h2 hx hb]
  refine ⟨rfl, ?_, msbFirst_pathVal 0 b⟩
  simpa using pathVal_eq_sum 0 b

/-- Settles O40: the depth checked is that of the deepest leaf. -/
theorem codeOverflowEndsTheRun : Obligations.CodeOverflowEndsTheRun := by
  intro s h hp
  have ht := h.hasTree hp
  refine ⟨fun hdeep => ?_, fun hfits => ?_⟩
  · obtain ⟨he, hd⟩ := ht.lt_maxDepth_iff.2 hdeep
    refine ⟨_, (exec_assign hp).trans (congrArg _ (assign_overflows he hd)), rfl, fun x => exec_refused rfl rfl,
      _, exec_clr _, respond_elementsZero (clear_elementsZero _) _ _ _⟩
  · have hrow := h.row
    simp only [PhaseRow, hp] at hrow
    obtain ⟨-, -, -, hfcode⟩ := hrow
    refine ⟨s.assign, exec_assign hp, ?_⟩
    rcases assign_cases s with ⟨-, e⟩ | ⟨he, hd, -⟩ | ⟨-, -, e⟩
    · rw [e]
      exact ⟨rfl, hfcode⟩
    · exact absurd (ht.lt_maxDepth_iff.1 ⟨he, hd⟩) hfits
    · rw [e]
      exact ⟨rfl, hfcode⟩

end Sys2Proof.Machine
end

section
/-! PROOFS. Family 42_code_assigner: the code table in phase `READY`: `QCODE` (R190), completeness (R186), no code
beginning another (R187), and shape (R188). -/

namespace Sys2Proof.Machine

/-! ### Paths -/

/-- A path in two pieces. -/
theorem pathTo_append_iff {a : Arena} {i j : NodeId} {b c : List Bool} :
    PathTo a i (b ++ c) j ↔ ∃ m, PathTo a i b m ∧ PathTo a m c j := by
  induction b generalizing i with
  | nil =>
    constructor
    · exact fun h => ⟨i, .here i, h⟩
    · rintro ⟨m, hm, h⟩
      cases hm
      exact h
  | cons e b ih =>
    constructor
    · intro h
      cases h with
      | left hv hl h =>
        obtain ⟨m, hm, hc⟩ := ih.1 h
        exact ⟨m, .left hv hl hm, hc⟩
      | right hv hl h =>
        obtain ⟨m, hm, hc⟩ := ih.1 h
        exact ⟨m, .right hv hl hm, hc⟩
    · rintro ⟨m, hm, hc⟩
      cases hm with
      | left hv hl h => exact .left hv hl (ih.2 ⟨m, h, hc⟩)
      | right hv hl h => exact .right hv hl (ih.2 ⟨m, h, hc⟩)

/-- The edges say where a path ends. -/
theorem PathTo.end_unique {a : Arena} {i j j' : NodeId} {b : List Bool} (h : PathTo a i b j) (h' : PathTo a i b j') :
    j = j' := by
  induction h with
  | here i =>
    cases h'
    rfl
  | left _ _ _ ih =>
    cases h' with
    | left _ _ h' => exact ih h'
  | right _ _ _ ih =>
    cases h' with
    | right _ _ h' => exact ih h'

/-! ### The codes of a frequency table -/

/-- The state that `BUILD` makes of a frequency table: in phase `READY` its tree is gone, and its codes are left. -/
abbrev builtFrom (f : FreqTable) : State := { State.reset with freq := f }.build

theorem builtFrom_hasTree (f : FreqTable) : HasTree (builtFrom f) := build_hasTree _

theorem codesOf_of_empty {f : FreqTable} (he : (buildTree f).empty = true) : codesOf f = CodeTable.cleared := by
  simp [codesOf, he]

/-- The codes of a table with one symbol counted or more are the records of its tree. -/
theorem codesOf_of_nonempty {f : FreqTable} (he : (builtFrom f).empty = false) :
    codesOf f = tableOf (leafCodes (builtFrom f).node (builtFrom f).root) := by
  have he' : (buildTree f).empty = false := he
  rw [codesOf, if_neg (ne_true_of_eq_false he')]
  rfl

/-- The code table of a sole symbol (42_code_assigner.md R182). -/
theorem codesOf_sole {f : FreqTable} {x : Symbol} (h : present f = [x]) :
    codesOf f = tableOf [⟨x, 0, 1⟩] := by
  have hroot : (Arena.cleared.write (leafId x) (leafNode f x)).read (leafId x) = leafNode f x :=
    Arena.read_write_self _ ((leafId_lt x).trans (by decide)) _
  simp only [codesOf, buildTree_sole h, Bool.false_eq_true, if_false]
  rw [leafCodes_sole (by rw [hroot]; rfl), hroot]
  rfl

/-- No symbol counted, one, or two and more (41_tree_builder.md R158, R159). -/
theorem present_cases (f : FreqTable) :
    present f = [] ∨ (∃ x, present f = [x]) ∨ 2 ≤ (builtFrom f).nsym.toNat := by
  have hn : (builtFrom f).nsym.toNat = (present f).length := buildTree_nsym f
  rcases hp : present f with _ | ⟨x, _ | ⟨y, l⟩⟩
  · exact .inl rfl
  · exact .inr (.inl ⟨x, rfl⟩)
  · exact .inr (.inr (by simp [hn, hp]))

/-- The sole symbol of the scan is the only one counted. -/
theorem eq_of_present_sole {f : FreqTable} {x y : Symbol} (h : present f = [x]) (hy : readSym f y ≠ 0) : y = x := by
  simpa [h] using (mem_present f y).2 hy

/-- A symbol not counted has no code. -/
theorem codesOf_absent {f : FreqTable} {x : Symbol} (hx : readSym f x = 0) :
    readSym (codesOf f) x = CodeEntry.zero := by
  rcases present_cases f with hp | ⟨y, hp⟩ | h2
  · rw [codesOf_of_empty ((buildTree_empty f).2 hp), readSym_code_cleared]
  · rw [codesOf_sole hp]
    refine tableOf_absent fun c hc e => ?_
    obtain rfl := List.mem_singleton.1 hc
    have hy : y ∈ present f := hp ▸ List.mem_singleton_self y
    obtain rfl : y = x := e
    exact (mem_present f y).1 hy hx
  · have ht := builtFrom_hasTree f
    rw [codesOf_of_nonempty (ht.nonempty_of_nsym (by omega))]
    exact ht.code_absent h2 hx

/-- A symbol counted has the code of R182 when it is the sole one, and else the path to its leaf, of one edge or more
(42_code_assigner.md R184). -/
theorem codesOf_counted {f : FreqTable} {x : Symbol} (hx : readSym f x ≠ 0) :
    (present f = [x] ∧ readSym (codesOf f) x = ⟨1, 0⟩) ∨
    (2 ≤ (builtFrom f).nsym.toNat ∧ ∃ b, b ≠ [] ∧ PathTo (builtFrom f).node (builtFrom f).root b (leafId x) ∧
      readSym (codesOf f) x = ⟨b.length, pathVal 0 b⟩) := by
  rcases present_cases f with hp | ⟨y, hp⟩ | h2
  · exact absurd (readSym_of_present_nil hp x) hx
  · obtain rfl := eq_of_present_sole hp hx
    exact .inl ⟨hp, by simp [codesOf_sole hp, tableOf]⟩
  · have ht := builtFrom_hasTree f
    have he := ht.nonempty_of_nsym (by omega)
    obtain ⟨b, hb⟩ := ht.exists_path (x := x) hx
    refine .inr ⟨h2, b, ?_, hb, by rw [codesOf_of_nonempty he, ht.code_of_path h2 hx hb]⟩
    rintro rfl
    have hleaf := (ht.isTree he).root_not_leaf h2
    rw [← hb.end_unique (.here _), (ht.isTree he).leaf_slot x hx] at hleaf
    cases hleaf

/-- A symbol has a code exactly when it was counted (42_code_assigner.md R186). -/
theorem codesOf_len_pos_iff {f : FreqTable} {x : Symbol} : 0 < (readSym (codesOf f) x).len ↔ readSym f x ≠ 0 := by
  constructor
  · intro hlen hx
    rw [codesOf_absent hx] at hlen
    exact Nat.lt_irrefl 0 hlen
  · intro hx
    obtain ⟨-, e⟩ | ⟨-, b, hb, -, e⟩ := codesOf_counted hx <;> rw [e]
    · exact Nat.one_pos
    · exact List.length_pos_iff.2 hb

/-- Settles O42: the row of phase `READY` gives the codes of the counters. -/
theorem codedExactlyWhenCounted : Obligations.CodedExactlyWhenCounted := by
  intro s h hp x
  rw [State.codeAt, (h.hasCodes hp).2]
  exact codesOf_len_pos_iff

/-! ### QCODE -/

theorem encode_qcode_toNat (x : Symbol) : (encode (.qcode x)).toNat = 0xA000 + x.toNat := by
  rw [encode_toNat_of_symbol (x := x) rfl, opcodeOf, BitVec.toNat_ofNat]

/-- `QCODE` in phase `READY` (42_code_assigner.md R190). -/
theorem exec_qcode {x : Symbol} {s : State} (hp : s.phase = .ready) :
    exec (.qcode x) s = .next (s.respond .ok (s.codeAt x).val (BitVec.ofNat 32 (s.codeAt x).len)) :=
  exec_legal rfl (by simp [legalIn, hp])

/-- With `EMPTY = 1` no symbol has a code. -/
theorem Inv.code_len_of_empty {s : State} (h : Inv s) (hp : s.phase = .ready) (he : s.empty = true) (x : Symbol) :
    (s.codeAt x).len = 0 := by
  obtain ⟨⟨-, hempty⟩, hcode⟩ := h.hasCodes hp
  rw [State.codeAt, hcode, codesOf_of_empty (hempty ▸ he), readSym_code_cleared]
  rfl

/-- Settles O41: an entry of length 0 has value 0, as the value fits the length. -/
theorem qcodeReadsEntry : Obligations.QcodeReadsEntry := by
  refine ⟨encode_qcode_toNat, fun x s => exec_qcode, fun x s h hp hz => ?_,
    fun x s hp => exec_refused rfl (by simpa [legalIn] using hp)⟩
  have hlen : (s.codeAt x).len = 0 := hz.elim id fun he => h.code_len_of_empty hp he x
  have hval : (s.codeAt x).val = 0 := by
    have hlt := (h.code_bounds x).2
    rw [hlen] at hlt
    omega
  rw [exec_qcode hp, hlen, hval]
  rfl

/-! ### No code begins another -/

/-- No leaf lies on the path to another (42_code_assigner.md R187). -/
theorem HasTree.eq_of_path_isPrefix {s : State} (h : HasTree s) {x y : Symbol} {b c : List Bool} (hx : s.freqAt x ≠ 0)
    (hb : PathTo s.node s.root b (leafId x)) (hc : PathTo s.node s.root c (leafId y)) (hpre : b <+: c) : x = y := by
  obtain ⟨d, rfl⟩ := hpre
  obtain ⟨m, hm, hd⟩ := pathTo_append_iff.1 hc
  obtain rfl := hb.end_unique hm
  have hleaf := (h.isTree (h.nonempty hx)).leaf_slot x hx
  rw [State.nodeAt] at hleaf
  obtain ⟨-, e⟩ := hd.eq_nil (by simp [hleaf])
  exact leafId_injective e

/-- Of the codes of a frequency table none begins another (42_code_assigner.md R187). -/
theorem codesOf_prefixFree (f : FreqTable) : IsPrefixFree (codesOf f) := by
  intro x y hne hx hy hpre
  have hx := codesOf_len_pos_iff.1 hx
  have hy := codesOf_len_pos_iff.1 hy
  obtain ⟨hp, -⟩ | ⟨-, b, -, hb, eb⟩ := codesOf_counted hx
  · exact hne (eq_of_present_sole hp hy).symm
  · obtain ⟨hp, -⟩ | ⟨-, c, -, hc, ec⟩ := codesOf_counted hy
    · exact hne (eq_of_present_sole hp hx)
    · rw [eb, ec, CodeEntry.bits, CodeEntry.bits, msbFirst_pathVal, msbFirst_pathVal] at hpre
      exact hne ((builtFrom_hasTree f).eq_of_path_isPrefix hx hb hc hpre)

/-- The first `p` of `q` bits emitted are the upper bits of the value. -/
theorem msbFirst_take {p q : Nat} (h : p ≤ q) (v : Nat) : (msbFirst q v).take p = msbFirst p (v / 2 ^ (q - p)) := by
  refine List.ext_getElem (by simp [h]) fun j h₁ h₂ => ?_
  have hj : q - p + (p - 1 - j) = q - 1 - j := by
    simp at h₂
    omega
  simp [msbFirst_getElem, Nat.testBit_div_two_pow, hj, Nat.add_comm]

/-- A code whose value is that of the upper bits of another begins it (42_code_assigner.md R187). -/
theorem bits_prefix_of_val {c d : CodeEntry} (hlen : c.len ≤ d.len)
    (hval : d.val / 2 ^ (d.len - c.len) % 2 ^ c.len = c.val % 2 ^ c.len) : c.bits <+: d.bits := by
  have e : c.bits = d.bits.take c.len := by
    rw [CodeEntry.bits, CodeEntry.bits, msbFirst_take hlen, ← msbFirst_mod, ← hval, msbFirst_mod]
  exact e ▸ List.take_prefix _ _

/-- Settles O43: equal values would have the one code begin the other. -/
theorem codesArePrefixFree : Obligations.CodesArePrefixFree := by
  intro s h hp
  have hfree : IsPrefixFree s.code := (h.hasCodes hp).2 ▸ codesOf_prefixFree s.freq
  refine ⟨hfree, fun x y hne hx hlen hval => ?_⟩
  exact hfree x y hne hx (hx.trans_le hlen) (bits_prefix_of_val hlen hval)

/-! ### Shape -/

/-- The Kraft sum of a table is that of the records it was made from, when no two name one symbol. -/
theorem kraftSum_of_records {t : CodeTable} {codes : List LeafCode} (hnd : (codes.map LeafCode.sym).Nodup)
    (hrec : ∀ c ∈ codes, 0 < c.len ∧ (readSym t c.sym).len = c.len)
    (hnone : ∀ x, x ∉ codes.map LeafCode.sym → (readSym t x).len = 0) :
    kraftSum t = (codes.map fun c => (1 / 2 : ℚ) ^ c.len).sum := by
  have hzero : ∀ x ∈ allSymbols.toFinset, x ∉ (codes.map LeafCode.sym).toFinset →
      (if 0 < (readSym t x).len then (1 / 2 : ℚ) ^ (readSym t x).len else 0) = 0 := by
    intro x _ hx
    simp [hnone x (by simpa using hx)]
  rw [kraftSum, ← List.sum_toFinset _ allSymbols_nodup, ← Finset.sum_subset (by intro x _; simp) hzero,
    List.sum_toFinset _ hnd, List.map_map]
  refine congrArg List.sum (List.map_congr_left fun c hc => ?_)
  obtain ⟨hpos, hlen⟩ := hrec c hc
  simp [hlen, hpos]

/-- A strictly binary tree gives each node the sum of its children's shares (42_code_assigner.md R188). -/
theorem walk_kraft {a : Arena} (fuel : Nat) {i : NodeId}
    (hi : ∀ b j, PathTo a i b j → (a.read j).valid = true ∧ b.length < fuel) (v l : Nat) :
    ((walk fuel a i v l).map fun c => (1 / 2 : ℚ) ^ c.len).sum = (1 / 2) ^ l := by
  induction fuel generalizing i v l with
  | zero => exact absurd (hi [] i (.here i)).2 (Nat.not_lt_zero _)
  | succ fuel ih =>
    have hv := (hi [] i (.here i)).1
    cases hl : (a.read i).leaf with
    | true => simp [walk_leaf hv hl]
    | false =>
      have hleft := ih (i := (a.read i).left) (fun b j hp => by simpa using hi _ j (.left hv hl hp))
      have hright := ih (i := (a.read i).right) (fun b j hp => by simpa using hi _ j (.right hv hl hp))
      rw [walk_inner hv hl, List.map_append, List.sum_append, hleft, hright, pow_succ]
      ring

/-- Every path of a tree ends at a valid slot. -/
theorem IsTree.valid_of_path {s : State} (h : IsTree s) {i j : NodeId} {b : List Bool}
    (hi : (s.nodeAt i).valid = true) (hp : PathTo s.node i b j) : (s.nodeAt j).valid = true := by
  induction hp with
  | here i => exact hi
  | left hv hl _ ih =>
    obtain ⟨k, hk, rfl⟩ := h.inner_cases hv hl
    obtain ⟨-, -, -, -, hleft, -⟩ := h.inner_slot k hk
    exact ih hleft
  | right hv hl _ ih =>
    obtain ⟨k, hk, rfl⟩ := h.inner_cases hv hl
    obtain ⟨-, -, -, -, -, hright, -⟩ := h.inner_slot k hk
    exact ih hright

/-- The traversal below a node of a tree records no symbol twice. -/
theorem IsTree.walk_nodup {s : State} (h : IsTree s) (fuel : Nat) {i : NodeId} {p : List Bool}
    (hp : PathTo s.node s.root p i) (v l : Nat) : ((walk fuel s.node i v l).map LeafCode.sym).Nodup := by
  induction fuel generalizing i p v l with
  | zero => simp [walk]
  | succ fuel ih =>
    cases hv : (s.node.read i).valid with
    | false => simp [walk, hv]
    | true =>
      cases hl : (s.node.read i).leaf with
      | true => simp [walk_leaf hv hl]
      | false =>
        have hleft := pathTo_append_iff.2 ⟨i, hp, .left hv hl (.here _)⟩
        have hright := pathTo_append_iff.2 ⟨i, hp, .right hv hl (.here _)⟩
        rw [walk_inner hv hl, List.map_append, List.nodup_append']
        refine ⟨ih hleft _ _, ih hright _ _, fun x hx hx' => ?_⟩
        obtain ⟨c, hc, rfl⟩ := List.mem_map.1 hx
        obtain ⟨d, hd, e⟩ := List.mem_map.1 hx'
        obtain ⟨b, hr, -⟩ := (mem_walk fuel).1 hc
        obtain ⟨b', hr', -⟩ := (mem_walk fuel).1 hd
        obtain ⟨x, -, hj, rfl⟩ := h.recordAt_iff.1 hr
        obtain ⟨y, -, hj', rfl⟩ := h.recordAt_iff.1 hr'
        obtain rfl : y = x := e
        have := h.path_unique (pathTo_append_iff.2 ⟨_, hleft, hj⟩) (pathTo_append_iff.2 ⟨_, hright, hj'⟩)
        simp at this

/-- The root of a tree is valid (10_state.md R28). -/
theorem HasTree.root_valid {s : State} (h : HasTree s) (he : s.empty = false) : (s.nodeAt s.root).valid = true := by
  obtain ⟨e, k, hid, hf⟩ := buildTree_forest (h.present_ne_nil he)
  obtain ⟨hnode, hroot, -, -⟩ := h
  rw [State.nodeAt, hnode, hroot, hid]
  exact hf.valid e (List.mem_singleton_self e)

/-- Two symbols or more meet the Kraft equality (42_code_assigner.md R188). -/
theorem kraftSum_codesOf {f : FreqTable} (h2 : 2 ≤ (builtFrom f).nsym.toNat) : kraftSum (codesOf f) = 1 := by
  have ht := builtFrom_hasTree f
  have he := ht.nonempty_of_nsym (by omega)
  have htree := ht.isTree he
  have hpath : ∀ b j, PathTo (builtFrom f).node (builtFrom f).root b j →
      ((builtFrom f).nodeAt j).valid = true ∧ b.length < walkDepth := fun b j hp =>
    ⟨htree.valid_of_path (ht.root_valid he) hp, ht.root_path_length_lt he hp⟩
  calc kraftSum (codesOf f)
      = ((walk walkDepth (builtFrom f).node (builtFrom f).root 0 0).map fun c => (1 / 2 : ℚ) ^ c.len).sum := by
        refine kraftSum_of_records (htree.walk_nodup _ (.here _) _ _) (fun c hc => ?_) fun x hx => ?_
        · obtain ⟨x, b, hx, hp, rfl⟩ := (ht.mem_walk he).1 hc
          have hpos : 0 < (readSym (codesOf f) x).len := codesOf_len_pos_iff.2 hx
          rw [codesOf_of_nonempty he, ht.code_of_path h2 hx hp] at hpos ⊢
          exact ⟨hpos, rfl⟩
        · refine Nat.eq_zero_of_not_pos fun hpos => ?_
          have hx' := codesOf_len_pos_iff.1 hpos
          obtain ⟨b, hb⟩ := ht.exists_path (x := x) hx'
          exact hx (List.mem_map.2 ⟨_, (ht.mem_walk he).2 ⟨x, b, hx', hb, rfl⟩, rfl⟩)
    _ = (1 / 2) ^ 0 := walk_kraft _ hpath _ _
    _ = 1 := pow_zero _

/-- One symbol leaves half the code space unused (42_code_assigner.md R188). -/
theorem kraftSum_codesOf_sole {f : FreqTable} {x : Symbol} (h : present f = [x]) : kraftSum (codesOf f) = 1 / 2 := by
  rw [codesOf_sole h, kraftSum_of_records (codes := [⟨x, 0, 1⟩]) (by simp) (by simp [tableOf]) fun y hy => ?_]
  · simp
  · rw [tableOf_absent (by simpa [eq_comm] using hy)]
    rfl

/-- Settles O44: by the number of symbols counted. -/
theorem codeLengthsMeetKraftEquality : Obligations.CodeLengthsMeetKraftEquality := by
  intro s h hp
  obtain ⟨⟨hnsym, -⟩, hcode⟩ := h.hasCodes hp
  have hn : s.nsym = (builtFrom s.freq).nsym := hnsym
  have hcount : s.nsym.toNat = (present s.freq).length := hnsym ▸ buildTree_nsym s.freq
  have ht := builtFrom_hasTree s.freq
  simp only [State.codeAt, State.freqAt, hcode]
  refine ⟨fun h2 => ⟨kraftSum_codesOf (hn ▸ h2), fun x hx => ?_⟩, fun h1 => ?_, fun h0 x => ?_⟩
  · obtain ⟨hsole, -⟩ | ⟨-, b, hne, hb, e⟩ := codesOf_counted hx
    · simp [hcount, hsole] at h2
    · have hpos := List.length_pos_iff.2 hne
      have hlen := ht.root_path_length_le (ht.nonempty hx) hb
      have hle := ht.nsym_le
      rw [e, hn]
      simp only
      omega
  · obtain ⟨x, hx⟩ := List.length_eq_one_iff.1 (hcount ▸ h1)
    refine ⟨kraftSum_codesOf_sole hx, fun y hy => ?_⟩
    obtain rfl := eq_of_present_sole hx hy
    exact codesOf_sole_len hx
  · rw [codesOf_absent (readSym_of_present_nil (List.length_eq_zero_iff.1 (hcount ▸ h0)) x)]
    rfl

end Sys2Proof.Machine
end

section
/-! PROOFS. Family 42_code_assigner: how heavy a tree with a deep leaf is, and when `ASSIGN` can overflow (R189). -/

namespace Sys2Proof.Machine

/-! ### Siblings -/

theorem IsTree.isMerge {s : State} (h : IsTree s) {k : Nat} (hk : k + 1 < s.nsym.toNat) :
    IsMerge s.node (innerId k) := by
  obtain ⟨hv, hl, hsym, hne, hleft, hright, hw⟩ := h.inner_slot k hk
  exact ⟨hv, hl, hsym, hne, hleft, hright, hw⟩

/-- No node queued after a round weighs less than the heavier of the two that round merged, as no later merge is
lighter (41_tree_builder.md R155). -/
theorem right_le_of_queued {a : Arena} {k j : Nat} {i : NodeId} (hkj : k < j) (hj : j ≤ 256)
    (hm : ∀ l, k ≤ l → l < j → MergesTwoLeast a l ∧ IsMerge a (innerId l)) (hi : Queued a j i) :
    (a.read (a.read (innerId k)).right).weight ≤ (a.read i).weight := by
  induction j, hkj using Nat.le_induction generalizing i with
  | base =>
    obtain ⟨hk, hmerge⟩ := hm k le_rfl (Nat.lt_succ_self k)
    exact hk.right_le hmerge hj hi
  | succ j hkj ih =>
    obtain ⟨⟨hleft, -⟩, hmerge⟩ := hm j (Nat.le_of_succ_le hkj) (Nat.lt_succ_self j)
    have ih {i : NodeId} := ih (i := i) (by omega) fun l hkl hlj => hm l hkl (hlj.trans (Nat.lt_succ_self j))
    rcases queued_succ hi hmerge.valid hmerge.leaf hj with rfl | ⟨hq, -, -⟩
    · rw [hmerge.weight]
      exact (ih hleft).trans (Nat.le_add_right _ _)
    · exact ih hq

section
variable {s : State} (h : HasTree s) (he : s.empty = false)
include h he

/-- A node weighs no less than its sibling's children (42_code_assigner.md R189). -/
theorem HasTree.nephew_le {p i i' g : NodeId} (hi : IsChild s.node i p) (hi' : IsChild s.node i' p)
    (hg : IsChild s.node g i) : (s.nodeAt g).weight ≤ (s.nodeAt i').weight := by
  have ht := h.isTree he
  have hle := h.nsym_le
  have hlt := (h.child_lt he hi).2
  obtain ⟨hpv, hpl, hpc⟩ := id hi'
  obtain ⟨hiv, hil, hgc⟩ := hg
  obtain ⟨k, hk, rfl⟩ := ht.inner_cases hpv hpl
  obtain ⟨j, hj, rfl⟩ := ht.inner_cases hiv hil
  rw [innerId_toNat (by omega), innerId_toNat (by omega)] at hlt
  obtain ⟨hleft, hright, -, -⟩ := h.mergesTwoLeast hk
  have hq : Queued s.node k i' := by
    rcases hpc with rfl | rfl
    exacts [hleft, hright]
  have hr : (s.nodeAt (s.nodeAt (innerId j)).right).weight ≤ (s.nodeAt i').weight :=
    right_le_of_queued (by omega) (by omega)
      (fun l _ hlk => ⟨h.mergesTwoLeast (by omega), ht.isMerge (by omega)⟩) hq
  obtain ⟨-, -, hlr, -⟩ := h.mergesTwoLeast hj
  rcases hgc with rfl | rfl
  · exact hlr.weight_le.trans hr
  · exact hr

/-- Every node of a tree weighs something, as every symbol counted does. -/
theorem HasTree.weight_pos {i : NodeId} (hv : (s.nodeAt i).valid = true) : 0 < (s.nodeAt i).weight := by
  have ht := h.isTree he
  induction hn : i.toNat using Nat.strong_induction_on generalizing i with
  | h n ih =>
    cases hl : (s.nodeAt i).leaf with
    | true =>
      obtain ⟨x, hx, rfl⟩ := ht.leaf_cases hv hl
      rw [ht.leaf_slot x hx]
      exact Nat.pos_of_ne_zero hx
    | false =>
      have hlt := (h.child_lt he (i := (s.nodeAt i).left) ⟨hv, hl, .inl rfl⟩).2
      have hsum := ht.weight_sum hv hl
      obtain ⟨k, hk, rfl⟩ := ht.inner_cases hv hl
      exact hsum ▸ Nat.add_pos_left (ih _ (hn ▸ hlt) (ht.isMerge hk).left_valid rfl) _

end

/-! ### The Fibonacci bound -/

/-- Node `i` weighs as much as a leaf `n` edges below it asks for, and so, one Fibonacci number less, does any weight
that no child of `i` exceeds. -/
structure FibHeavy (a : Arena) (i : NodeId) (n : Nat) : Prop where
  weight : Nat.fib (n + 2) ≤ (a.read i).weight
  bound  : ∀ w, 0 < w → (∀ g, IsChild a g i → (a.read g).weight ≤ w) → Nat.fib (n + 1) ≤ w

section
variable {s : State} (h : HasTree s) (he : s.empty = false)
include h he

/-- The sibling of a node weighs no less than that node's children, so a weight grows from child to parent like a
Fibonacci number (42_code_assigner.md R189). -/
theorem HasTree.fibHeavy_parent {p i i' : NodeId} {n : Nat} (hi : FibHeavy s.node i n) (hc : IsChild s.node i p)
    (hc' : IsChild s.node i' p) (hv' : (s.nodeAt i').valid = true)
    (hw : (s.nodeAt p).weight = (s.nodeAt i).weight + (s.nodeAt i').weight) : FibHeavy s.node p (n + 1) where
  weight := by
    have hsib : Nat.fib (n + 1) ≤ (s.nodeAt i').weight :=
      hi.bound _ (h.weight_pos he hv') fun g hg => h.nephew_le he hc hc' hg
    have hfib : Nat.fib (n + 3) = Nat.fib (n + 1) + Nat.fib (n + 2) := Nat.fib_add_two
    calc Nat.fib (n + 3) ≤ (s.nodeAt i).weight + (s.nodeAt i').weight := by
          rw [hfib, Nat.add_comm]
          exact Nat.add_le_add hi.weight hsib
      _ = (s.nodeAt p).weight := hw.symm
  bound w _ hchild := hi.weight.trans (hchild i hc)

/-- Every node above a leaf is as heavy as the leaf's depth below it asks for. -/
theorem HasTree.fibHeavy {x : Symbol} (hx : s.freqAt x ≠ 0) {i : NodeId} {b : List Bool}
    (hp : PathTo s.node i b (leafId x)) : FibHeavy s.node i b.length := by
  have ht := h.isTree he
  generalize hj : leafId x = j at hp
  induction hp with
  | here i =>
    subst hj
    have hw : (s.node.read (leafId x)).weight = s.freqAt x := by rw [← State.nodeAt, ht.leaf_slot x hx]
    exact ⟨hw ▸ Nat.pos_of_ne_zero hx, fun w hpos _ => hpos⟩
  | left hv hl _ ih =>
    obtain ⟨k, hk, rfl⟩ := ht.inner_cases hv hl
    have hm := ht.isMerge hk
    exact h.fibHeavy_parent he (ih hj) ⟨hv, hl, .inl rfl⟩ ⟨hv, hl, .inr rfl⟩ hm.right_valid hm.weight
  | right hv hl _ ih =>
    obtain ⟨k, hk, rfl⟩ := ht.inner_cases hv hl
    have hm := ht.isMerge hk
    exact h.fibHeavy_parent he (ih hj) ⟨hv, hl, .inr rfl⟩ ⟨hv, hl, .inl rfl⟩ hm.left_valid
      (hm.weight.trans (Nat.add_comm _ _))

end

/-! ### When ASSIGN can overflow -/

/-- 256 counters of at most `m` sum to at most `256 * m`. -/
theorem totalCount_le {f : FreqTable} {m : Nat} (h : ∀ x, readSym f x ≤ m) : totalCount f ≤ 256 * m := by
  refine (List.sum_le_card_nsmul _ m ?_).trans_eq (by simp)
  simpa using h

/-- The root weighs at most 256 full counters (42_code_assigner.md R189). -/
theorem Inv.root_weight_le {s : State} (h : Inv s) (hp : s.phase = .tree) :
    (s.nodeAt s.root).weight ≤ 256 * (2 ^ s.config.freqW - 1) := by
  obtain ⟨hnode, -⟩ := h.hasTree hp
  rw [State.nodeAt, hnode]
  exact (buildTree_weightsLe s.freq s.root).trans (totalCount_le fun x => Nat.le_sub_one_of_lt (h.counts x))

theorem Inv.fib_le_root_weight {s : State} (h : Inv s) (hp : s.phase = .tree) {x : Symbol} (hx : s.freqAt x ≠ 0)
    {b : List Bool} (hb : PathTo s.node s.root b (leafId x)) :
    Nat.fib (b.length + 2) ≤ (s.nodeAt s.root).weight :=
  have ht := h.hasTree hp
  (ht.fibHeavy (ht.nonempty hx) hx hb).weight

/-- At the default parameters no leaf is deeper than 57: `F(60)` exceeds 256 full counters (42_code_assigner.md
R189). -/
theorem Inv.depth_le_of_default {s : State} (h : Inv s) (hp : s.phase = .tree) (hc : s.config = Config.default)
    {x : Symbol} (hx : s.freqAt x ≠ 0) {b : List Bool} (hb : PathTo s.node s.root b (leafId x)) : b.length ≤ 57 := by
  by_contra hlen
  have hroot := h.root_weight_le hp
  have h60 : Nat.fib 60 = 1548008755920 := by norm_num
  have hfib : Nat.fib 60 ≤ 256 * (2 ^ 32 - 1) := by
    calc Nat.fib 60 ≤ Nat.fib (b.length + 2) := Nat.fib_mono (by omega)
      _ ≤ (s.nodeAt s.root).weight := h.fib_le_root_weight hp hx hb
      _ ≤ 256 * (2 ^ 32 - 1) := by simpa [hc, Config.default] using hroot
  omega

/-- Three symbols counted once each, with codes of at most one bit. -/
def threeInOneBit : State :=
  { State.reset with
    config := { Config.default with maxCodeLen := 1 }
    freq := writeSym (writeSym (writeSym FreqTable.cleared 0x61 1) 0x62 1) 0x63 1 }

theorem threeInOneBit_inv : Inv threeInOneBit where
  config := by decide
  counts x := by
    simp only [threeInOneBit, State.freqAt, readSym_writeSym, readSym_freq_cleared, Config.default]
    split_ifs <;> decide
  stream := rfl
  bitlen := by decide
  row := ⟨⟨rfl, rfl⟩, rfl, rfl, rfl, ⟨rfl, rfl, rfl, rfl⟩, rfl⟩

/-- Their tree has a leaf at depth 2. -/
theorem threeInOneBit_overflows : threeInOneBit.build.empty = false ∧
    threeInOneBit.build.config.maxCodeLen < maxDepth threeInOneBit.build.node threeInOneBit.build.root := by
  decide +kernel

/-- Settles O46: by the Fibonacci bound, and three symbols that do not fit in one bit each. -/
theorem deepLeafNeedsFibonacciWeight : Obligations.DeepLeafNeedsFibonacciWeight := by
  refine ⟨fun s x b h hp hx hb => ⟨h.fib_le_root_weight hp hx hb, h.root_weight_le hp, fun hc =>
    h.depth_le_of_default hp hc hx hb⟩, fun s h hp hc => ?_, ?_⟩
  · obtain ⟨t, ht, hready, -⟩ := (codeOverflowEndsTheRun s h hp).2 (by
      rintro ⟨x, b, hx, hb, hdeep⟩
      have hlen := h.depth_le_of_default hp hc hx hb
      have hmax : s.config.maxCodeLen = 64 := by rw [hc, Config.default]
      omega)
    exact ⟨t, ht, hready⟩
  · obtain ⟨he, hd⟩ := threeInOneBit_overflows
    exact ⟨threeInOneBit.build, _, threeInOneBit_inv.build rfl, rfl,
      (exec_assign rfl).trans (congrArg _ (assign_overflows he hd)), rfl⟩

end Sys2Proof.Machine
end

section
/-! PROOFS. Family 43_encoder: a string is recovered from its bits (R222), and `ESTART`, `ENC`, `ELEN` one by one (R211
to R216) and over a whole string (R217). -/

namespace Sys2Proof.Machine

/-! ### Recovering a string -/

/-- At most one code begins a bit string (43_encoder.md R222). -/
theorem IsPrefixFree.symbol_unique {t : CodeTable} (hfree : IsPrefixFree t) {q : List Bool} {x y : Symbol}
    (hx : 0 < (readSym t x).len) (hy : 0 < (readSym t y).len) (hqx : (readSym t x).bits <+: q)
    (hqy : (readSym t y).bits <+: q) : x = y := by
  by_contra hne
  rcases List.prefix_or_prefix_of_prefix hqx hqy with h | h
  · exact hfree x y hne hx hy h
  · exact hfree y x (Ne.symm hne) hy hx h

/-- The code found at the head of a bit string is the one that was put there. -/
theorem IsPrefixFree.firstCode_append {t : CodeTable} (hfree : IsPrefixFree t) {x : Symbol}
    (hx : 0 < (readSym t x).len) (q : List Bool) : firstCode t ((readSym t x).bits ++ q) = some x := by
  have hpre : (readSym t x).bits <+: (readSym t x).bits ++ q := List.prefix_append _ _
  cases hf : firstCode t ((readSym t x).bits ++ q) with
  | none => exact absurd (List.find?_eq_none.1 hf x (mem_allSymbols x)) (by simp [hx])
  | some y =>
    have hy := List.find?_some hf
    simp only [Bool.and_eq_true, decide_eq_true_eq, List.isPrefixOf_iff_prefix] at hy
    obtain ⟨hlen, hqy⟩ := hy
    rw [hfree.symbol_unique hx hlen hpre hqy]

theorem decodeString_nil (t : CodeTable) (fuel : Nat) : decodeString t fuel [] = some [] := by
  cases fuel <;> rfl

theorem decodeString_succ (t : CodeTable) (fuel : Nat) {q : List Bool} (hq : q ≠ []) :
    decodeString t (fuel + 1) q =
      (firstCode t q).bind fun x => (decodeString t fuel (q.drop (readSym t x).len)).map (x :: ·) := by
  cases q with
  | nil => exact absurd rfl hq
  | cons c q =>
    rw [decodeString]
    · cases firstCode t (c :: q) <;> rfl
    · simp

/-- One round of decoding removes the code of one byte. -/
theorem IsPrefixFree.decodeString_append {t : CodeTable} (hfree : IsPrefixFree t) {x : Symbol}
    (hx : 0 < (readSym t x).len) (fuel : Nat) (q : List Bool) :
    decodeString t (fuel + 1) ((readSym t x).bits ++ q) = (decodeString t fuel q).map (x :: ·) := by
  have hne : (readSym t x).bits ++ q ≠ [] := by
    rw [← List.length_pos_iff, List.length_append, bits_length]
    omega
  rw [decodeString_succ t fuel hne, hfree.firstCode_append hx, Option.bind_some, List.drop_left' (bits_length _)]

theorem encodeString_cons (t : CodeTable) (b : Symbol) (bs : List Symbol) :
    encodeString t (b :: bs) = (readSym t b).bits ++ encodeString t bs := rfl

/-- A string of bytes with codes is recovered from its bits, given a round for each byte (43_encoder.md R222). -/
theorem IsPrefixFree.decodeString_encodeString {t : CodeTable} (hfree : IsPrefixFree t) (bytes : List Symbol)
    (hcoded : ∀ b ∈ bytes, 0 < (readSym t b).len) {fuel : Nat} (hfuel : bytes.length ≤ fuel) :
    decodeString t fuel (encodeString t bytes) = some bytes := by
  induction bytes generalizing fuel with
  | nil => exact decodeString_nil t fuel
  | cons b bs ih =>
    obtain ⟨hb, hbs⟩ := List.forall_mem_cons.1 hcoded
    obtain ⟨fuel, rfl⟩ := Nat.exists_eq_add_of_le' (Nat.le_of_add_left_le hfuel)
    rw [encodeString_cons, hfree.decodeString_append hb, ih hbs (Nat.le_of_succ_le_succ hfuel)]
    rfl

/-- Settles O51: no code begins another, so decoding undoes encoding. -/
theorem streamDecodesUniquely : Obligations.StreamDecodesUniquely := by
  intro s h hp
  have hfree : IsPrefixFree s.code := (codesArePrefixFree s h hp).1
  refine ⟨fun q x y => hfree.symbol_unique, fun bytes hb => hfree.decodeString_encodeString bytes hb le_rfl,
    fun bytes bytes' hb hb' he => ?_⟩
  have hd := hfree.decodeString_encodeString bytes hb (le_max_left _ bytes'.length)
  rw [he, hfree.decodeString_encodeString bytes' hb' (le_max_right _ _)] at hd
  exact (Option.some.inj hd).symm

/-! ### One command -/

/-- `ESTART` in phase `READY` (43_encoder.md R211). -/
theorem exec_estart {s : State} (hp : s.phase = .ready) : exec .estart s = .next s.startString :=
  exec_legal rfl (by simp [legalIn, hp])

/-- `ENC` in phase `READY` (43_encoder.md R212). -/
theorem exec_enc {s : State} (hp : s.phase = .ready) (x : Symbol) : exec (.enc x) s = .next (s.encodeByte x) :=
  exec_legal rfl (by simp [legalIn, hp])

/-- `ELEN` in phase `READY` (43_encoder.md R216). -/
theorem exec_elen {s : State} (hp : s.phase = .ready) :
    exec .elen s = .next (s.respond s.elenStatus s.bitlen (BitVec.ofNat 32 (byteLen s.bitlen))) :=
  exec_legal rfl (by simp [legalIn, hp])

/-- A symbol without a code (43_encoder.md R213). -/
theorem encodeByte_uncoded {s : State} {x : Symbol} (h0 : (s.codeAt x).len = 0) :
    s.encodeByte x = { s with unk := true }.raise .errUnknownSymbol := by
  simp [State.encodeByte, h0]

/-- A code that would take `BITLEN` above its limit (43_encoder.md R214). -/
theorem encodeByte_overflows {s : State} {x : Symbol} (h0 : 0 < (s.codeAt x).len)
    (hover : s.config.maxBitlen < s.bitlen + (s.codeAt x).len) :
    s.encodeByte x = { s with lovf := true }.raise .errLenOverflow := by
  simp [State.encodeByte, h0.ne', hover]

/-- A code within the limit (43_encoder.md R212). -/
theorem encodeByte_emits {s : State} {x : Symbol} (h0 : 0 < (s.codeAt x).len)
    (hfit : s.bitlen + (s.codeAt x).len ≤ s.config.maxBitlen) :
    s.encodeByte x = (s.emit (s.codeAt x)).respond .ok (s.codeAt x).val (BitVec.ofNat 32 (s.codeAt x).len) := by
  simp [State.encodeByte, h0.ne', hfit.not_gt]

/-- The bits of a code by their numbers, most significant first (43_encoder.md R215). -/
theorem bits_eq_map_range (e : CodeEntry) :
    e.bits = (List.range e.len).map fun j => e.val.testBit (e.len - 1 - j) :=
  List.ext_getElem (by simp) fun j h _ => by simp [CodeEntry.bits, msbFirst_getElem]

theorem encode_enc_toNat (x : Symbol) : (encode (.enc x)).toNat = 0x6000 + x.toNat := by
  rw [encode_toNat_of_symbol (x := x) rfl, opcodeOf, BitVec.toNat_ofNat]

/-- `ELEN`'s status is formed with `UNK` before `LOVF` (43_encoder.md R216). -/
theorem elenStatus_eq (s : State) :
    s.elenStatus = match s.unk, s.lovf with
      | true, _ => .errUnknownSymbol
      | false, true => .errLenOverflow
      | false, false => .ok := by
  unfold State.elenStatus
  cases s.unk <;> cases s.lovf <;> rfl

/-- `BYTELEN` is `BITLEN / 8` rounded up (20_memory.md R85). -/
theorem byteLen_eq_ceil (n : Nat) : byteLen n = ⌈(n : ℚ) / 8⌉₊ := by
  refine eq_of_forall_ge_iff fun c => ?_
  rw [Nat.ceil_le, div_le_iff₀ (by norm_num), byteLen]
  norm_cast
  omega

/-- `BITLEN` has at most 32 bits, so `BYTELEN` has at most 30. -/
theorem Inv.byteLen_le {s : State} (h : Inv s) : byteLen s.bitlen ≤ 2 ^ 29 := by
  obtain ⟨-, -, -, hw⟩ := h.config
  have hlt : s.bitlen < 2 ^ 32 := h.bitlen.trans_le (Nat.pow_le_pow_right Nat.two_pos hw)
  rw [byteLen]
  omega

/-- Settles O47: by the phase gate. -/
theorem estartClearsString : Obligations.EstartClearsString :=
  ⟨by decide, fun _ => exec_estart, fun _ hp => exec_refused rfl (by simpa [legalIn] using hp)⟩

/-- Settles O48: by the phase gate and the three cases of `ENC`'s work. -/
theorem encAppendsCode : Obligations.EncAppendsCode := by
  refine ⟨encode_enc_toNat, ?_⟩
  rintro x s _ _ rfl rfl
  refine ⟨fun hp h0 => ?_, fun hp h0 hover => ?_, fun hp h0 hfit => ?_,
    fun hp => exec_refused rfl (by simpa [legalIn] using hp)⟩
  · exact (exec_enc hp x).trans (congrArg _ (encodeByte_uncoded h0))
  · exact (exec_enc hp x).trans (congrArg _ (encodeByte_overflows h0 hover))
  · rw [exec_enc hp, encodeByte_emits h0 hfit, ← bits_eq_map_range]
    rfl

/-- Settles O49: by the phase gate; the bound on `BITLEN` bounds its bytes. -/
theorem elenReadsLengths : Obligations.ElenReadsLengths := by
  refine ⟨by decide, fun s hp => ?_, fun s h => ⟨?_, h.byteLen_le⟩,
    fun s hp => exec_refused rfl (by simpa [legalIn] using hp)⟩
  · rw [exec_elen hp, elenStatus_eq]
    rfl
  · have hle := h.byteLen_le
    rw [← byteLen_eq_ceil, byteLen, BitVec.toNat_ofNat]
    rw [byteLen] at hle
    omega

/-! ### A string of bytes with codes -/

theorem execAll_append {is : List Instr} {s t : State} (h : execAll is s = .next t) (js : List Instr) :
    execAll (is ++ js) s = execAll js t := by
  induction is generalizing s with
  | nil =>
    obtain rfl : s = t := Host.Outcome.next.inj h
    rfl
  | cons i is ih =>
    obtain ⟨u, -, hu, -⟩ := exec_answered i s
    rw [execAll_cons hu] at h
    rw [List.cons_append, execAll_cons hu, ih h]

theorem encodeString_append (t : CodeTable) (bs cs : List Symbol) :
    encodeString t (bs ++ cs) = encodeString t bs ++ encodeString t cs := List.flatMap_append

theorem stringLen_append (t : CodeTable) (bs cs : List Symbol) :
    stringLen t (bs ++ cs) = stringLen t bs + stringLen t cs := by
  simp [stringLen]

/-- The answer to an `ENC` whose code goes out (43_encoder.md R212). -/
def State.codeResponse (s : State) (b : Symbol) : Response :=
  ⟨.ok, (s.codeAt b).val, BitVec.ofNat 32 (s.codeAt b).len⟩

/-- The state after the codes of `bytes` have all gone out, each with its answer (43_encoder.md R217). -/
def State.emitString (s : State) (bytes : List Symbol) : State :=
  { s with
    bitlen := s.bitlen + stringLen s.code bytes
    ostream := s.ostream ++ encodeString s.code bytes
    outbox := s.outbox ++ bytes.map s.codeResponse }

theorem emitString_nil (s : State) : s.emitString [] = s := by
  simp [State.emitString, stringLen, encodeString]

theorem emitString_emitString (s : State) (bs cs : List Symbol) :
    (s.emitString bs).emitString cs = s.emitString (bs ++ cs) := by
  simp [State.emitString, stringLen_append, encodeString_append, Nat.add_assoc, State.codeResponse, State.codeAt]

/-- One code that goes out is a string of one byte. -/
theorem encodeByte_eq_emitString {s : State} {b : Symbol} (h0 : 0 < (s.codeAt b).len)
    (hfit : s.bitlen + (s.codeAt b).len ≤ s.config.maxBitlen) : s.encodeByte b = s.emitString [b] := by
  rw [encodeByte_emits h0 hfit]
  simp [State.emitString, State.emit, State.respond, State.codeResponse, stringLen, encodeString, State.codeAt]

/-- `ENC` commands for bytes with codes, all within the limit. -/
theorem execAll_enc_coded (bytes : List Symbol) {s : State} (hp : s.phase = .ready)
    (hcoded : ∀ b ∈ bytes, 0 < (s.codeAt b).len) (hfit : s.bitlen + stringLen s.code bytes ≤ s.config.maxBitlen) :
    execAll (bytes.map .enc) s = .next (s.emitString bytes) := by
  induction bytes generalizing s with
  | nil => exact congrArg _ (emitString_nil s).symm
  | cons b bs ih =>
    obtain ⟨hb, hbs⟩ := List.forall_mem_cons.1 hcoded
    rw [← List.singleton_append, stringLen_append, ← Nat.add_assoc] at hfit
    rw [List.map_cons, execAll_cons (exec_enc hp b), encodeByte_eq_emitString hb (Nat.le_of_add_right_le hfit),
      ih (s := s.emitString [b]) hp hbs hfit, emitString_emitString, List.singleton_append]

/-! ### Any string -/

/-- The bytes whose `ENC` answered `OK` (43_encoder.md R217). -/
def okBytes (bytes : List Symbol) (rs : List Response) : List Symbol :=
  ((bytes.zip rs).filter fun p => p.2.st = .ok).map Prod.fst

/-- `ENC` commands for `bytes`, answered by `rs`, lead from `s` to `t`: the codes that went out are those of the bytes
answered `OK`, and the flags record the other answers (43_encoder.md R217). -/
structure Encoded (bytes : List Symbol) (rs : List Response) (s t : State) : Prop where
  phase   : t.phase = s.phase
  code    : t.code = s.code
  length  : rs.length = bytes.length
  outbox  : t.outbox = s.outbox ++ rs
  ostream : t.ostream = s.ostream ++ encodeString s.code (okBytes bytes rs)
  bitlen  : t.bitlen = s.bitlen + stringLen s.code (okBytes bytes rs)
  unk     : t.unk = true ↔ s.unk = true ∨ ∃ r ∈ rs, r.st = .errUnknownSymbol
  lovf    : t.lovf = true ↔ s.lovf = true ∨ ∃ r ∈ rs, r.st = .errLenOverflow

theorem encoded_nil (s : State) : Encoded [] [] s s := by
  constructor <;> simp [okBytes, encodeString, stringLen]

/-- One `ENC`, by the cases of its work. -/
theorem encodeByte_encoded (s : State) (x : Symbol) : ∃ r, Encoded [x] [r] s (s.encodeByte x) := by
  rcases encodeByte_cases s x with ⟨-, e⟩ | ⟨-, -, e⟩ | ⟨-, -, e⟩ <;> rw [e]
  · exact ⟨⟨.errUnknownSymbol, 0, 0⟩, by constructor <;> simp [okBytes, encodeString, stringLen]⟩
  · exact ⟨⟨.errLenOverflow, 0, 0⟩, by constructor <;> simp [okBytes, encodeString, stringLen]⟩
  · exact ⟨s.codeResponse x, by
      constructor <;> simp [okBytes, encodeString, stringLen, State.codeResponse, State.codeAt]⟩

/-- Strings encoded one after the other are one string encoded. -/
theorem Encoded.trans {bytes bytes' : List Symbol} {rs rs' : List Response} {s t u : State} (h : Encoded bytes rs s t)
    (k : Encoded bytes' rs' t u) : Encoded (bytes ++ bytes') (rs ++ rs') s u := by
  have hok : okBytes (bytes ++ bytes') (rs ++ rs') = okBytes bytes rs ++ okBytes bytes' rs' := by
    simp [okBytes, List.zip_append h.length.symm]
  constructor
  case phase => exact k.phase.trans h.phase
  case code => exact k.code.trans h.code
  case length => simp [h.length, k.length]
  case outbox => simp [h.outbox, k.outbox]
  case ostream => simp [k.ostream, h.ostream, h.code, hok, encodeString_append]
  case bitlen => simp [k.bitlen, h.bitlen, h.code, hok, stringLen_append, Nat.add_assoc]
  case unk => simp only [k.unk, h.unk, List.mem_append, or_and_right, exists_or, or_assoc]
  case lovf => simp only [k.lovf, h.lovf, List.mem_append, or_and_right, exists_or, or_assoc]

/-- `ENC` commands for any bytes. -/
theorem execAll_enc_encoded (bytes : List Symbol) {s : State} (hp : s.phase = .ready) :
    ∃ t rs, execAll (bytes.map .enc) s = .next t ∧ Encoded bytes rs s t := by
  induction bytes generalizing s with
  | nil => exact ⟨s, [], rfl, encoded_nil s⟩
  | cons b bs ih =>
    obtain ⟨r, hr⟩ := encodeByte_encoded s b
    obtain ⟨t, rs, ht, hrs⟩ := ih (hr.phase.trans hp)
    exact ⟨t, r :: rs, (execAll_cons (exec_enc hp b) _).trans ht, hr.trans hrs⟩

/-- Settles O50: `ESTART` clears the string, so what the `ENC`s append is all there is. -/
theorem stringResultIsConcatenation : Obligations.StringResultIsConcatenation := by
  refine ⟨fun s bytes hp hcoded hfit => ?_, fun s bytes hp => ?_⟩
  · have henc : execAll (bytes.map .enc) s.startString = .next (s.startString.emitString bytes) :=
      execAll_enc_coded bytes hp hcoded ((Nat.zero_add _).trans_le hfit)
    rw [Pseudo.expand, List.cons_append, execAll_cons (exec_estart hp), execAll_append henc,
      execAll_cons (exec_elen (s := s.startString.emitString bytes) hp), execAll]
    simp [State.emitString, State.startString, State.respond, State.elenStatus, byteLen, State.codeResponse,
      State.codeAt]
  · obtain ⟨t, rs, ht, he⟩ := execAll_enc_encoded bytes (s := s.startString) hp
    obtain ⟨-, -, hlen, hout, hstream, hbits, hunk, hlovf⟩ := he
    refine ⟨t, rs, (execAll_cons (exec_estart hp) _).trans ht, hout, hlen, hstream, ?_, ?_, ?_⟩
    · exact hbits.trans (Nat.zero_add _)
    · simpa [State.startString] using hunk
    · simpa [State.startString] using hlovf

end Sys2Proof.Machine
end

section
/-! PROOFS. Family 44_control_status: the canonical run from any state (R245), the phase table (R243), the transitions of
`PHASE` (R244), `CLR` (R240) and `QSTAT` (R241). -/

namespace Sys2Proof.Machine

/-! ### What a sequence of commands keeps -/

/-- What each command keeps, a sequence of commands keeps. -/
theorem execAll_keeps {P : State → Prop} (hstep : ∀ {i s t}, exec i s = .next t → P s → P t) {is : List Instr}
    {s t : State} (h : execAll is s = .next t) (hs : P s) : P t := by
  induction is generalizing s with
  | nil =>
    obtain rfl : s = t := Host.Outcome.next.inj h
    exact hs
  | cons i is ih =>
    obtain ⟨u, -, hu, -⟩ := exec_answered i s
    rw [execAll_cons hu] at h
    exact ih h (hstep hu hs)

theorem Inv.execAll {is : List Instr} {s t : State} (h : Inv s) (ht : execAll is s = .next t) : Inv t :=
  execAll_keeps (fun hu hs => hs.exec hu) ht h

/-- No sequence of commands writes the parameters. -/
theorem execAll_config {is : List Instr} {s t : State} (ht : execAll is s = .next t) : t.config = s.config :=
  execAll_keeps (P := fun u => u.config = s.config) (fun hu hs => (exec_writesListed hu).config.trans hs) ht rfl

/-! ### The canonical run up to phase READY -/

/-- With room for every byte no `CNT` overflows, so phase `COUNT` goes on (44_control_status.md R244). -/
theorem execAll_cnt_phase (bytes : List Symbol) {s t : State} (hp : s.phase = .count)
    (hroom : ∀ x, s.freqAt x + bytes.count x ≤ s.config.maxCount) (ht : execAll (bytes.map .cnt) s = .next t) :
    t.phase = .count := by
  induction bytes using List.reverseRecOn generalizing t with
  | nil =>
    obtain rfl : s = t := Host.Outcome.next.inj ht
    exact hp
  | append_singleton bs b ih =>
    simp only [List.count_append] at hroom
    have hbs (x : Symbol) : s.freqAt x + bs.count x ≤ s.config.maxCount := by
      have := hroom x
      omega
    obtain ⟨u, hu, hf⟩ := execAll_cnt bs hp hbs
    have hlast : u.freqAt b ≠ u.config.maxCount := by
      have := hroom b
      rw [List.count_singleton_self] at this
      rw [hf, execAll_config hu]
      omega
    have hup : u.phase = .count := ih hbs hu
    rw [List.map_append, execAll_append hu, List.map_singleton, execAll_cons (exec_cnt_counts hup hlast)] at ht
    obtain rfl := Host.Outcome.next.inj ht
    exact hup

/-- At the default parameters `BUILD` and `ASSIGN` lead from phase `COUNT` to phase `READY`, whatever was counted, and
keep the counters (42_code_assigner.md R189). -/
theorem execAll_make {s : State} (h : Inv s) (hp : s.phase = .count) (hc : s.config = Config.default) :
    ∃ t, execAll Pseudo.make.expand s = .next t ∧ t.phase = .ready ∧ t.freq = s.freq := by
  have hbuild := exec_build hp
  obtain ⟨t, ht, hready⟩ := deepLeafNeedsFibonacciWeight.2.1 s.build (h.exec hbuild) rfl hc
  refine ⟨t, (execAll_cons hbuild _).trans (execAll_cons ht _), hready, ?_⟩
  by_contra hf
  simpa using (exec_writesListed ht).freq hf

/-- The canonical run before its string: from any state it counts the bytes from zero and ends in phase `READY`
(44_control_status.md R245). -/
theorem execAll_clr_cnt_make (bytes : List Symbol) {s : State} (hc : s.config = Config.default)
    (hcount : ∀ x, bytes.count x ≤ 2 ^ 32 - 1) :
    ∃ t, execAll (.clr :: bytes.map .cnt ++ Pseudo.make.expand) s = .next t ∧ Inv t ∧ t.phase = .ready ∧
      t.config = Config.default ∧ ∀ x, t.freqAt x = bytes.count x := by
  have hclr := exec_clr s
  have hinv : Inv (s.clear.respond .ok 0 0) := (clear_inv (hc ▸ by decide)).respond _ _ _
  have hzero (x : Symbol) : (s.clear.respond .ok 0 0).freqAt x = 0 := readSym_freq_cleared x
  have hroom (x : Symbol) : (s.clear.respond .ok 0 0).freqAt x + bytes.count x ≤
      (s.clear.respond .ok 0 0).config.maxCount := by
    rw [hzero, Nat.zero_add]
    simpa [hc, Config.maxCount, Config.default] using hcount x
  obtain ⟨u, hu, hfreq⟩ := execAll_cnt bytes rfl hroom
  have huc : u.config = Config.default := (execAll_config hu).trans hc
  obtain ⟨t, ht, hready, hkept⟩ := execAll_make (hinv.execAll hu) (execAll_cnt_phase bytes rfl hroom hu) huc
  refine ⟨t, ?_, (hinv.execAll hu).execAll ht, hready, (execAll_config ht).trans huc, fun x => ?_⟩
  · rw [List.cons_append, execAll_cons hclr, execAll_append hu, ht]
  · rw [State.freqAt, hkept, ← State.freqAt, hfreq, hzero, Nat.zero_add]

/-! ### The string of the canonical run -/

/-- With counters of at most 32 bits no code is longer than 57 (42_code_assigner.md R189). -/
theorem codesOf_len_le {f : FreqTable} (hf : ∀ x, readSym f x < 2 ^ 32) (x : Symbol) :
    (readSym (codesOf f) x).len ≤ 57 := by
  by_cases hx : readSym f x = 0
  · simp [codesOf_absent hx, CodeEntry.zero]
  · obtain ⟨-, e⟩ | ⟨-, b, -, hb, e⟩ := codesOf_counted hx <;> rw [e]
    · decide
    · have hlegal : Config.default.Legal := by decide
      have hinv : Inv { State.reset with freq := f } :=
        ⟨hlegal, hf, rfl, Nat.two_pow_pos _, ⟨rfl, rfl⟩, rfl, rfl, rfl, ⟨rfl, rfl, rfl, rfl⟩, rfl⟩
      exact (hinv.build rfl).depth_le_of_default rfl rfl hx hb

theorem stringLen_le {t : CodeTable} {m : Nat} (h : ∀ x, (readSym t x).len ≤ m) (bytes : List Symbol) :
    stringLen t bytes ≤ m * bytes.length := by
  refine (List.sum_le_card_nsmul _ m ?_).trans_eq (by simp [Nat.mul_comm])
  simpa using fun x _ => h x

theorem encodeString_length (t : CodeTable) (bytes : List Symbol) :
    (encodeString t bytes).length = stringLen t bytes := by
  simp [encodeString, stringLen, List.length_flatMap]

/-- Settles O57: every byte of the string was counted, so it has a code, of at most 57 bits; the string then fits and
decodes, as no code begins another. -/
theorem canonicalRunDecodes : Obligations.CanonicalRunDecodes := by
  intro s strings e hc he hcount hlen
  obtain ⟨t, ht, hinv, hready, htc, hfreq⟩ := execAll_clr_cnt_make strings.flatten hc hcount
  have hcode : t.code = codesOf t.freq := (hinv.hasCodes hready).2
  have hcoded : ∀ b ∈ e, 0 < (t.codeAt b).len := fun b hb => by
    have hpos : 0 < strings.flatten.count b := List.count_pos_iff.2 (List.mem_flatten_of_mem he hb)
    rw [State.codeAt, hcode]
    exact codesOf_len_pos_iff.2 ((hfreq b).trans_ne hpos.ne')
  have hfit : stringLen t.code e ≤ 2 ^ t.config.bitlenW - 1 := by
    have hsmall (x : Symbol) : readSym t.freq x < 2 ^ 32 := by
      simpa [htc, Config.default, State.freqAt] using hinv.counts x
    calc stringLen t.code e ≤ 57 * e.length := hcode ▸ stringLen_le (codesOf_len_le hsmall) e
      _ ≤ 2 ^ t.config.bitlenW - 1 := by simpa [htc, Config.default] using hlen
  refine ⟨_, (execAll_append (by simpa [Pseudo.expand, List.map_flatten, List.flatMap_def] using ht) _).trans
    (stringResultIsConcatenation.1 t e hready hcoded hfit), hready, (encodeString_length t.code e).symm,
    List.getLast?_concat, ?_⟩
  have hfree : IsPrefixFree t.code := hcode ▸ codesOf_prefixFree t.freq
  exact hfree.decodeString_encodeString e hcoded le_rfl

/-! ### CLR and QSTAT -/

/-- Settles O11: clearing gives every element its reset value. -/
theorem clrStartsNewRun : Obligations.ClrStartsNewRun :=
  ⟨by decide, exec_clr⟩

/-- The status word by its numbers (10_state.md R39). -/
theorem statusWord_eq_ofNat (s : State) :
    s.statusWord = BitVec.ofNat 32 (s.phase.bits.toNat + 2 ^ 2 * s.empty.toNat + 2 ^ 3 * s.unk.toNat +
      2 ^ 4 * s.lovf.toNat + 2 ^ 5 * s.fcode.bits.toNat + 2 ^ 8 * s.nsym.toNat + 2 ^ 17 * s.root.toNat) := by
  apply BitVec.eq_of_toNat_eq
  have hphase := s.phase.bits.isLt
  have hempty := s.empty.toNat_lt
  have hunk := s.unk.toNat_lt
  have hlovf := s.lovf.toNat_lt
  have hfcode := s.fcode.bits.isLt
  have hnsym := s.nsym.isLt
  have hroot := s.root.isLt
  simp only [State.statusWord, flagBit, toNat_append_eq, BitVec.toNat_ofBool, BitVec.toNat_ofNat]
  omega

/-- `QSTAT` is legal in every phase (44_control_status.md R241). -/
theorem exec_qstat (s : State) : exec .qstat s = .next (s.respond .ok 0 s.statusWord) := rfl

/-- Settles O53: through the status word's numbers, phase by phase and fault code by fault code. -/
theorem qstatReadsStatus : Obligations.QstatReadsStatus := by
  refine ⟨by decide, fun s => ?_, by decide⟩
  have hphase : s.phase.bits.toNat = match s.phase with | .count => 0 | .tree => 1 | .ready => 2 | .fault => 3 := by
    cases s.phase <;> rfl
  have hfcode : s.fcode.bits.toNat = match s.fcode with | .none => 0 | .codeOverflow => 1 | .countOverflow => 2 := by
    cases s.fcode <;> rfl
  rw [exec_qstat, statusWord_eq_ofNat, hphase, hfcode]
  rfl

/-! ### The phase table -/

/-- A command that is executed answers neither of the two refusals (44_control_status.md R243). -/
theorem effect_not_refused (i : Instr) (s : State) :
    ∃ r, (effect i s).outbox = s.outbox ++ [r] ∧ r.st ≠ .errPhase ∧ r.st ≠ .errIllegal := by
  cases i with
  | clr | estart | qfreq _ | qnode _ | qcode _ | qstat => exact ⟨_, rfl, by simp⟩
  | elen =>
    refine ⟨_, rfl, ?_⟩
    simp only [State.elenStatus]
    split_ifs <;> simp
  | build =>
    refine ⟨⟨if (buildTree s.freq).empty then .empty else .ok, 0, 0⟩, rfl, ?_⟩
    simp only
    split_ifs <;> simp
  | cnt x =>
    simp only [effect]
    rcases countByte_cases s x with ⟨-, e⟩ | ⟨-, e⟩ <;> rw [e] <;> exact ⟨_, rfl, by simp⟩
  | assign =>
    simp only [effect]
    rcases assign_cases s with ⟨-, e⟩ | ⟨-, -, e⟩ | ⟨-, -, e⟩ <;> rw [e] <;> exact ⟨_, rfl, by simp⟩
  | enc x =>
    simp only [effect]
    rcases encodeByte_cases s x with ⟨-, e⟩ | ⟨-, -, e⟩ | ⟨-, -, e⟩ <;> rw [e] <;> exact ⟨_, rfl, by simp⟩

/-- Settles O8: the marks of the table are the phases the gate lets through. -/
theorem commandsOutOfPhaseAreRefused : Obligations.CommandsOutOfPhaseAreRefused := by
  intro i s hw marked
  have hmarked : marked ↔ legalIn i s.phase = true := by cases i <;> simp [marked, legalIn]
  refine ⟨fun hm => exec_refused hw (by simpa [hmarked] using hm), fun hm => ?_⟩
  obtain ⟨r, ho, hr, -⟩ := effect_not_refused i s
  exact ⟨_, r, exec_legal hw (hmarked.1 hm), ho, hr⟩

/-! ### The transitions of PHASE -/

/-- `CNT` in phase `COUNT`: answered `OK` it stays there, and otherwise it enters phase `FAULT`. -/
theorem countByte_phase {s : State} (hp : s.phase = .count) (x : Symbol) :
    ((s.countByte x).outbox = s.outbox ++ [⟨.ok, 0, 0⟩] ∧ (s.countByte x).phase = .count) ∨
    ((s.countByte x).outbox = s.outbox ++ [⟨.errCountOverflow, 0, 0⟩] ∧ (s.countByte x).phase = .fault ∧
      (s.countByte x).fcode = .countOverflow) := by
  rcases countByte_cases s x with ⟨-, e⟩ | ⟨-, e⟩ <;> rw [e]
  · exact .inr ⟨rfl, rfl, rfl⟩
  · exact .inl ⟨rfl, hp⟩

/-- `ASSIGN`: answered `OK` or `EMPTY` it enters phase `READY`, and otherwise phase `FAULT`. -/
theorem assign_phase (s : State) :
    ((s.assign.outbox = s.outbox ++ [⟨.ok, 0, 0⟩] ∨ s.assign.outbox = s.outbox ++ [⟨.empty, 0, 0⟩]) ∧
      s.assign.phase = .ready) ∨
    (s.assign.outbox = s.outbox ++ [⟨.errCodeOverflow, 0, 0⟩] ∧ s.assign.phase = .fault ∧
      s.assign.fcode = .codeOverflow) := by
  rcases assign_cases s with ⟨-, e⟩ | ⟨-, -, e⟩ | ⟨-, -, e⟩ <;> rw [e]
  · exact .inl ⟨.inr rfl, rfl⟩
  · exact .inr ⟨rfl, rfl, rfl⟩
  · exact .inl ⟨.inl rfl, rfl⟩

theorem build_answer (s : State) :
    s.build.outbox = s.outbox ++ [⟨.ok, 0, 0⟩] ∨ s.build.outbox = s.outbox ++ [⟨.empty, 0, 0⟩] := by
  cases he : (buildTree s.freq).empty <;> simp [State.build, he]

/-- A command that changes `PHASE` was executed in a phase where it is legal. -/
theorem exec_of_phase_ne {i : Instr} {s t : State} (h : exec i s = .next t) (hne : t.phase ≠ s.phase) :
    legalIn i s.phase = true ∧ t = effect i s := by
  rcases exec_cases h with ⟨-, hl, e⟩ | ⟨-, -, rfl⟩ | ⟨-, rfl⟩
  · exact ⟨hl, e⟩
  · exact absurd rfl hne
  · exact absurd rfl hne

/-- So does a word, which is that command's. -/
theorem acceptWord_of_phase_ne {w : CmdWord} {s t : State} (h : acceptWord w s = .next t) (hne : t.phase ≠ s.phase) :
    ∃ i, w = encode i ∧ exec i s = .next t := by
  rcases acceptWord_cases w s with ⟨i, hd, e⟩ | ⟨_, -, e⟩ <;> rw [e] at h
  · exact ⟨i, (encode_of_decodeWord hd).symm, h⟩
  · cases h
    exact absurd rfl hne

/-- A step on the word of a command that is legal does the command's work. -/
theorem step_legal {s : State} {i : Instr} {rest : List HostEvent} (hin : s.inbox = .command (encode i) :: rest)
    (hw : i.wellFormed = true) (hl : legalIn i s.phase = true) : step s = .next (effect i s.pop) := by
  rw [step_command hin, acceptWord_instr (decodeWord_encode hw)]
  exact exec_legal hw hl

/-- Settles O13: only `CLR`, `CNT`, `BUILD`, `ASSIGN` write `PHASE` (10_state.md R20), each as its work says. -/
theorem phaseChangesOnlyAsListed : Obligations.PhaseChangesOnlyAsListed := by
  refine ⟨fun s t hstep hne => ?_, fun s rest => ⟨?_, ?_, ?_, ?_⟩⟩
  · obtain ⟨u, hu, hcases⟩ := step_next s
    obtain rfl : t = u := Host.Outcome.next.inj (hstep.symm.trans hu)
    rcases hcases with ⟨-, rfl⟩ | ⟨rest, hin, rfl⟩ | ⟨w, rest, hin, hacc⟩
    · exact absurd rfl hne
    · exact .inl ⟨rest, .inl hin, rfl⟩
    · obtain ⟨i, rfl, hexec⟩ := acceptWord_of_phase_ne hacc hne
      obtain ⟨hl, rfl⟩ := exec_of_phase_ne hexec hne
      rcases (exec_writesListed hexec).phase hne with rfl | rfl | rfl | ⟨x, rfl⟩
      · exact .inl ⟨rest, .inr hin, rfl⟩
      · exact .inr (.inr (.inl ⟨rest, hin, by simpa [legalIn] using hl, rfl⟩))
      · have hp : s.phase = .tree := by simpa [legalIn] using hl
        rcases assign_phase s.pop with ⟨ho, hready⟩ | ⟨ho, hfault, hcode⟩
        · exact .inr (.inr (.inr (.inl ⟨rest, hin, hp, hready, ho⟩)))
        · exact .inr (.inr (.inr (.inr ⟨rest, hin, hp, hfault, hcode, ho⟩)))
      · have hp : s.phase = .count := by simpa [legalIn] using hl
        rcases countByte_phase (s := s.pop) hp x with ⟨-, hcount⟩ | ⟨ho, hfault, hcode⟩
        · exact absurd (hcount.trans hp.symm) hne
        · exact .inr (.inl ⟨x, rest, hin, hp, hfault, hcode, ho⟩)
  · rintro (hin | hin)
    · exact ⟨_, step_reset hin, rfl⟩
    · exact ⟨_, step_legal (i := .clr) hin rfl rfl, rfl⟩
  · intro x hin hp
    exact ⟨_, step_legal hin rfl (by simp [legalIn, hp]), countByte_phase (s := s.pop) hp x⟩
  · intro hin hp
    exact ⟨_, step_legal (i := .build) hin rfl (by simp [legalIn, hp]), rfl, build_answer s.pop⟩
  · intro hin hp
    exact ⟨_, step_legal (i := .assign) hin rfl (by simp [legalIn, hp]), assign_phase s.pop⟩

end Sys2Proof.Machine
end

section
/-! PROOFS. Family 60_exceptions: the order of the checks (R263), refusals (R262), and the ways out of phase `FAULT`
(R265). -/

namespace Sys2Proof.Machine

/-! ### The checks on a word, in their order -/

/-- The first check: a word that decodes to no command is refused (60_exceptions.md R263). -/
theorem acceptWord_illegal {w : CmdWord} {why : Illegal} (h : decodeWord w = .illegal why) (s : State) :
    acceptWord w s = .next (s.raise .errIllegal) := by
  simp [acceptWord, h]

/-- The second check: so is the word of a command in a phase where it is not legal. -/
theorem acceptWord_refused {w : CmdWord} {i : Instr} {s : State} (h : decodeWord w = .instr i)
    (hl : legalIn i s.phase = false) : acceptWord w s = .next (s.raise .errPhase) :=
  (acceptWord_instr h s).trans (exec_refused (wellFormed_of_decodeWord h) hl)

/-- After both checks the command does its own work. -/
theorem acceptWord_legal {w : CmdWord} {i : Instr} {s : State} (h : decodeWord w = .instr i)
    (hl : legalIn i s.phase = true) : acceptWord w s = .next (effect i s) :=
  (acceptWord_instr h s).trans (exec_legal (wellFormed_of_decodeWord h) hl)

/-- `ENC`'s own first condition is UnknownSymbol, whatever the room left (43_encoder.md R213). -/
theorem effect_enc_uncoded {s : State} {x : Symbol} (h0 : (s.codeAt x).len = 0) {r : Response}
    (ho : (effect (.enc x) s).outbox = s.outbox ++ [r]) : r.st = .errUnknownSymbol := by
  rw [effect, encodeByte_uncoded h0] at ho
  rw [← List.singleton_inj.1 (List.append_cancel_left ho)]

/-- `ELEN`'s own first condition is `UNK`, whatever `LOVF` is (43_encoder.md R216). -/
theorem effect_elen_unk {s : State} (hu : s.unk = true) {r : Response}
    (ho : (effect .elen s).outbox = s.outbox ++ [r]) : r.st = .errUnknownSymbol := by
  rw [effect, elenStatus_eq, hu] at ho
  rw [← List.singleton_inj.1 (List.append_cancel_left ho)]

/-- Settles O6: by the two checks, and the first condition of `ENC`'s and `ELEN`'s work. -/
theorem checksAreMadeInOrder : Obligations.ChecksAreMadeInOrder := by
  intro w s
  cases hd : decodeWord w with
  | illegal why => exact ⟨_, _, acceptWord_illegal hd s, rfl, by simp⟩
  | instr i =>
    cases hl : legalIn i s.phase with
    | false => exact ⟨_, _, acceptWord_refused hd hl, rfl, by simp [hl]⟩
    | true =>
      obtain ⟨r, ho, hphase, hillegal⟩ := effect_not_refused i s
      refine ⟨_, r, acceptWord_legal hd hl, ho, fun h => absurd rfl (h i), ?_⟩
      rintro _ ⟨⟩
      refine ⟨by simp [hl], fun _ => ⟨hillegal, hphase, ?_, ?_⟩⟩
      · rintro x rfl h0
        exact effect_enc_uncoded h0 ho
      · rintro rfl hu
        exact effect_elen_unk hu ho

/-! ### Refusals -/

/-- Settles O17: the word and the phase, which decide a refusal, are the same after it. -/
theorem refusalsChangeNothing : Obligations.RefusalsChangeNothing := by
  intro w s
  cases hd : decodeWord w with
  | illegal why => exact ⟨_, _, acceptWord_illegal hd s, rfl, fun _ => ⟨rfl, acceptWord_illegal hd _⟩⟩
  | instr i =>
    cases hl : legalIn i s.phase with
    | false => exact ⟨_, _, acceptWord_refused hd hl, rfl, fun _ => ⟨rfl, acceptWord_refused hd hl⟩⟩
    | true =>
      obtain ⟨r, ho, hphase, hillegal⟩ := effect_not_refused i s
      exact ⟨_, r, acceptWord_legal hd hl, ho, fun h => absurd h (not_or.2 ⟨hphase, hillegal⟩)⟩

/-! ### The ways out of phase FAULT -/

/-- Taking an event off the inbox changes no element. -/
theorem pop_sameElements (s : State) : SameElements s s.pop := by
  constructor <;> rfl

/-- Settles O15: waiting changes nothing, reset and `CLR` clear, and in phase `FAULT` no other word changes an
element. -/
theorem faultIsLeftOnlyByClrOrReset : Obligations.FaultIsLeftOnlyByClrOrReset := by
  intro s hp
  have hclr : encode .clr = 0x1000#16 := rfl
  obtain ⟨t, ht, ⟨hin, rfl⟩ | ⟨rest, hin, rfl⟩ | ⟨w, rest, hin, hacc⟩⟩ := step_next s
  · exact ⟨_, ht, .inl ⟨.refl _, by simp [hin]⟩⟩
  · exact ⟨_, ht, .inr ⟨clear_elementsZero _, rest, .inl hin⟩⟩
  · refine ⟨t, ht, ?_⟩
    by_cases hw : w = encode .clr
    · subst hw
      obtain rfl := Host.Outcome.next.inj ((acceptWord_clr s.pop).symm.trans hacc)
      exact .inr ⟨respond_elementsZero (clear_elementsZero _) _ _ _, rest, .inr hin⟩
    · have hsame := acceptWord_sameElements_of_fault (s := s.pop) hp hw hacc
      exact .inl ⟨(pop_sameElements s).trans hsame, by simp [hin, ← hclr, hw]⟩

end Sys2Proof.Machine
end

section
/-! PROOFS. Family 70_reset_and_hazards: reset at any time (R300), and reset during a command (R301). -/

namespace Sys2Proof.Machine

/-! ### Reset at the pins -/

/-- Clearing leaves of a state only what is no element of it: the parameters and the two queues (logs 1, 2). -/
theorem clear_eq_reset (s : State) :
    s.clear = { State.reset with config := s.config, inbox := s.inbox, outbox := s.outbox } := rfl

/-- So states that agree in those are the same once cleared. -/
theorem clear_congr {s t : State} (hc : s.config = t.config) (hi : s.inbox = t.inbox) (ho : s.outbox = t.outbox) :
    s.clear = t.clear := by
  rw [clear_eq_reset, clear_eq_reset, hc, hi, ho]

theorem Block.edge_of_rst {p : Pins} (h : p.rst = true) (b : Block) : b.edge p = b.resetEdge := by
  simp [Block.edge, h]

theorem Block.cmdReady_of_rst {p : Pins} (h : p.rst = true) (b : Block) : b.cmdReady p = false := by
  simp [Block.cmdReady, h]

theorem Block.rspValid_of_rst {p : Pins} (h : p.rst = true) (b : Block) : b.rspValid p = none := by
  simp [Block.rspValid, h]

/-- Settles O10: reset and `CLR` both clear, and `rst` silences both ports. -/
theorem resetYieldsResetState : Obligations.ResetYieldsResetState := by
  refine ⟨fun s rest hin => ?_, fun b p hr => ?_⟩
  · rw [step_reset hin, clear_eq_reset]
    simp [hin]
  · rw [Block.edge_of_rst hr]
    exact ⟨clear_eq_reset _, rfl, Block.cmdReady_of_rst hr b, Block.rspValid_of_rst hr b, exec_clr b.state⟩

/-! ### A command in flight -/

/-- No word changes the parameters (log 1). -/
theorem acceptWord_config {w : CmdWord} {s t : State} (h : acceptWord w s = .next t) : t.config = s.config := by
  rcases acceptWord_cases w s with ⟨i, -, e⟩ | ⟨_, -, e⟩ <;> rw [e] at h
  · exact (exec_writesListed h).config
  · cases h
    rfl

/-- An edge that accepts a command puts it in flight, and changes nothing that outlives a reset. -/
theorem Block.edge_taken {b : Block} {p : Pins} (hc : b.cmdReady p = true) (hv : p.cmdValid = true) :
    ∃ r, (b.edge p).port = .inFlight p.done r ∧ (b.edge p).state.clear = b.state.clear := by
  obtain ⟨hr, hw, hidle⟩ := (b.cmdReady_iff p).1 hc
  obtain ⟨t, r, ht, ha, -⟩ := acceptWord_answered p.cmd b.state
  have hedge : b.edge p = ⟨{ t with outbox := b.state.outbox }, .inFlight p.done r⟩ := by
    simp [Block.edge, hr, hw, hidle, hv, Block.accept_eq ht ha.outbox]
  have hconfig : t.config = b.state.config := acceptWord_config ht
  rw [hedge]
  exact ⟨r, rfl, clear_congr hconfig ha.inbox rfl⟩

/-- While a command is in flight and stays so, an edge without reset leaves the state alone: only delivery writes. -/
theorem Block.edge_state_of_inFlight {b : Block} {p : Pins} (hr : p.rst = false) (hb : b.port ≠ .idle)
    (he : (b.edge p).port ≠ .idle) : (b.edge p).state = b.state := by
  rcases b.edge_cases p with ⟨h, -⟩ | ⟨hc, -⟩ | ⟨-, hp, -⟩ | ⟨r, -, -, e⟩ | ⟨r, -, -, -, e⟩ | ⟨r, -, -, -, e⟩
  · simp [hr] at h
  · exact absurd ((b.cmdReady_iff p).1 hc).2.2 hb
  · exact absurd hp hb
  · rw [e]
  · rw [e]
  · simp [e] at he

/-- And so does any number of edges over which the command stays in flight. -/
theorem Block.run_state_of_inFlight (ps : List Pins) (b : Block) (hr : ∀ p ∈ ps, p.rst = false)
    (h : ∀ k ≤ ps.length, (b.run (ps.take k)).port ≠ .idle) : (b.run ps).state = b.state := by
  induction ps generalizing b with
  | nil => rfl
  | cons p ps ih =>
    obtain ⟨hp, hps⟩ := List.forall_mem_cons.1 hr
    have hnext : ∀ k ≤ ps.length, ((b.edge p).run (ps.take k)).port ≠ .idle :=
      fun k hk => h (k + 1) (Nat.succ_le_succ hk)
    calc (b.run (p :: ps)).state
      _ = (b.edge p).state := ih (b.edge p) hps hnext
      _ = b.state := Block.edge_state_of_inFlight hp (h 0 (Nat.zero_le _)) (hnext 0 (Nat.zero_le _))

/-- Settles O55: acceptance changes nothing that outlives a reset, and the edges after it change no state before
delivery. -/
theorem resetAbandonsCommand : Obligations.ResetAbandonsCommand := by
  refine ⟨fun b q r _ hq => ?_, fun b p q ps hc hv hq => ?_⟩
  · rw [Block.edge_of_rst hq]
    exact ⟨rfl, clear_elementsZero _, rfl, Block.cmdReady_of_rst hq b, Block.rspValid_of_rst hq b⟩
  · obtain ⟨r, hport, hclear⟩ := Block.edge_taken hc hv
    refine ⟨⟨r, hport ▸ Port.inFlight_cases p.done r⟩, fun hr hflight => ?_⟩
    have hrun := Block.run_state_of_inFlight ps (b.edge p) hr hflight
    simp only [Block.edge_of_rst hq, Block.resetEdge, State.takeReset_eq, hrun, hclear]

end Sys2Proof.Machine
end
